-- ==== Sys2Proof/Word.lean ====
section
/-! DEFINITION. The word types of ArmAes-CORE and the types of register and key-slot numbers. -/

namespace Sys2Proof

/-- One byte of the engine memory (R7, R70). -/
abbrev Byte := BitVec 8

/-- A 32-bit word: a descriptor word, an engine address, a window register (R31, R70, R100). -/
abbrev Word := BitVec 32

/-- The 128-bit value of a 16-byte block: byte 0 is bits [127:120], byte 15 is bits [7:0] (R8). -/
abbrev Block := BitVec 128

/-- A block register number, V0 .. V15 (R43, R107). -/
abbrev VReg := Fin 16

/-- A key slot number, KS0 .. KS15 (R45). -/
abbrev SlotIx := Fin 16

end Sys2Proof
end

