-- ==== Sys2Proof/Machine/Bytes.lean ====
section
/-! DEFINITION. Byte strings, blocks and byte order (R7, R8, R9, R73): the helpers every other file uses. -/

namespace Sys2Proof

/-! ### Blocks and their bytes -/

/-- Byte `i` of the block with register value `v`: byte 0 is bits [127:120] (R8). -/
def byteOf (v : Block) (i : Nat) : Byte := v.extractLsb' (8 * (15 - i)) 8

/-- The register value of the block whose byte `i` is `f i` (R8). -/
def blockOfFn (f : Nat → Byte) : Block :=
  f 0 ++ f 1 ++ f 2 ++ f 3 ++ f 4 ++ f 5 ++ f 6 ++ f 7 ++
  f 8 ++ f 9 ++ f 10 ++ f 11 ++ f 12 ++ f 13 ++ f 14 ++ f 15

/-- `bytes_be(v, 16)` (R8). -/
def blockBytes (v : Block) : List Byte := (List.range 16).map (byteOf v)

/-- `be(B)` of a byte string of at most 16 bytes: its last byte is byte 15 of the block (R8). -/
def beBlock (bs : List Byte) : Block :=
  blockOfFn fun i => if i + bs.length < 16 then 0 else bs.getD (i + bs.length - 16) 0

/-- `bswap128(v) = be(reverse(bytes_be(v, 16)))` (R9). -/
def bswap128 (v : Block) : Block := blockOfFn fun i => byteOf v (15 - i)

/-! ### Little-endian words -/

/-- `bytes_le(w, 4)` (R8, R73). -/
def wordBytes (w : Word) : List Byte :=
  [w.extractLsb' 0 8, w.extractLsb' 8 8, w.extractLsb' 16 8, w.extractLsb' 24 8]

/-- `le` of four bytes, the one at the lowest address first (R8, R73). -/
def leWord (b0 b1 b2 b3 : Byte) : Word := b3 ++ b2 ++ b1 ++ b0

/-- Word `k` of a descriptor's bytes: `le(d[4k .. 4k+3])` (R332). -/
def wordAt (d : List Byte) (k : Nat) : Word :=
  leWord (d.getD (4 * k) 0) (d.getD (4 * k + 1) 0) (d.getD (4 * k + 2) 0) (d.getD (4 * k + 3) 0)

/-- `bytes_le(n, 8)` (R8, R291). -/
def le64Bytes (n : BitVec 64) : List Byte :=
  (List.range 8).map fun i => n.extractLsb' (8 * i) 8

/-! ### Byte strings -/

/-- `A ⊕ B` on the bytes both strings have: `zipWith` stops at the shorter one (R7). -/
def xorBytes (a b : List Byte) : List Byte := List.zipWith (· ^^^ ·) a b

/-- The pieces of 16 bytes of `xs`, the last one shorter when 16 does not divide its length; `fuel` bounds the pieces. -/
def chunksUpTo : Nat → List Byte → List (List Byte)
  | 0, _ => []
  | _ + 1, [] => []
  | fuel + 1, x :: xs => (x :: xs).take 16 :: chunksUpTo fuel ((x :: xs).drop 16)

/-- `X_1, …, X_m` of a byte string: 16 bytes each, but for a shorter last one (R203, R234, R265). -/
def chunks16 (xs : List Byte) : List (List Byte) := chunksUpTo xs.length xs

/-- `pad(X) = X ‖ zeros((16 − len(X) mod 16) mod 16)` (R235). -/
def pad16 (xs : List Byte) : List Byte := xs ++ List.replicate ((16 - xs.length % 16) % 16) 0

/-- `X ‖ 0x80 ‖ zeros(15 − len(X))`, the padding of OCB's final partial block (R264, R265). -/
def pad80 (xs : List Byte) : List Byte := xs ++ 0x80 :: List.replicate (15 - xs.length) 0

end Sys2Proof
end

