-- ==== Sys2Proof/Syntax/Operands.lean ====
section
/-! DEFINITION. The operand types of the commands: what a descriptor's fields and operand words stand for (R106, R108). -/

namespace Sys2Proof

/-- The DIR bit of a KRK selector: 0 forward, 1 inverse (R106). -/
inductive Dir where
  | forward
  | inverse
deriving DecidableEq, Repr

/-- The operand words w[1] .. w[8] of a GCM or OCB command (R106). -/
structure AeadBufs where
  src : Word
  dst : Word
  len : Word
  aad : Word
  alen : Word
  nonce : Word
  nlen : Word
  tag : Word
deriving DecidableEq, Repr

/-- How an XTS command gets its IVs (R291): SEQ = 0 names the address of an array of 16-byte IVs, SEQ = 1 gives the
64-bit start sequence number `SEQ_HI · 2^32 + SEQ_LO`. -/
inductive XtsIv where
  | array (addr : Word)
  | seq (n : BitVec 64)
deriving DecidableEq, Repr

/-- The operand words of an XTS command (R106). -/
structure XtsBufs where
  src : Word
  dst : Word
  len : Word
  dul : Word
  iv : XtsIv
deriving DecidableEq, Repr

end Sys2Proof
end

