-- ==== Sys2Proof/Syntax.lean ====
section
/-! DEFINITION. The commands of ArmAes-CORE, one constructor per row of spec/opcode_table.json. -/

namespace Sys2Proof

/-- A decoded command.  Register and slot numbers are 4-bit header fields, `tlen` is the 5-bit TLEN field (its legal
range 1..16 is an argument check, R356), `we` and `wd` are KEXP's flags FL0 and FL1. -/
inductive Instr where
  /-- R324 -/
  | nop
  /-- R325 -/
  | halt
  /-- R186: `KEXP ksK, [KEY], KLEN {, enc} {, dec}` -/
  | kexp (ks : SlotIx) (we wd : Bool) (key klen : Word)
  /-- R187: `KRK vD, ksK, enc|dec, J` -/
  | krk (vd : VReg) (ks : SlotIx) (dir : Dir) (j : Fin 16)
  /-- R152 -/
  | aese1 (vd va : VReg) (ks : SlotIx)
  /-- R153 -/
  | aese2 (vd va : VReg) (ks : SlotIx)
  /-- R154 -/
  | aese4 (vd va : VReg) (ks : SlotIx)
  /-- R155 -/
  | aese8 (vd va : VReg) (ks : SlotIx)
  /-- R156 -/
  | aesd1 (vd va : VReg) (ks : SlotIx)
  /-- R157 -/
  | aesd2 (vd va : VReg) (ks : SlotIx)
  /-- R158 -/
  | aesd4 (vd va : VReg) (ks : SlotIx)
  /-- R159 -/
  | aesd8 (vd va : VReg) (ks : SlotIx)
  /-- R210 -/
  | gmul (vd va vb : VReg)
  /-- R211 -/
  | gred4 (vd va vb : VReg)
  /-- R212 -/
  | dbl (vd va : VReg)
  /-- R213 -/
  | dblx (vd va : VReg)
  /-- R214 -/
  | dblx8 (vd va : VReg)
  /-- R237 -/
  | vinc32 (vd va : VReg)
  /-- R320: `VLD vD, [ADDR]` -/
  | vld (vd : VReg) (addr : Word)
  /-- R321: `VST vA, [ADDR]` -/
  | vst (va : VReg) (addr : Word)
  /-- R322 -/
  | vxor (vd va vb : VReg)
  /-- R238 -/
  | gcmEnc (ks : SlotIx) (tlen : BitVec 5) (b : AeadBufs)
  /-- R239 -/
  | gcmDec (ks : SlotIx) (tlen : BitVec 5) (b : AeadBufs) (res : Word)
  /-- R270 -/
  | ocbEnc (ks : SlotIx) (tlen : BitVec 5) (b : AeadBufs)
  /-- R271 -/
  | ocbDec (ks : SlotIx) (tlen : BitVec 5) (b : AeadBufs) (res : Word)
  /-- R298: `ks` is the data key, `kt` the tweak key -/
  | xtsEnc (ks kt : SlotIx) (b : XtsBufs)
  /-- R299 -/
  | xtsDec (ks kt : SlotIx) (b : XtsBufs)
deriving DecidableEq, Repr

end Sys2Proof
end

