-- ==== Sys2Proof/WellFormed.lean ====
section
/-! DEFINITION. Which commands are well formed: the conditions of R109 that a term of `Instr` can still break.  Every
other condition of R109 is about header bits that no term of `Instr` can hold; `decode` refuses those. -/

namespace Sys2Proof

/-- A group of `n` block registers that starts at register `v` stays inside V0 .. V15 (R107). -/
def groupFits (v : VReg) (n : Nat) : Bool := decide (v.val + n ≤ 16)

/-- Well-formed: no register group of the command passes V15 (R107, R109 (d)). -/
def Instr.wellFormed : Instr → Bool
  | .nop => true
  | .halt => true
  | .kexp _ _ _ _ _ => true
  | .krk _ _ _ _ => true
  | .aese1 vd va _ => groupFits va 1 && groupFits vd 1
  | .aese2 vd va _ => groupFits va 2 && groupFits vd 2
  | .aese4 vd va _ => groupFits va 4 && groupFits vd 4
  | .aese8 vd va _ => groupFits va 8 && groupFits vd 8
  | .aesd1 vd va _ => groupFits va 1 && groupFits vd 1
  | .aesd2 vd va _ => groupFits va 2 && groupFits vd 2
  | .aesd4 vd va _ => groupFits va 4 && groupFits vd 4
  | .aesd8 vd va _ => groupFits va 8 && groupFits vd 8
  | .gmul _ _ _ => true
  | .gred4 _ va vb => groupFits va 4 && groupFits vb 4
  | .dbl _ _ => true
  | .dblx _ _ => true
  | .dblx8 _ _ => true
  | .vinc32 _ _ => true
  | .vld _ _ => true
  | .vst _ _ => true
  | .vxor _ _ _ => true
  | .gcmEnc _ _ _ => true
  | .gcmDec _ _ _ _ => true
  | .ocbEnc _ _ _ => true
  | .ocbDec _ _ _ _ => true
  | .xtsEnc _ _ _ => true
  | .xtsDec _ _ _ => true

end Sys2Proof
end

