-- ==== Sys2Proof/Decode.lean ====
section
/-! DEFINITION. Decoding a descriptor's bytes to a command or to a named refusal (R100 to R109), and the encoder. -/

namespace Sys2Proof

/-! ### The opcode map -/

/-- The opcodes of R104; AESE and AESD stand for four commands each, told apart by the lane code N. -/
inductive Opcode where
  | nop | halt | kexp | krk | aese | aesd | gmul | gred4 | dbl | dblx | dblx8 | vinc32
  | vld | vst | vxor | gcmEnc | gcmDec | ocbEnc | ocbDec | xtsEnc | xtsDec
deriving DecidableEq, Repr

/-- Why a descriptor is refused; every one of these is `Err(E_ILLEGAL)` (R109). -/
inductive DecodeError where
  /-- R109 (a): OPC is not in the opcode map -/
  | opcode
  /-- R109 (b): RSV ≠ 0, or FL2 ≠ 0 in format M -/
  | reserved
  /-- R109 (c): a non-zero header field that the command does not use (R105) -/
  | unusedField
  /-- R109 (e): a KRK selector with a bit other than [3:0] and 8 set -/
  | selector
  /-- fewer than the 64 bytes of a descriptor were given; the Engine always fetches 64 -/
  | short
deriving DecidableEq, Repr

/-- R104, column OPC. -/
def Opcode.code : Opcode → Byte
  | .nop => 0x00 | .halt => 0x01 | .kexp => 0x08 | .krk => 0x09
  | .aese => 0x10 | .aesd => 0x11
  | .gmul => 0x18 | .gred4 => 0x19 | .dbl => 0x1A | .dblx => 0x1B | .dblx8 => 0x1C | .vinc32 => 0x1D
  | .vld => 0x20 | .vst => 0x21 | .vxor => 0x22
  | .gcmEnc => 0x30 | .gcmDec => 0x31 | .ocbEnc => 0x32 | .ocbDec => 0x33 | .xtsEnc => 0x34 | .xtsDec => 0x35

/-- Every row of R104. -/
def opcodeMap : List Opcode :=
  [.nop, .halt, .kexp, .krk, .aese, .aesd, .gmul, .gred4, .dbl, .dblx, .dblx8, .vinc32,
   .vld, .vst, .vxor, .gcmEnc, .gcmDec, .ocbEnc, .ocbDec, .xtsEnc, .xtsDec]

/-- The command that an OPC byte selects, if R104 lists it (R101). -/
def opcodeOf (b : Byte) : Option Opcode := opcodeMap.find? fun o => o.code == b

/-! ### Header fields -/

/-- Whether the command has header format M; the others have format R (R104). -/
def Opcode.isM : Opcode → Bool
  | .kexp | .gcmEnc | .gcmDec | .ocbEnc | .ocbDec | .xtsEnc | .xtsDec => true
  | .nop | .halt | .krk | .aese | .aesd | .gmul | .gred4 | .dbl | .dblx | .dblx8 | .vinc32
  | .vld | .vst | .vxor => false

/-- Format R's fields VD, VA, VB, KS, N as header bits (R102). -/
def rVD : Word := 0x00000F00
def rVA : Word := 0x0000F000
def rVB : Word := 0x000F0000
def rKS : Word := 0x00F00000
def rN  : Word := 0x03000000

/-- Format M's fields KS, KS2, TLEN, FL0, FL1 as header bits (R103). -/
def mKS : Word := 0x00000F00
def mKS2 : Word := 0x0000F000
def mTLEN : Word := 0x001F0000
def mFL0 : Word := 0x00200000
def mFL1 : Word := 0x00400000

/-- The reserved header bits: RSV [31:26] in format R (R102); FL2 [23] and RSV [31:24] in format M (R103). -/
def Opcode.reservedBits (o : Opcode) : Word := if o.isM then 0xFF800000 else 0xFC000000

/-- R105: the header fields the command uses. -/
def Opcode.usedBits : Opcode → Word
  | .nop => 0
  | .halt => 0
  | .vld => rVD
  | .vst => rVA
  | .vxor => rVD ||| rVA ||| rVB
  | .gmul => rVD ||| rVA ||| rVB
  | .gred4 => rVD ||| rVA ||| rVB
  | .dbl => rVD ||| rVA
  | .dblx => rVD ||| rVA
  | .dblx8 => rVD ||| rVA
  | .vinc32 => rVD ||| rVA
  | .aese => rVD ||| rVA ||| rKS ||| rN
  | .aesd => rVD ||| rVA ||| rKS ||| rN
  | .krk => rVD ||| rKS
  | .kexp => mKS ||| mFL0 ||| mFL1
  | .gcmEnc => mKS ||| mTLEN
  | .gcmDec => mKS ||| mTLEN
  | .ocbEnc => mKS ||| mTLEN
  | .ocbDec => mKS ||| mTLEN
  | .xtsEnc => mKS ||| mKS2 ||| mFL0
  | .xtsDec => mKS ||| mKS2 ||| mFL0

/-- The 4-bit field of a header whose lowest bit is `lo`, as a register or slot number (R107). -/
def nib (h : Word) (lo : Nat) : Fin 16 := (h.extractLsb' lo 4).toFin

/-- TLEN, bits [20:16] of format M (R103, R108). -/
def tlenOf (h : Word) : BitVec 5 := h.extractLsb' 16 5

/-! ### From words to a command -/

/-- w[1] .. w[8] of a GCM or OCB command (R106). -/
def aeadBufs (w : Nat → Word) : AeadBufs :=
  { src := w 1, dst := w 2, len := w 3, aad := w 4, alen := w 5, nonce := w 6, nlen := w 7, tag := w 8 }

/-- The operand words of an XTS command: w[6] only when SEQ = 0, w[10] and w[11] only when SEQ = 1 (R106, R108). -/
def xtsBufs (w : Nat → Word) : XtsBufs :=
  { src := w 1, dst := w 2, len := w 3, dul := w 7
    iv := if (w 0).getLsbD 21 then .seq (w 11 ++ w 10) else .array (w 6) }

/-- AESE.n by the lane code N (R104). -/
def aeseOf (n : BitVec 2) (vd va : VReg) (ks : SlotIx) : Instr :=
  if n = 0 then .aese1 vd va ks else if n = 1 then .aese2 vd va ks
  else if n = 2 then .aese4 vd va ks else .aese8 vd va ks

/-- AESD.n by the lane code N (R104). -/
def aesdOf (n : BitVec 2) (vd va : VReg) (ks : SlotIx) : Instr :=
  if n = 0 then .aesd1 vd va ks else if n = 1 then .aesd2 vd va ks
  else if n = 2 then .aesd4 vd va ks else .aesd8 vd va ks

/-- The command of a header whose opcode is `o` and whose unused fields are 0: its fields (R102, R103) and operand
words (R106).  Unused operand words are not looked at (R109). -/
def buildInstr (o : Opcode) (w : Nat → Word) : Except DecodeError Instr :=
  let h := w 0
  match o with
  | .nop => .ok .nop
  | .halt => .ok .halt
  | .kexp => .ok (.kexp (nib h 8) (h.getLsbD 21) (h.getLsbD 22) (w 1) (w 2))
  | .krk =>
    if w 1 &&& ~~~0x10F#32 = 0 then
      .ok (.krk (nib h 8) (nib h 20) (if (w 1).getLsbD 8 then .inverse else .forward) (nib (w 1) 0))
    else .error .selector
  | .aese => .ok (aeseOf (h.extractLsb' 24 2) (nib h 8) (nib h 12) (nib h 20))
  | .aesd => .ok (aesdOf (h.extractLsb' 24 2) (nib h 8) (nib h 12) (nib h 20))
  | .gmul => .ok (.gmul (nib h 8) (nib h 12) (nib h 16))
  | .gred4 => .ok (.gred4 (nib h 8) (nib h 12) (nib h 16))
  | .dbl => .ok (.dbl (nib h 8) (nib h 12))
  | .dblx => .ok (.dblx (nib h 8) (nib h 12))
  | .dblx8 => .ok (.dblx8 (nib h 8) (nib h 12))
  | .vinc32 => .ok (.vinc32 (nib h 8) (nib h 12))
  | .vld => .ok (.vld (nib h 8) (w 1))
  | .vst => .ok (.vst (nib h 12) (w 1))
  | .vxor => .ok (.vxor (nib h 8) (nib h 12) (nib h 16))
  | .gcmEnc => .ok (.gcmEnc (nib h 8) (tlenOf h) (aeadBufs w))
  | .gcmDec => .ok (.gcmDec (nib h 8) (tlenOf h) (aeadBufs w) (w 9))
  | .ocbEnc => .ok (.ocbEnc (nib h 8) (tlenOf h) (aeadBufs w))
  | .ocbDec => .ok (.ocbDec (nib h 8) (tlenOf h) (aeadBufs w) (w 9))
  | .xtsEnc => .ok (.xtsEnc (nib h 8) (nib h 12) (xtsBufs w))
  | .xtsDec => .ok (.xtsDec (nib h 8) (nib h 12) (xtsBufs w))

/-- Decoding sixteen words: opcode map, reserved bits, unused fields, then the command (R101, R105, R109).  A register
group past V15 decodes and is refused by the command itself, as the pseudocode of R151 and R211 does it. -/
def decodeWords (w : Nat → Word) : Except DecodeError Instr :=
  let h := w 0
  match opcodeOf (h.extractLsb' 0 8) with
  | none => .error .opcode
  | some o =>
    if h &&& o.reservedBits ≠ 0 then .error .reserved
    else if h &&& ~~~(o.usedBits ||| 0xFF) ≠ 0 then .error .unusedField
    else buildInstr o w

/-- Decoding a descriptor's bytes (R100): sixteen little-endian words. -/
def decode (d : List Byte) : Except DecodeError Instr :=
  if d.length < 64 then .error .short else decodeWords (wordAt d)

/-! ### The encoder -/

/-- A format R header (R102). -/
def rHeader (o : Opcode) (vd va vb : VReg) (ks : SlotIx) (n : BitVec 2) : Word :=
  0#6 ++ n ++ BitVec.ofFin (w := 4) ks ++ BitVec.ofFin (w := 4) vb ++ BitVec.ofFin (w := 4) va
    ++ BitVec.ofFin (w := 4) vd ++ o.code

/-- A format M header (R103). -/
def mHeader (o : Opcode) (ks ks2 : SlotIx) (tlen : BitVec 5) (fl0 fl1 : Bool) : Word :=
  0#8 ++ 0#1 ++ BitVec.ofBool fl1 ++ BitVec.ofBool fl0 ++ tlen
    ++ BitVec.ofFin (w := 4) ks2 ++ BitVec.ofFin (w := 4) ks ++ o.code

/-- The KRK selector of R106: J in bits [3:0], DIR in bit 8. -/
def selWord (dir : Dir) (j : Fin 16) : Word :=
  0#23 ++ BitVec.ofBool (dir = .inverse) ++ 0#4 ++ BitVec.ofFin (w := 4) j

/-- The sixteen words of a GCM or OCB command (R106). -/
def aeadWords (h : Word) (b : AeadBufs) (res : Word) : List Word :=
  [h, b.src, b.dst, b.len, b.aad, b.alen, b.nonce, b.nlen, b.tag, res, 0, 0, 0, 0, 0, 0]

/-- The sixteen words of an XTS command (R106). -/
def xtsWords (o : Opcode) (ks kt : SlotIx) (b : XtsBufs) : List Word :=
  match b.iv with
  | .array a =>
    [mHeader o ks kt 0 false false, b.src, b.dst, b.len, 0, 0, a, b.dul, 0, 0, 0, 0, 0, 0, 0, 0]
  | .seq n =>
    [mHeader o ks kt 0 true false, b.src, b.dst, b.len, 0, 0, 0, b.dul, 0, 0,
     n.extractLsb' 0 32, n.extractLsb' 32 32, 0, 0, 0, 0]

/-- A header followed by fifteen operand words, of which only w[1] and w[2] may be used. -/
def shortWords (h w1 w2 : Word) : List Word := [h, w1, w2, 0, 0, 0, 0, 0, 0, 0, 0, 0, 0, 0, 0, 0]

/-- The sixteen words of a command, every field and word it does not use written 0 (R111). -/
def encode : Instr → List Word
  | .nop => shortWords (rHeader .nop 0 0 0 0 0) 0 0
  | .halt => shortWords (rHeader .halt 0 0 0 0 0) 0 0
  | .kexp ks we wd key klen => shortWords (mHeader .kexp ks 0 0 we wd) key klen
  | .krk vd ks dir j => shortWords (rHeader .krk vd 0 0 ks 0) (selWord dir j) 0
  | .aese1 vd va ks => shortWords (rHeader .aese vd va 0 ks 0) 0 0
  | .aese2 vd va ks => shortWords (rHeader .aese vd va 0 ks 1) 0 0
  | .aese4 vd va ks => shortWords (rHeader .aese vd va 0 ks 2) 0 0
  | .aese8 vd va ks => shortWords (rHeader .aese vd va 0 ks 3) 0 0
  | .aesd1 vd va ks => shortWords (rHeader .aesd vd va 0 ks 0) 0 0
  | .aesd2 vd va ks => shortWords (rHeader .aesd vd va 0 ks 1) 0 0
  | .aesd4 vd va ks => shortWords (rHeader .aesd vd va 0 ks 2) 0 0
  | .aesd8 vd va ks => shortWords (rHeader .aesd vd va 0 ks 3) 0 0
  | .gmul vd va vb => shortWords (rHeader .gmul vd va vb 0 0) 0 0
  | .gred4 vd va vb => shortWords (rHeader .gred4 vd va vb 0 0) 0 0
  | .dbl vd va => shortWords (rHeader .dbl vd va 0 0 0) 0 0
  | .dblx vd va => shortWords (rHeader .dblx vd va 0 0 0) 0 0
  | .dblx8 vd va => shortWords (rHeader .dblx8 vd va 0 0 0) 0 0
  | .vinc32 vd va => shortWords (rHeader .vinc32 vd va 0 0 0) 0 0
  | .vld vd addr => shortWords (rHeader .vld vd 0 0 0 0) addr 0
  | .vst va addr => shortWords (rHeader .vst 0 va 0 0 0) addr 0
  | .vxor vd va vb => shortWords (rHeader .vxor vd va vb 0 0) 0 0
  | .gcmEnc ks tlen b => aeadWords (mHeader .gcmEnc ks 0 tlen false false) b 0
  | .gcmDec ks tlen b res => aeadWords (mHeader .gcmDec ks 0 tlen false false) b res
  | .ocbEnc ks tlen b => aeadWords (mHeader .ocbEnc ks 0 tlen false false) b 0
  | .ocbDec ks tlen b res => aeadWords (mHeader .ocbDec ks 0 tlen false false) b res
  | .xtsEnc ks kt b => xtsWords .xtsEnc ks kt b
  | .xtsDec ks kt b => xtsWords .xtsDec ks kt b

/-- The 64 bytes of a command in memory: each word little-endian, w[0] at the lowest address (R100). -/
def encodeBytes (i : Instr) : List Byte := (encode i).flatMap wordBytes

/-! ### Words as the opcode table numbers them -/

/-- The 64 bytes of the descriptor whose bits below `nbits`, a whole number of bytes, are those of `w` and whose other
bits are 0: bit 0 is bit 0 of w[0], and each byte holds the next eight bits, as little-endian words do. -/
def tableWordBytes (nbits w : Nat) : List Byte :=
  (List.range 64).map fun i => if 8 * i < nbits then BitVec.ofNat 8 (w >>> (8 * i)) else 0

/-- What the decoder reads from the bits `w` of an opcode-table row. -/
def decodeTableWord (nbits w : Nat) : Option Instr :=
  match decode (tableWordBytes nbits w) with
  | .ok i => some i
  | .error _ => none

end Sys2Proof
end

