-- ==== Sys2Proof/Config.lean ====
section
/-! DEFINITION. The OPEN parameters of ArmAes-CORE (R6) as plain data that the model takes as an
argument, and the free values of 93_implementation_defined.md, which are constants without a body. -/

namespace Sys2Proof

/-- A run of byte addresses `base .. base + size - 1`. -/
structure Region where
  base : Nat
  size : Nat
deriving DecidableEq, Repr

/-- The configuration of one platform: the OPEN parameters of R6.  `State` carries it, no step changes it
(R49), and a statement about every state holds for every configuration.  The predicates `MEM_R` and `MEM_W`
are the unions of the listed regions: any set of 32-bit addresses is such a union. -/
structure Config where
  /-- `HAS_CRYPTO` (D9). -/
  hasCrypto : Bool
  /-- `XTS_MAX_UNITS`, legal 1 .. 65535 (D30). -/
  xtsMaxUnits : BitVec 16
  /-- `MMIO_BASE`, a 256-byte-aligned host address (D7). -/
  mmioBase : Nat
  /-- whether the register window is also visible in the engine memory, at the same address (R78). -/
  windowVisible : Bool
  /-- `MEM_R` (D8). -/
  readable : List Region
  /-- `MEM_W` (D8). -/
  writable : List Region
deriving DecidableEq, Repr

/-- The ranges R6 gives the parameters: `XTS_MAX_UNITS` is not 0 and `MMIO_BASE` is 256-byte aligned. -/
def Config.wf (c : Config) : Bool := c.xtsMaxUnits != 0 && c.mmioBase % 256 == 0

/-- The configuration of `State.reset`: `HAS_CRYPTO` has its default (R6); for the parameters to which the spec
gives no value it is the platform of 95_test_vectors.md section 7.2, 64 KiB of memory and 8 XTS units.
DESIGN CHOICE (log entry 1, unsafe for a claim about `State.reset` alone; the statements need of it only that it lies
in the ranges of R6). -/
def Config.atReset : Config :=
  { hasCrypto := true
    xtsMaxUnits := 8
    mmioBase := 0x100000000
    windowVisible := false
    readable := [⟨0, 0x10000⟩]
    writable := [⟨0, 0x10000⟩] }

/-- Free value (log entry 4): the byte the `n`-th free draw returns to a Host read, while the Engine
runs, of a byte that the run writes (R82, S1).  It has no body, so no proof knows it. -/
opaque Config.freeByte : Nat → Byte

/-- Free value (log entry 5): whether, in the `n`-th free draw, the byte at address `a` that an interrupted command
would have written holds its new value (R402, S4).  It has no body, so no proof knows it. -/
opaque Config.freeNew : Nat → Nat → Bool

end Sys2Proof
end

