-- ==== Sys2Proof/Machine/State.lean ====
section
/-! DEFINITION. The state of ArmAes-CORE as plain data (10_state.md), the inputs that drive it, its faults and
refusals, and the state after reset (R50). -/

namespace Sys2Proof.Machine

/-- The Engine's phase (R42). -/
inductive Phase where
  | idle
  | running
deriving DecidableEq, Repr

/-- The six errors of R351. -/
inductive ErrCode where
  | illegal
  | platform
  | keyLen
  | key
  | arg
  | bus
deriving DecidableEq, Repr

/-- One key slot (R45). -/
structure KeySlot where
  /-- the forward schedule is valid -/
  ev : Bool
  /-- the inverse schedule is valid -/
  dv : Bool
  /-- key length in 32-bit words: 0, 4, 6 or 8 -/
  nk : BitVec 4
  /-- rounds: 0, 10, 12 or 14 -/
  nr : BitVec 4
  /-- forward round keys -/
  erk : Vector Block 15
  /-- inverse round keys -/
  drk : Vector Block 15
deriving DecidableEq, Repr

/-- The slot with no key: its reset value (R45, R50). -/
def KeySlot.empty : KeySlot :=
  { ev := false, dv := false, nk := 0, nr := 0
    erk := Vector.replicate 15 0, drk := Vector.replicate 15 0 }

/-- The size of a Host access to the register window (R31). -/
inductive AccessWidth where
  | byte
  | half
  | word
  /-- any access wider than 32 bits -/
  | wide
deriving DecidableEq, Repr

/-- What happens next (R333): the transitions of the block, the Host's accesses to the engine memory (R82, R83) and
the reset input (R400). -/
inductive Turn where
  /-- the Engine takes a step, if it is running -/
  | engine
  /-- the Host reads the window at offset `off` -/
  | regRead (off : BitVec 8) (width : AccessWidth)
  /-- the Host writes `x` to the window at offset `off` -/
  | regWrite (off : BitVec 8) (width : AccessWidth) (x : Word)
  /-- the Host reads the byte of engine memory at `a` -/
  | memRead (a : Word)
  /-- the Host writes the byte of engine memory at `a` -/
  | memWrite (a : Word) (b : Byte)
  /-- the reset input is asserted -/
  | powerOn
deriving DecidableEq, Repr

/-- What the Host's last access was answered. -/
inductive HostResponse where
  /-- the value of a window register -/
  | reg (x : Word)
  /-- a byte of engine memory -/
  | byte (b : Byte)
  /-- a write was accepted -/
  | done
  /-- the window's bus-error response (R31, S6) -/
  | busError
deriving DecidableEq, Repr

/-- A range of engine memory: its first address and its length in bytes (R71). -/
abbrev Range := Nat × Nat

/-- The engine memory in canonical form: addresses strictly rising, no entry equal to `memFill`. -/
abbrev Memory := List Host.Cell

/-- What an unlisted address reads as.  DESIGN CHOICE (log entry 2, unsafe): the spec leaves the memory's contents to
the platform (R50); its worked programs start from memory whose other bytes are 0 (95_test_vectors.md section 8). -/
def memFill : Byte := 0

/-- The state of the machine.  `v`, `ks`, `cp`, `errPtr`, `phase`, the STATUS and CTRL fields and `mem` are the
spec's; `cfg` carries the OPEN parameters of R6; `turns`, `response`, `draws`, `runReads` and
`runWrites` are the model's own. -/
structure State where
  /-- block registers V0 .. V15 (R43) -/
  v : Vector Block 16
  /-- key slots KS0 .. KS15 (R45) -/
  ks : Vector KeySlot 16
  /-- the command pointer CP (R44), read and written as CMD_PTR (R38) -/
  cp : Word
  /-- ERR_PTR (R39) -/
  errPtr : Word
  /-- the Engine phase; STATUS.BUSY is 1 exactly when it is `running` (R42) -/
  phase : Phase
  /-- STATUS.DONE (R36) -/
  done : Bool
  /-- STATUS.ERR (R36) -/
  err : Bool
  /-- STATUS.AUTH (R36) -/
  auth : Bool
  /-- STATUS.ERRCODE (R36) -/
  errCode : BitVec 8
  /-- CTRL.DONE_IE (R34) -/
  doneIe : Bool
  /-- CTRL.ERR_IE (R34) -/
  errIe : Bool
  /-- CTRL.ZOF (R34) -/
  zof : Bool
  /-- the engine memory (R70) -/
  mem : Memory
  /-- the OPEN parameters (R6); no step changes them (R49) -/
  cfg : Config
  /-- the inputs still to come, the next one first; when none is left the Engine steps (log entry 3) -/
  turns : List Turn
  /-- the answer to the Host's last access (log entry 3) -/
  response : Option HostResponse
  /-- how many free values have been drawn (log entries 4 and 5) -/
  draws : Nat
  /-- the ranges of memory that the run has read since START, the last one first (R76, log entry 18) -/
  runReads : List Range
  /-- the ranges of memory that the run has written since START, the last one first (R76, log entry 18) -/
  runWrites : List Range
deriving DecidableEq, Repr

/-- The reasons the machine stops with a fault: none.  Every error of this hardware is an error stop that the Host
recovers from (R360, R363), and no command has an undefined outcome (93_implementation_defined.md section 2), so no
operation of the model raises a fault; safe, since nothing is cut off. -/
inductive Fault where
deriving DecidableEq, Repr

/-- The reasons the model makes no claim. -/
inductive Refusal where
  /-- an instruction without a meaning yet, raised by `exec`'s arm alone; safe: nothing is claimed about it -/
  | notModelled (mnemonic : String)
  /-- the Host wrote, while the Engine was running, a byte of engine memory that the run reads or writes (R83 duty 2,
  S2 `refuse`), raised by `takeTurn` alone; safe: no claim is made about the rest of such a run (log entry 6) -/
  | hostWriteDuringRun
deriving DecidableEq, Repr

/-- The state after reset: R50 for every piece of state of the block.  Memory lists nothing (log entry 2), the
configuration is that of log entry 1, and the model's own fields start empty. -/
def State.reset : State :=
  { v := Vector.replicate 16 0
    ks := Vector.replicate 16 KeySlot.empty
    cp := 0
    errPtr := 0
    phase := .idle
    done := false
    err := false
    auth := false
    errCode := 0
    doneIe := false
    errIe := false
    zof := false
    mem := []
    cfg := Config.atReset
    turns := []
    response := none
    draws := 0
    runReads := []
    runWrites := [] }

end Sys2Proof.Machine
end

