-- ==== Sys2Proof/Machine/Ops.lean ====
section
/-! DEFINITION. The operations the commands share: engine memory (R70 to R73), admission (R71, R78), block registers
and key slots (R43, R45), the error stop (R360), CP advance (R331), the end of a run (R335), the three phases of a
command (R12), and the fetch (R332). -/

namespace Sys2Proof.Machine

/-! ### Memory -/

/-- The byte at address `a` (R72). -/
def Memory.read : Memory → Nat → Byte
  | [], _ => memFill
  | (k, b) :: m, a => if k = a then b else Memory.read m a

/-- `mem[a] <- b`, keeping the canonical form (R72). -/
def Memory.write : Memory → Nat → Byte → Memory
  | [], a, b => if b = memFill then [] else [(a, b)]
  | (k, c) :: m, a, b =>
    if a < k then if b = memFill then (k, c) :: m else (a, b) :: (k, c) :: m
    else if a = k then if b = memFill then m else (a, b) :: m
    else (k, c) :: Memory.write m a b

/-- `MemRead(a, n)` (R72). -/
def Memory.readBytes (m : Memory) : Nat → Nat → List Byte
  | _, 0 => []
  | a, n + 1 => m.read a :: Memory.readBytes m (a + 1) n

/-- `MemWrite(a, len(B), B)` (R72). -/
def Memory.writeBytes (m : Memory) : Nat → List Byte → Memory
  | _, [] => m
  | a, b :: bs => Memory.writeBytes (m.write a b) (a + 1) bs

/-- The addresses of the listed cells rise strictly, each above `lo`. -/
def Memory.risesFrom : Nat → Memory → Bool
  | _, [] => true
  | lo, (k, _) :: m => decide (lo ≤ k) && Memory.risesFrom (k + 1) m

/-- The canonical form: addresses strictly rising and inside the 32-bit address space (R70), no entry equal to what an
unlisted address reads as. -/
def Memory.wf (m : Memory) : Bool :=
  Memory.risesFrom 0 m && m.all fun c => decide (c.1 < 2 ^ 32) && c.2 != memFill

/-! ### Admission -/

/-- Whether `p` holds at `a .. a + n - 1`. -/
def allFrom (p : Nat → Bool) : Nat → Nat → Bool
  | _, 0 => true
  | a, n + 1 => p a && allFrom p (a + 1) n

/-- Address `a` lies in a region of the list. -/
def inRegions (rs : List Region) (a : Nat) : Bool :=
  rs.any fun r => decide (r.base ≤ a) && decide (a < r.base + r.size)

/-- Address `a` of the engine memory lies in the 256-byte register window, where that is visible (R78);
it then stands at `MMIO_BASE` (DEDUCED, log entry 9). -/
def inWindow (c : Config) (a : Nat) : Bool :=
  c.windowVisible && decide (c.mmioBase ≤ a) && decide (a < c.mmioBase + 256)

/-- The Engine may read the byte at `a`: `MEM_R(a)` and outside the window (R71). -/
def mayRead (c : Config) (a : Nat) : Bool := inRegions c.readable a && !inWindow c a

/-- The Engine may write the byte at `a`: `MEM_W(a)` and outside the window (R71). -/
def mayWrite (c : Config) (a : Nat) : Bool := inRegions c.writable a && !inWindow c a

/-- The read range `(a, n)` is admitted (R71). -/
def admittedRead (c : Config) (a n : Nat) : Bool :=
  n == 0 || (decide (a + n ≤ 2 ^ 32) && allFrom (mayRead c) a n)

/-- The write range `(a, n)` is admitted (R71). -/
def admittedWrite (c : Config) (a n : Nat) : Bool :=
  n == 0 || (decide (a + n ≤ 2 ^ 32) && allFrom (mayWrite c) a n)

/-- `c` with the descriptor fetch at `a` admitted; `c` itself when it is admitted already. -/
def cfgWithFetchAt (c : Config) (a : Nat) : Config :=
  if admittedRead c a 64 then c
  else { c with windowVisible := false, readable := ⟨a, 64⟩ :: c.readable }

/-! ### Registers, slots and memory of a state -/

/-- Block register number `k`; every command's number is below 16 (R43). -/
def State.vAt (s : State) (k : Nat) : Block := (s.v[k]?).getD 0

/-- `V[k] <- x` (R43). -/
def State.setV (s : State) (k : Nat) (x : Block) : State := { s with v := s.v.setIfInBounds k x }

/-- The registers `V[k] .. V[k+n-1]` as they are (R107). -/
def State.vGroup (s : State) (k n : Nat) : List Block := (List.range n).map fun i => s.vAt (k + i)

/-- `V[k+i] <- xs[i]` for every i (R107). -/
def State.setGroup (s : State) : Nat → List Block → State
  | _, [] => s
  | k, x :: xs => (s.setV k x).setGroup (k + 1) xs

/-- Key slot `k` (R45). -/
def State.slot (s : State) (k : SlotIx) : KeySlot := s.ks[k]

/-- `KS[k] <- x` (R45). -/
def State.setSlot (s : State) (k : SlotIx) (x : KeySlot) : State := { s with ks := s.ks.set k x }

/-- `MemRead(a, n)` on operand words (R72, R106). -/
def State.load (s : State) (a n : Word) : List Byte := s.mem.readBytes a.toNat n.toNat

/-- `MemWrite(a, len(B), B)` on an operand address (R72, R106). -/
def State.store (s : State) (a : Word) (bs : List Byte) : State :=
  { s with mem := s.mem.writeBytes a.toNat bs }

/-! ### Error stop, advance, end of a run -/

/-- R351, column code. -/
def ErrCode.code : ErrCode → BitVec 8
  | .illegal => 1
  | .platform => 2
  | .keyLen => 3
  | .key => 4
  | .arg => 5
  | .bus => 6

/-- `error_stop(code, CP)`: the hardware's exception entry (R360).  CP stays at the failing descriptor; DONE, AUTH,
registers, slots and memory keep their values. -/
def errorStop (e : ErrCode) (s : State) : State :=
  { s with err := true, errCode := e.code, errPtr := s.cp, phase := .idle }

/-- The Host's clear of an error, the first half of the hardware's trap return: a STATUS write with bit 2 = 1 clears ERR
and ERRCODE and leaves ERR_PTR (R37, R363). -/
def clearError (s : State) : State := { s with err := false, errCode := 0 }

/-- `CP <- (CP + 64) mod 2^32` (R331). -/
def advance (s : State) : State := { s with cp := s.cp + 64 }

/-- `end_run_done()` (R335). -/
def endRunDone (s : State) : State := { s with done := true, phase := .idle }

/-- The error of the first check that fails (R361). -/
def firstError : List (Bool × ErrCode) → Option ErrCode
  | [] => none
  | (failed, e) :: cs => if failed then some e else firstError cs

/-- A command (R12): the first failing check stops the run with its error and nothing else (R360); otherwise the effect,
which reads every input from the state before the command, happens and CP advances (R332). -/
def command (checks : List (Bool × ErrCode)) (effect : State → State) (s : State) :
    Host.Outcome State Fault Refusal :=
  match firstError checks with
  | some e => .next (errorStop e s)
  | none => .next (advance (effect s))

/-! ### Fetch -/

/-- The fetch at CP: an admitted descriptor is read whole and decoded (R332, R86); otherwise the error that stops the
run (R357, R353). -/
def fetch (s : State) : Except ErrCode Instr :=
  if admittedRead s.cfg s.cp.toNat 64 then
    match decode (s.mem.readBytes s.cp.toNat 64) with
    | .ok i => .ok i
    | .error _ => .error .illegal
  else .error .bus

/-! ### Reset -/

/-- The reset of the block (R400): every piece of state at its value of R50.  The engine memory and the configuration
are not part of the block (R403); the model's own fields stay. -/
def resetBlock (s : State) : State :=
  { State.reset with
    mem := s.mem, cfg := s.cfg, turns := s.turns, response := s.response, draws := s.draws }

end Sys2Proof.Machine
end

