-- ==== Sys2Proof/Machine/Flags.lean ====
section
/-! DEFINITION. The register words of the window, the STATUS and CTRL bits, and IRQ (R32 to R42). -/

namespace Sys2Proof.Machine

/-- STATUS.BUSY: 1 exactly while the phase is RUNNING (R42). -/
def State.busy (s : State) : Bool := s.phase == .running

/-- ID (R32). -/
def idWord : Word := 0x41455331

/-- CAP (R33). -/
def capWord (c : Config) : Word :=
  c.xtsMaxUnits ++ 16#8 ++ 0xF#4 ++ 0#2 ++ BitVec.ofBool c.hasCrypto ++ BitVec.ofBool c.hasCrypto

/-- What CTRL reads as: START, SRST and the reserved bits read 0 (R34). -/
def ctrlWord (s : State) : Word :=
  0#23 ++ BitVec.ofBool s.zof ++ 0#2 ++ BitVec.ofBool s.errIe ++ BitVec.ofBool s.doneIe ++ 0#4

/-- What STATUS reads as (R36). -/
def statusWord (s : State) : Word :=
  0#16 ++ s.errCode ++ 0#4 ++ BitVec.ofBool s.auth ++ BitVec.ofBool s.err ++ BitVec.ofBool s.done
    ++ BitVec.ofBool s.busy

/-- IRQ, a level function of the state (R41). -/
def irq (s : State) : Bool := (s.done && s.doneIe) || (s.err && s.errIe)

/-- A CMD_PTR value with its low 6 bits hardwired to 0 (R38). -/
def alignCp (x : Word) : Word := x &&& 0xFFFFFFC0

/-- START (R330): ignored while BUSY = 1 or ERR = 1; otherwise DONE is cleared and the Engine runs from CP.  The new run
has used no memory yet. -/
def startRun (s : State) : State :=
  if s.busy || s.err then s else { s with done := false, phase := .running, runReads := [], runWrites := [] }

/-- The fields a CTRL write updates first: DONE_IE and ERR_IE, and ZOF while BUSY = 0 (R35 step 1, R34). -/
def setCtrlBits (x : Word) (s : State) : State :=
  { s with doneIe := x.getLsbD 4, errIe := x.getLsbD 5, zof := if s.busy then s.zof else x.getLsbD 8 }

/-- A CTRL write, in the order of R35: the enables, then a soft reset (R401), otherwise START. -/
def writeCtrl (x : Word) (s : State) : State :=
  let s1 := setCtrlBits x s
  if x.getLsbD 1 && !s1.busy then resetBlock s1
  else if x.getLsbD 0 then startRun s1
  else s1

/-- A STATUS write: bit 1 clears DONE, bit 2 clears ERR and ERRCODE (R37). -/
def writeStatus (x : Word) (s : State) : State :=
  let s1 := if x.getLsbD 1 then { s with done := false } else s
  if x.getLsbD 2 then clearError s1 else s1

/-- A CMD_PTR write: ignored while BUSY = 1 (R38). -/
def writeCmdPtr (x : Word) (s : State) : State := if s.busy then s else { s with cp := alignCp x }

end Sys2Proof.Machine
end

