-- ==== Sys2Proof/Machine/Operands.lean ====
section
/-! DEFINITION. Operand forms: register groups (R107), the memory ranges of each command (R76), and the checks on them
in the order of R361. -/

namespace Sys2Proof.Machine

/-- The range that two operand words name: address and length in bytes (R106). -/
def rangeOf (a n : Word) : Range := (a.toNat, n.toNat)

/-- U = LEN / DUL, the data units of an XTS command (R290). -/
def xtsUnits (b : XtsBufs) : Nat := b.len.toNat / b.dul.toNat

/-- The reads of a GCM or OCB command that do not depend on its direction (R76). -/
def aeadReads (b : AeadBufs) : List Range := [rangeOf b.src b.len, rangeOf b.aad b.alen, rangeOf b.nonce b.nlen]

/-- The reads of an XTS command: the data, and the IV array when SEQ = 0 (R76). -/
def xtsReads (b : XtsBufs) : List Range :=
  match b.iv with
  | .array a => [rangeOf b.src b.len, (a.toNat, 16 * xtsUnits b)]
  | .seq _ => [rangeOf b.src b.len]

/-- R76, column reads: the operand bytes a command reads. -/
def readRanges : Instr → List Range
  | .nop => []
  | .halt => []
  | .kexp _ _ _ key klen => [rangeOf key klen]
  | .krk _ _ _ _ => []
  | .aese1 _ _ _ => []
  | .aese2 _ _ _ => []
  | .aese4 _ _ _ => []
  | .aese8 _ _ _ => []
  | .aesd1 _ _ _ => []
  | .aesd2 _ _ _ => []
  | .aesd4 _ _ _ => []
  | .aesd8 _ _ _ => []
  | .gmul _ _ _ => []
  | .gred4 _ _ _ => []
  | .dbl _ _ => []
  | .dblx _ _ => []
  | .dblx8 _ _ => []
  | .vinc32 _ _ => []
  | .vld _ addr => [(addr.toNat, 16)]
  | .vst _ _ => []
  | .vxor _ _ _ => []
  | .gcmEnc _ _ b => aeadReads b
  | .gcmDec _ tlen b _ => aeadReads b ++ [(b.tag.toNat, tlen.toNat)]
  | .ocbEnc _ _ b => aeadReads b
  | .ocbDec _ tlen b _ => aeadReads b ++ [(b.tag.toNat, tlen.toNat)]
  | .xtsEnc _ _ b => xtsReads b
  | .xtsDec _ _ b => xtsReads b

/-- R76, column writes: the bytes a command writes, in the order of its writes. -/
def writeRanges : Instr → List Range
  | .nop => []
  | .halt => []
  | .kexp _ _ _ _ _ => []
  | .krk _ _ _ _ => []
  | .aese1 _ _ _ => []
  | .aese2 _ _ _ => []
  | .aese4 _ _ _ => []
  | .aese8 _ _ _ => []
  | .aesd1 _ _ _ => []
  | .aesd2 _ _ _ => []
  | .aesd4 _ _ _ => []
  | .aesd8 _ _ _ => []
  | .gmul _ _ _ => []
  | .gred4 _ _ _ => []
  | .dbl _ _ => []
  | .dblx _ _ => []
  | .dblx8 _ _ => []
  | .vinc32 _ _ => []
  | .vld _ _ => []
  | .vst _ addr => [(addr.toNat, 16)]
  | .vxor _ _ _ => []
  | .gcmEnc _ tlen b => [rangeOf b.dst b.len, (b.tag.toNat, tlen.toNat)]
  | .gcmDec _ _ b res => [rangeOf b.dst b.len, (res.toNat, 4)]
  | .ocbEnc _ tlen b => [rangeOf b.dst b.len, (b.tag.toNat, tlen.toNat)]
  | .ocbDec _ _ b res => [rangeOf b.dst b.len, (res.toNat, 4)]
  | .xtsEnc _ _ b => [rangeOf b.dst b.len]
  | .xtsDec _ _ b => [rangeOf b.dst b.len]

/-- Address `a` lies in one of the ranges. -/
def inRanges (rs : List Range) (a : Nat) : Bool := rs.any fun r => decide (r.1 ≤ a) && decide (a < r.1 + r.2)

/-- Every operand range of the command is admitted (R71, R76). -/
def rangesAdmitted (c : Config) (i : Instr) : Bool :=
  (readRanges i).all (fun r => admittedRead c r.1 r.2) && (writeRanges i).all fun r => admittedWrite c r.1 r.2

/-- A group of `n` registers from `r` passes V15 (R107). -/
def pastV15 (r : VReg) (n : Nat) : Bool := decide (16 < r.val + n)

/-- E_ILLEGAL of a command with the register groups `(r, n)` (R107, R109 (d)). -/
def groupCheck (gs : List (VReg × Nat)) : Bool × ErrCode := (gs.any fun g => pastV15 g.1 g.2, .illegal)

/-- E_PLATFORM of a crypto command (R352). -/
def platformCheck (s : State) : Bool × ErrCode := (!s.cfg.hasCrypto, .platform)

/-- E_KEY: the slot bits that R355 requires are not all 1. -/
def keyCheck (bits : List Bool) : Bool × ErrCode := (!bits.all id, .key)

/-- E_BUS of a command's operand ranges (R357). -/
def busCheck (s : State) (i : Instr) : Bool × ErrCode := (!rangesAdmitted s.cfg i, .bus)

/-- TLEN is outside 1..16 (R356). -/
def badTagLen (tlen : BitVec 5) : Bool := tlen.toNat == 0 || decide (16 < tlen.toNat)

end Sys2Proof.Machine
end

