-- ==== Sys2Proof/Machine/AesCore.lean ====
section
/-! DEFINITION. The AES block transform (R140 to R150) on register values, and AESE.n and AESD.n (R151 to R159). -/

namespace Sys2Proof.Machine

/-! ### GF(2^8) and the S-boxes -/

/-- `xtime` (R141). -/
def xtime (a : Byte) : Byte := (a <<< 1) ^^^ (if a.getLsbD 7 then 0x1B else 0)

/-- `xtime^n` (R141). -/
def xtimeN : Nat → Byte → Byte
  | 0, a => a
  | n + 1, a => xtime (xtimeN n a)

/-- `a • b`: the XOR of `xtime^i(a)` over the set bits `i` of `b` (R141). -/
def gmul8 (a b : Byte) : Byte :=
  (List.range 8).foldl (fun acc i => if b.getLsbD i then acc ^^^ xtimeN i a else acc) 0

/-- SBOX, row by row (R142). -/
def sboxRows : List Block :=
  [0x637c777bf26b6fc53001672bfed7ab76, 0xca82c97dfa5947f0add4a2af9ca472c0,
   0xb7fd9326363ff7cc34a5e5f171d83115, 0x04c723c31896059a071280e2eb27b275,
   0x09832c1a1b6e5aa0523bd6b329e32f84, 0x53d100ed20fcb15b6acbbe394a4c58cf,
   0xd0efaafb434d338545f9027f503c9fa8, 0x51a3408f929d38f5bcb6da2110fff3d2,
   0xcd0c13ec5f974417c4a77e3d645d1973, 0x60814fdc222a908846eeb814de5e0bdb,
   0xe0323a0a4906245cc2d3ac629195e479, 0xe7c8376d8dd54ea96c56f4ea657aae08,
   0xba78252e1ca6b4c6e8dd741f4bbd8b8a, 0x703eb5664803f60e613557b986c11d9e,
   0xe1f8981169d98e949b1e87e9ce5528df, 0x8ca1890dbfe6426841992d0fb054bb16]

/-- INV_SBOX, row by row (R143). -/
def invSboxRows : List Block :=
  [0x52096ad53036a538bf40a39e81f3d7fb, 0x7ce339829b2fff87348e4344c4dee9cb,
   0x547b9432a6c2233dee4c950b42fac34e, 0x082ea16628d924b2765ba2496d8bd125,
   0x72f8f66486689816d4a45ccc5d65b692, 0x6c704850fdedb9da5e154657a78d9d84,
   0x90d8ab008cbcd30af7e45805b8b34506, 0xd02c1e8fca3f0f02c1afbd0301138a6b,
   0x3a9111414f67dcea97f2cfcef0b4e673, 0x96ac7422e7ad3585e2f937e81c75df6e,
   0x47f11a711d29c5896fb7620eaa18be1b, 0xfc563e4bc6d279209adbc0fe78cd5af4,
   0x1fdda8338807c731b11210592780ec5f, 0x60517fa919b54a0d2de57a9f93c99cef,
   0xa0e03b4dae2af5b0c8ebbb3c83539961, 0x172b047eba77d626e169146355210c7d]

/-- Entry `x` of a table of sixteen rows of sixteen bytes: `TABLE[16·h + l]` (R142, R143). -/
def tableByte (rows : List Block) (x : Byte) : Byte := byteOf (rows.getD (x.toNat / 16) 0) (x.toNat % 16)

/-- `SBOX[x]` (R142). -/
def sbox (x : Byte) : Byte := tableByte sboxRows x

/-- `INV_SBOX[x]` (R143). -/
def invSbox (x : Byte) : Byte := tableByte invSboxRows x

/-! ### The round functions: the state byte `s[r][c]` is byte `r + 4c` of the block (R140) -/

/-- SubBytes (R142). -/
def subBytes (s : Block) : Block := blockOfFn fun i => sbox (byteOf s i)

/-- InvSubBytes (R143). -/
def invSubBytes (s : Block) : Block := blockOfFn fun i => invSbox (byteOf s i)

/-- ShiftRows: `out[r + 4c] = in[r + 4·((c + r) mod 4)]` (R144). -/
def shiftRows (s : Block) : Block :=
  blockOfFn fun i => byteOf s (i % 4 + 4 * ((i / 4 + i % 4) % 4))

/-- InvShiftRows: `out[r + 4c] = in[r + 4·((c - r) mod 4)]` (R145). -/
def invShiftRows (s : Block) : Block :=
  blockOfFn fun i => byteOf s (i % 4 + 4 * ((i / 4 + 4 - i % 4) % 4))

/-- One output byte of a column transform whose matrix is the circulant of `(m0, m1, m2, m3)`: row `r` of the column is
`m0 • a_r ⊕ m1 • a_(r+1) ⊕ m2 • a_(r+2) ⊕ m3 • a_(r+3)`, indexes mod 4 (R146, R147). -/
def mixByte (m0 m1 m2 m3 : Byte) (s : Block) (i : Nat) : Byte :=
  let c := 4 * (i / 4)
  let r := i % 4
  gmul8 (byteOf s (r + c)) m0 ^^^ gmul8 (byteOf s ((r + 1) % 4 + c)) m1
    ^^^ gmul8 (byteOf s ((r + 2) % 4 + c)) m2 ^^^ gmul8 (byteOf s ((r + 3) % 4 + c)) m3

/-- MixColumns (R146). -/
def mixColumns (s : Block) : Block := blockOfFn (mixByte 0x02 0x03 0x01 0x01 s)

/-- InvMixColumns (R147). -/
def invMixColumns (s : Block) : Block := blockOfFn (mixByte 0x0e 0x0b 0x0d 0x09 s)

/-! ### The ciphers; AddRoundKey is XOR of register values (R148) -/

/-- Round key `r` of a schedule. -/
def roundKey (rk : Vector Block 15) (r : Nat) : Block := (rk[r]?).getD 0

/-- The state of the forward cipher after `r` full rounds (R149). -/
def encRounds (rk : Vector Block 15) (b : Block) : Nat → Block
  | 0 => b ^^^ roundKey rk 0
  | r + 1 => mixColumns (shiftRows (subBytes (encRounds rk b r))) ^^^ roundKey rk (r + 1)

/-- `AES_Enc(ERK, NR, B)` (R149). -/
def aesEnc (erk : Vector Block 15) (nr : Nat) (b : Block) : Block :=
  shiftRows (subBytes (encRounds erk b (nr - 1))) ^^^ roundKey erk nr

/-- The state of the inverse cipher after `r` full rounds (R150). -/
def decRounds (rk : Vector Block 15) (b : Block) : Nat → Block
  | 0 => b ^^^ roundKey rk 0
  | r + 1 => invMixColumns (invShiftRows (invSubBytes (decRounds rk b r))) ^^^ roundKey rk (r + 1)

/-- `AES_Dec(DRK, NR, B)`, the equivalent inverse cipher (R150). -/
def aesDec (drk : Vector Block 15) (nr : Nat) (b : Block) : Block :=
  invShiftRows (invSubBytes (decRounds drk b (nr - 1))) ^^^ roundKey drk nr

/-- `E(v)`: the forward cipher under a key slot (R230). -/
def KeySlot.enc (k : KeySlot) (b : Block) : Block := aesEnc k.erk k.nr.toNat b

/-- `D(v)`: the inverse cipher under a key slot (R260). -/
def KeySlot.dec (k : KeySlot) (b : Block) : Block := aesDec k.drk k.nr.toNat b

/-! ### The commands -/

/-- `AES_LANES(enc, n)` (R151). -/
def encLanes (n : Nat) (vd va : VReg) (ks : SlotIx) (s : State) : Host.Outcome State Fault Refusal :=
  command [groupCheck [(va, n), (vd, n)], platformCheck s, keyCheck [(s.slot ks).ev]]
    (fun s => s.setGroup vd ((s.vGroup va n).map (s.slot ks).enc)) s

/-- `AES_LANES(dec, n)` (R151). -/
def decLanes (n : Nat) (vd va : VReg) (ks : SlotIx) (s : State) : Host.Outcome State Fault Refusal :=
  command [groupCheck [(va, n), (vd, n)], platformCheck s, keyCheck [(s.slot ks).dv]]
    (fun s => s.setGroup vd ((s.vGroup va n).map (s.slot ks).dec)) s

/-- AESE.1 (R152). -/
def execAese1 (vd va : VReg) (ks : SlotIx) (s : State) : Host.Outcome State Fault Refusal := encLanes 1 vd va ks s

/-- AESE.2 (R153). -/
def execAese2 (vd va : VReg) (ks : SlotIx) (s : State) : Host.Outcome State Fault Refusal := encLanes 2 vd va ks s

/-- AESE.4 (R154). -/
def execAese4 (vd va : VReg) (ks : SlotIx) (s : State) : Host.Outcome State Fault Refusal := encLanes 4 vd va ks s

/-- AESE.8 (R155). -/
def execAese8 (vd va : VReg) (ks : SlotIx) (s : State) : Host.Outcome State Fault Refusal := encLanes 8 vd va ks s

/-- AESD.1 (R156). -/
def execAesd1 (vd va : VReg) (ks : SlotIx) (s : State) : Host.Outcome State Fault Refusal := decLanes 1 vd va ks s

/-- AESD.2 (R157). -/
def execAesd2 (vd va : VReg) (ks : SlotIx) (s : State) : Host.Outcome State Fault Refusal := decLanes 2 vd va ks s

/-- AESD.4 (R158). -/
def execAesd4 (vd va : VReg) (ks : SlotIx) (s : State) : Host.Outcome State Fault Refusal := decLanes 4 vd va ks s

/-- AESD.8 (R159). -/
def execAesd8 (vd va : VReg) (ks : SlotIx) (s : State) : Host.Outcome State Fault Refusal := decLanes 8 vd va ks s

end Sys2Proof.Machine
end

