-- ==== Sys2Proof/Machine/Aead.lean ====
section
/-! DEFINITION. What the GCM and OCB commands share: the outputs of an encryption (R238, R270) and of a decryption with
its authenticity result (R239, R271, R358). -/

namespace Sys2Proof.Machine

/-- `ct_equal(a, b)`: only its Boolean is observable (R236, R415). -/
def ctEqual (a b : List Byte) : Bool := a == b

/-- The outputs of an encryption, in order: DST, then TAG (R76, R238, R270). -/
def writeSealed (b : AeadBufs) (ct tag : List Byte) (s : State) : State :=
  (s.store b.dst ct).store b.tag tag

/-- What a decryption writes to DST: the plaintext if it is authentic or ZOF = 0, else LEN zero bytes (R239). -/
def releasedText (zof ok : Bool) (p : List Byte) (len : Nat) : List Byte :=
  if ok || !zof then p else List.replicate len 0

/-- The outputs of a decryption, in order: DST, then the result word at RES, then STATUS.AUTH (R239, R271). -/
def writeOpened (b : AeadBufs) (res : Word) (p : List Byte) (ok : Bool) (s : State) : State :=
  let s1 := s.store b.dst (releasedText s.zof ok p b.len.toNat)
  let s2 := s1.store res (wordBytes (if ok then 1 else 0))
  { s2 with auth := ok }

/-- The received tag: TLEN bytes at TAG (R239, R271). -/
def receivedTag (b : AeadBufs) (tlen : BitVec 5) (s : State) : List Byte :=
  s.mem.readBytes b.tag.toNat tlen.toNat

end Sys2Proof.Machine
end

