-- ==== Sys2Proof/Machine/Gf128.lean ====
section
/-! DEFINITION. GF(2^128): the GHASH multiply (R201, R202), the two doublings (R204) and the commands on them
(R207 to R214). -/

namespace Sys2Proof.Machine

/-! ### The field functions -/

/-- `W · X` in the GHASH convention: one step of R202's `W` (R201: X^128 is 0xE1 ‖ 0^120). -/
def mulX (w : Block) : Block :=
  if w.getLsbD 0 then (w >>> 1) ^^^ (0xE1#128 <<< 120) else w >>> 1

/-- The loop of R202 with `n` iterations left: iteration `i = 128 - n` looks at `x[127 - i] = x[n - 1]`. -/
def gfMulLoop (x : Block) : Nat → Block → Block → Block
  | 0, z, _ => z
  | n + 1, z, w => gfMulLoop x n (if x.getLsbD n then z ^^^ w else z) (mulX w)

/-- `gf_mul(x, y)` (R202). -/
def gfMul (x y : Block) : Block := gfMulLoop x 128 0 y

/-- `dbl_be`, the OCB doubling (R204). -/
def dblBe (s : Block) : Block := (s <<< 1) ^^^ (if s.getLsbD 127 then 0x87 else 0)

/-- `dbl_le`, the XTS doubling (R204). -/
def dblLe (v : Block) : Block := bswap128 (dblBe (bswap128 v))

/-- `dbl_le` applied `n` times: `dbl_le^n` (R206, R292). -/
def dblLeN : Nat → Block → Block
  | 0, v => v
  | n + 1, v => dblLeN n (dblLe v)

/-- `⊕ gf_mul(h_i, x_i)` (R211). -/
def sumOfProducts (hs xs : List Block) : Block :=
  (List.zipWith gfMul hs xs).foldl (· ^^^ ·) 0

/-! ### The commands -/

/-- A command from one register to one register (R207): `V[VD] <- f(V[VA])`. -/
def unaryBlock (f : Block → Block) (vd va : VReg) (s : State) : Host.Outcome State Fault Refusal :=
  command [platformCheck s] (fun s => s.setV vd (f (s.vAt va))) s

/-- GMUL (R210). -/
def execGmul (vd va vb : VReg) (s : State) : Host.Outcome State Fault Refusal :=
  command [platformCheck s] (fun s => s.setV vd (gfMul (s.vAt va) (s.vAt vb))) s

/-- GRED4 (R211). -/
def execGred4 (vd va vb : VReg) (s : State) : Host.Outcome State Fault Refusal :=
  command [groupCheck [(va, 4), (vb, 4)], platformCheck s]
    (fun s => s.setV vd (sumOfProducts (s.vGroup va 4) (s.vGroup vb 4))) s

/-- DBL (R212). -/
def execDbl (vd va : VReg) (s : State) : Host.Outcome State Fault Refusal := unaryBlock dblBe vd va s

/-- DBLX (R213). -/
def execDblx (vd va : VReg) (s : State) : Host.Outcome State Fault Refusal := unaryBlock dblLe vd va s

/-- DBLX8 (R214). -/
def execDblx8 (vd va : VReg) (s : State) : Host.Outcome State Fault Refusal := unaryBlock (dblLeN 8) vd va s

end Sys2Proof.Machine
end

