-- ==== Sys2Proof/Machine/Gcm.lean ====
section
/-! DEFINITION. GCM: GHASH, the counter, the keystream and the tag (R203, R231 to R236), and VINC32, GCM_ENC and
GCM_DEC (R237 to R239).  `e` is the forward cipher `E` of R230. -/

namespace Sys2Proof.Machine

/-- `GHASH_H(X)` (R203). -/
def ghash (h : Block) (xs : List Byte) : Block :=
  (chunks16 xs).foldl (fun y x => gfMul (y ^^^ beBlock x) h) 0

/-- `inc32` (R233). -/
def inc32 (v : Block) : Block := v.extractLsb' 32 96 ++ (v.extractLsb' 0 32 + 1#32)

/-- `J0(N)` (R232). -/
def gcmJ0 (h : Block) (nonce : List Byte) : Block :=
  if nonce.length = 12 then beBlock (nonce ++ [0, 0, 0, 1])
  else ghash h (pad16 nonce ++ blockBytes (BitVec.ofNat 128 (8 * nonce.length)))

/-- The keystream applied to the pieces of a byte string, the first counter block being `cb` (R234). -/
def gctrFrom (e : Block → Block) : Block → List (List Byte) → List Byte
  | _, [] => []
  | cb, x :: xs => xorBytes x (blockBytes (e cb)) ++ gctrFrom e (inc32 cb) xs

/-- `GCTR(CB_1, X)` (R234). -/
def gctr (e : Block → Block) (cb : Block) (xs : List Byte) : List Byte := gctrFrom e cb (chunks16 xs)

/-- The length block: the bit lengths of AAD and ciphertext, 64 bits big-endian each (R235). -/
def gcmLengths (aad ct : List Byte) : Block := BitVec.ofNat 64 (8 * aad.length) ++ BitVec.ofNat 64 (8 * ct.length)

/-- S of R235. -/
def gcmHash (h : Block) (aad ct : List Byte) : Block :=
  ghash h (pad16 aad ++ pad16 ct ++ blockBytes (gcmLengths aad ct))

/-- The tag of R236, cut to `tlen` bytes. -/
def gcmTag (e : Block → Block) (nonce aad ct : List Byte) (tlen : Nat) : List Byte :=
  let h := e 0
  (blockBytes (e (gcmJ0 h nonce) ^^^ gcmHash h aad ct)).take tlen

/-- The keystream pass of a command: from `inc32(J0)` (R234, R238). -/
def gcmCrypt (e : Block → Block) (nonce xs : List Byte) : List Byte :=
  gctr e (inc32 (gcmJ0 (e 0) nonce)) xs

/-- GCM encryption: ciphertext and tag (R238). -/
def gcmSeal (e : Block → Block) (p aad nonce : List Byte) (tlen : Nat) : List Byte × List Byte :=
  let c := gcmCrypt e nonce p
  (c, gcmTag e nonce aad c tlen)

/-- GCM decryption: plaintext and authenticity (R239). -/
def gcmOpen (e : Block → Block) (c aad nonce tag : List Byte) : List Byte × Bool :=
  (gcmCrypt e nonce c, ctEqual (gcmTag e nonce aad c tag.length) tag)

/-! ### The commands -/

/-- VINC32 (R237). -/
def execVinc32 (vd va : VReg) (s : State) : Host.Outcome State Fault Refusal := unaryBlock inc32 vd va s

/-- GCM_ENC (R238). -/
def execGcmEnc (ks : SlotIx) (tlen : BitVec 5) (b : AeadBufs) (s : State) : Host.Outcome State Fault Refusal :=
  command [platformCheck s, keyCheck [(s.slot ks).ev], (badTagLen tlen, .arg), busCheck s (.gcmEnc ks tlen b)]
    (fun s =>
      let r := gcmSeal (s.slot ks).enc (s.load b.src b.len) (s.load b.aad b.alen) (s.load b.nonce b.nlen) tlen.toNat
      writeSealed b r.1 r.2 s) s

/-- GCM_DEC (R239). -/
def execGcmDec (ks : SlotIx) (tlen : BitVec 5) (b : AeadBufs) (res : Word) (s : State) :
    Host.Outcome State Fault Refusal :=
  command [platformCheck s, keyCheck [(s.slot ks).ev], (badTagLen tlen, .arg), busCheck s (.gcmDec ks tlen b res)]
    (fun s =>
      let r := gcmOpen (s.slot ks).enc (s.load b.src b.len) (s.load b.aad b.alen) (s.load b.nonce b.nlen)
        (receivedTag b tlen s)
      writeOpened b res r.1 r.2 s) s

end Sys2Proof.Machine
end

