-- ==== Sys2Proof/Machine/KeySchedule.lean ====
section
/-! DEFINITION. The key schedules (R180 to R184), and KEXP and KRK (R186, R187). -/

namespace Sys2Proof.Machine

/-! ### Words of the recurrence: byte 0 of a word is its top byte, so that four words make a block by `++` -/

/-- `RotWord(a0, a1, a2, a3) = (a1, a2, a3, a0)` (R181). -/
def rotWord (w : Word) : Word := w.rotateLeft 8

/-- `SubWord` (R181). -/
def subWord (w : Word) : Word :=
  sbox (w.extractLsb' 24 8) ++ sbox (w.extractLsb' 16 8) ++ sbox (w.extractLsb' 8 8) ++ sbox (w.extractLsb' 0 8)

/-- `Rcon[j] = (RC[j], 0, 0, 0)` with `RC[1] = 0x01` and `RC[j] = xtime(RC[j-1])` (R182). -/
def rcon (j : Nat) : Word := xtimeN (j - 1) 0x01 ++ 0#24

/-- Key bytes `K[4i .. 4i+3]` in memory order (R183, R73). -/
def keyWord (key : List Byte) (i : Nat) : Word :=
  key.getD (4 * i) 0 ++ key.getD (4 * i + 1) 0 ++ key.getD (4 * i + 2) 0 ++ key.getD (4 * i + 3) 0

/-! ### Forward and inverse schedules -/

/-- `w[i]` for `i = ws.length ≥ Nk`, from the words before it (R183). -/
def nextWord (nk : Nat) (ws : List Word) : Word :=
  let i := ws.length
  let t := ws.getD (i - 1) 0
  ws.getD (i - nk) 0 ^^^
    (if i % nk = 0 then subWord (rotWord t) ^^^ rcon (i / nk)
     else if nk = 8 ∧ i % nk = 4 then subWord t
     else t)

/-- `ws` extended by `n` words of the recurrence (R183). -/
def expandWords (nk : Nat) : Nat → List Word → List Word
  | 0, ws => ws
  | n + 1, ws => expandWords nk n (ws ++ [nextWord nk ws])

/-- Nk, the key length in 32-bit words (R180). -/
def keyNk (key : List Byte) : Nat := key.length / 4

/-- NR = Nk + 6 (R180). -/
def keyNr (key : List Byte) : Nat := keyNk key + 6

/-- All `4·(NR+1)` words of the schedule (R183). -/
def scheduleWords (key : List Byte) : List Word :=
  expandWords (keyNk key) (4 * (keyNr key + 1) - keyNk key) ((List.range (keyNk key)).map (keyWord key))

/-- `ForwardSchedule(K)`, the round keys ERK[0..NR] (R183). -/
def forwardSchedule (key : List Byte) : List Block :=
  let ws := scheduleWords key
  (List.range (keyNr key + 1)).map fun r =>
    ws.getD (4 * r) 0 ++ ws.getD (4 * r + 1) 0 ++ ws.getD (4 * r + 2) 0 ++ ws.getD (4 * r + 3) 0

/-- `InverseSchedule(K)`, the round keys DRK[0..NR] (R184). -/
def inverseSchedule (key : List Byte) : List Block :=
  let erk := forwardSchedule key
  let nr := keyNr key
  (List.range (nr + 1)).map fun i =>
    if i = 0 then erk.getD nr 0
    else if i = nr then erk.getD 0 0
    else invMixColumns (erk.getD (nr - i) 0)

/-- A schedule in a slot's fifteen entries, those past it 0 (R45). -/
def slotKeys (ks : List Block) : Vector Block 15 := Vector.ofFn fun i => ks.getD i.val 0

/-- The slot that KEXP builds from a key with WE and WD (R186). -/
def buildSlot (key : List Byte) (we wd : Bool) : KeySlot :=
  if !we && !wd then KeySlot.empty
  else
    { ev := we
      dv := wd
      nk := BitVec.ofNat 4 (keyNk key)
      nr := BitVec.ofNat 4 (keyNr key)
      erk := if we then slotKeys (forwardSchedule key) else Vector.replicate 15 0
      drk := if wd then slotKeys (inverseSchedule key) else Vector.replicate 15 0 }

/-- KLEN ∉ {16, 24, 32} (R354). -/
def badKeyLen (klen : Word) : Bool := klen != 16 && klen != 24 && klen != 32

/-! ### The commands -/

/-- KEXP (R186). -/
def execKexp (ks : SlotIx) (we wd : Bool) (key klen : Word) (s : State) : Host.Outcome State Fault Refusal :=
  command [platformCheck s, (badKeyLen klen, .keyLen), busCheck s (.kexp ks we wd key klen)]
    (fun s => s.setSlot ks (buildSlot (s.load key klen) we wd)) s

/-- The valid bit of the direction a KRK selector names (R187). -/
def dirValid (k : KeySlot) : Dir → Bool
  | .forward => k.ev
  | .inverse => k.dv

/-- The schedule a KRK selector names (R187). -/
def dirKeys (k : KeySlot) : Dir → Vector Block 15
  | .forward => k.erk
  | .inverse => k.drk

/-- KRK (R187). -/
def execKrk (vd : VReg) (ks : SlotIx) (dir : Dir) (j : Fin 16) (s : State) : Host.Outcome State Fault Refusal :=
  command
    [platformCheck s, keyCheck [dirValid (s.slot ks) dir], (decide ((s.slot ks).nr.toNat < j.val), .arg)]
    (fun s => s.setV vd (roundKey (dirKeys (s.slot ks) dir) j.val)) s

end Sys2Proof.Machine
end

