-- ==== Sys2Proof/Machine/MoveControl.lean ====
section
/-! DEFINITION. Data movement and list control: VLD, VST, VXOR, NOP and HALT (R320 to R325). -/

namespace Sys2Proof.Machine

/-- NOP (R324). -/
def execNop (s : State) : Host.Outcome State Fault Refusal := command [] id s

/-- HALT (R325). -/
def execHalt (s : State) : Host.Outcome State Fault Refusal := command [] endRunDone s

/-- VLD (R320). -/
def execVld (vd : VReg) (addr : Word) (s : State) : Host.Outcome State Fault Refusal :=
  command [busCheck s (.vld vd addr)] (fun s => s.setV vd (beBlock (s.load addr 16))) s

/-- VST (R321). -/
def execVst (va : VReg) (addr : Word) (s : State) : Host.Outcome State Fault Refusal :=
  command [busCheck s (.vst va addr)] (fun s => s.store addr (blockBytes (s.vAt va))) s

/-- VXOR (R322). -/
def execVxor (vd va vb : VReg) (s : State) : Host.Outcome State Fault Refusal :=
  command [] (fun s => s.setV vd (s.vAt va ^^^ s.vAt vb)) s

end Sys2Proof.Machine
end

