-- ==== Sys2Proof/Machine/Ocb.lean ====
section
/-! DEFINITION. OCB: the L-table, Offset_0, HASH and the two data paths (R261 to R266), and OCB_ENC and OCB_DEC (R270,
R271).  `e` and `d` are the ciphers `E` and `D` of R260. -/

namespace Sys2Proof.Machine

/-- `ntz` with a bound on the bits looked at. -/
def ntzUpTo : Nat → Nat → Nat
  | 0, _ => 0
  | fuel + 1, i => if i % 2 = 1 then 0 else 1 + ntzUpTo fuel (i / 2)

/-- `ntz(i)` for `i ≥ 1` (R261). -/
def ntz (i : Nat) : Nat := ntzUpTo i i

/-- `L*` (R262). -/
def lStar (e : Block → Block) : Block := e 0

/-- `L$` (R262). -/
def lDollar (e : Block → Block) : Block := dblBe (lStar e)

/-- `L_i` (R262). -/
def lTable (e : Block → Block) : Nat → Block
  | 0 => dblBe (lDollar e)
  | i + 1 => dblBe (lTable e i)

/-- The 128-bit `Nonce` of R263. -/
def ocbNonce (nonce : List Byte) (tlen : Nat) : Block :=
  (BitVec.ofNat 128 (8 * tlen % 128) <<< 121) ||| (1#128 <<< (8 * nonce.length)) ||| beBlock nonce

/-- `Stretch` (R263). -/
def ocbStretch (ktop : Block) : BitVec 192 := ktop ++ (ktop.extractLsb' 64 64 ^^^ ktop.extractLsb' 56 64)

/-- `Offset0(N, TLEN)` (R263). -/
def ocbOffset0 (e : Block → Block) (nonce : List Byte) (tlen : Nat) : Block :=
  let n := ocbNonce nonce tlen
  let bottom := (n.extractLsb' 0 6).toNat
  (ocbStretch (e (n &&& ~~~0x3F#128)) >>> (64 - bottom)).setWidth 128

/-- The loop of HASH (R264) on the pieces of A, the next full block having index `i`. -/
def ocbHashFrom (e : Block → Block) : Nat → Block → Block → List (List Byte) → Block
  | _, _, sum, [] => sum
  | i, off, sum, x :: xs =>
    if x.length = 16 then
      let off := off ^^^ lTable e (ntz i)
      ocbHashFrom e (i + 1) off (sum ^^^ e (beBlock x ^^^ off)) xs
    else sum ^^^ e (beBlock (pad80 x) ^^^ (off ^^^ lStar e))

/-- `HASH(A)` (R264). -/
def ocbHash (e : Block → Block) (aad : List Byte) : Block := ocbHashFrom e 1 0 0 (chunks16 aad)

/-- The loop of R265: output, last offset and checksum from the pieces of P, the next full block having index `i`. -/
def ocbEncFrom (e : Block → Block) : Nat → Block → Block → List (List Byte) → List Byte × Block × Block
  | _, off, chk, [] => ([], off, chk)
  | i, off, chk, x :: xs =>
    if x.length = 16 then
      let off := off ^^^ lTable e (ntz i)
      let r := ocbEncFrom e (i + 1) off (chk ^^^ beBlock x) xs
      (blockBytes (off ^^^ e (beBlock x ^^^ off)) ++ r.1, r.2)
    else
      let off := off ^^^ lStar e
      (xorBytes x (blockBytes (e off)), off, chk ^^^ beBlock (pad80 x))

/-- The loop of R266; the checksum covers the recovered plaintext. -/
def ocbDecFrom (e d : Block → Block) : Nat → Block → Block → List (List Byte) → List Byte × Block × Block
  | _, off, chk, [] => ([], off, chk)
  | i, off, chk, x :: xs =>
    if x.length = 16 then
      let off := off ^^^ lTable e (ntz i)
      let p := off ^^^ d (beBlock x ^^^ off)
      let r := ocbDecFrom e d (i + 1) off (chk ^^^ p) xs
      (blockBytes p ++ r.1, r.2)
    else
      let off := off ^^^ lStar e
      let p := xorBytes x (blockBytes (e off))
      (p, off, chk ^^^ beBlock (pad80 p))

/-- The tag of R265, cut to `tlen` bytes. -/
def ocbTag (e : Block → Block) (off chk : Block) (aad : List Byte) (tlen : Nat) : List Byte :=
  (blockBytes (e (chk ^^^ off ^^^ lDollar e) ^^^ ocbHash e aad)).take tlen

/-- `OCB_ENCRYPT(P, A, N, TLEN)` (R265). -/
def ocbSeal (e : Block → Block) (p aad nonce : List Byte) (tlen : Nat) : List Byte × List Byte :=
  let r := ocbEncFrom e 1 (ocbOffset0 e nonce tlen) 0 (chunks16 p)
  (r.1, ocbTag e r.2.1 r.2.2 aad tlen)

/-- OCB decryption: plaintext and authenticity (R266). -/
def ocbOpen (e d : Block → Block) (c aad nonce tag : List Byte) : List Byte × Bool :=
  let r := ocbDecFrom e d 1 (ocbOffset0 e nonce tag.length) 0 (chunks16 c)
  (r.1, ctEqual (ocbTag e r.2.1 r.2.2 aad tag.length) tag)

/-! ### The commands -/

/-- E_ARG of an OCB command: TLEN ∉ 1..16 or NLEN > 15 (R356). -/
def ocbArgCheck (tlen : BitVec 5) (b : AeadBufs) : Bool × ErrCode :=
  (badTagLen tlen || decide (15 < b.nlen.toNat), .arg)

/-- OCB_ENC (R270). -/
def execOcbEnc (ks : SlotIx) (tlen : BitVec 5) (b : AeadBufs) (s : State) : Host.Outcome State Fault Refusal :=
  command [platformCheck s, keyCheck [(s.slot ks).ev], ocbArgCheck tlen b, busCheck s (.ocbEnc ks tlen b)]
    (fun s =>
      let r := ocbSeal (s.slot ks).enc (s.load b.src b.len) (s.load b.aad b.alen) (s.load b.nonce b.nlen) tlen.toNat
      writeSealed b r.1 r.2 s) s

/-- OCB_DEC (R271). -/
def execOcbDec (ks : SlotIx) (tlen : BitVec 5) (b : AeadBufs) (res : Word) (s : State) :
    Host.Outcome State Fault Refusal :=
  command
    [platformCheck s, keyCheck [(s.slot ks).ev, (s.slot ks).dv], ocbArgCheck tlen b, busCheck s (.ocbDec ks tlen b res)]
    (fun s =>
      let r := ocbOpen (s.slot ks).enc (s.slot ks).dec (s.load b.src b.len) (s.load b.aad b.alen)
        (s.load b.nonce b.nlen) (receivedTag b tlen s)
      writeOpened b res r.1 r.2 s) s

end Sys2Proof.Machine
end

