-- ==== Sys2Proof/Machine/Xts.lean ====
section
/-! DEFINITION. XTS: IVs, tweaks, the XEX step and ciphertext stealing (R291 to R296), and XTS_ENC and XTS_DEC (R298,
R299). -/

namespace Sys2Proof.Machine

/-- The register value of `IV_u` (R291). -/
def xtsIv (m : Memory) (iv : XtsIv) (u : Nat) : Block :=
  match iv with
  | .array a => beBlock (m.readBytes (a.toNat + 16 * u) 16)
  | .seq n => beBlock (le64Bytes (n + BitVec.ofNat 64 u) ++ List.replicate 8 0)

/-- `T_{u,0} .. T_{u,n}` from `T_{u,0}` (R292). -/
def tweaks : Nat → Block → List Block
  | 0, t => [t]
  | n + 1, t => t :: tweaks n (dblLe t)

/-- One XEX step under the cipher `f`: XE for the forward cipher, XD for the inverse one (R293). -/
def xex (f : Block → Block) (t : Block) (x : List Byte) : List Byte := blockBytes (f (beBlock x ^^^ t) ^^^ t)

/-- Block `j` of a data unit (R294). -/
def unitBlock (x : List Byte) (j : Nat) : List Byte := (x.drop (16 * j)).take 16

/-- The first `n` blocks of a data unit, each through XEX with its own tweak (R294, R295). -/
def xexBlocks (f : Block → Block) (ts : List Block) (x : List Byte) (n : Nat) : List Byte :=
  (List.range n).flatMap fun j => xex f (ts.getD j 0) (unitBlock x j)

/-- `XTS_ENC_UNIT(P, T)` (R294). -/
def xtsEncUnit (e : Block → Block) (ts : List Block) (p : List Byte) : List Byte :=
  let m := p.length / 16
  let b := p.length % 16
  if b = 0 then xexBlocks e ts p m
  else
    let cc := xex e (ts.getD (m - 1) 0) (unitBlock p (m - 1))
    xexBlocks e ts p (m - 1) ++ xex e (ts.getD m 0) (p.drop (16 * m) ++ cc.drop b) ++ cc.take b

/-- `XTS_DEC_UNIT(C, T)`: the tweaks of the last two blocks are swapped (R295). -/
def xtsDecUnit (d : Block → Block) (ts : List Block) (c : List Byte) : List Byte :=
  let m := c.length / 16
  let b := c.length % 16
  if b = 0 then xexBlocks d ts c m
  else
    let pp := xex d (ts.getD m 0) (unitBlock c (m - 1))
    xexBlocks d ts c (m - 1) ++ xex d (ts.getD (m - 1) 0) (c.drop (16 * m) ++ pp.drop b) ++ pp.take b

/-- A buffer of `n` data units of `dul` bytes, unit `u` with the tweak that `tweak0 u` starts (R296, R298). -/
def xtsBuffer (unit : List Block → List Byte → List Byte) (tweak0 : Nat → Block) (dul n : Nat) (x : List Byte) :
    List Byte :=
  (List.range n).flatMap fun u => unit (tweaks (dul / 16) (tweak0 u)) ((x.drop (u * dul)).take dul)

/-! ### The commands -/

/-- E_ARG of an XTS command (R290, R356). -/
def xtsArgCheck (k1 k2 : KeySlot) (b : XtsBufs) (s : State) : Bool × ErrCode :=
  (decide (b.dul.toNat < 16) || b.len.toNat % b.dul.toNat != 0 || decide (s.cfg.xtsMaxUnits.toNat < xtsUnits b)
    || k1.nk != k2.nk || (k1.nk != 4 && k1.nk != 8), .arg)

/-- The effect of an XTS command: DST gets the data, unit by unit (R296, R298, R299). -/
def xtsApply (unit : List Block → List Byte → List Byte) (kt : KeySlot) (b : XtsBufs) (s : State) : State :=
  s.store b.dst (xtsBuffer unit (fun u => kt.enc (xtsIv s.mem b.iv u)) b.dul.toNat (xtsUnits b) (s.load b.src b.len))

/-- XTS_ENC (R298). -/
def execXtsEnc (ks kt : SlotIx) (b : XtsBufs) (s : State) : Host.Outcome State Fault Refusal :=
  command
    [platformCheck s, keyCheck [(s.slot ks).ev, (s.slot kt).ev], xtsArgCheck (s.slot ks) (s.slot kt) b s,
      busCheck s (.xtsEnc ks kt b)]
    (fun s => xtsApply (xtsEncUnit (s.slot ks).enc) (s.slot kt) b s) s

/-- XTS_DEC (R299). -/
def execXtsDec (ks kt : SlotIx) (b : XtsBufs) (s : State) : Host.Outcome State Fault Refusal :=
  command
    [platformCheck s, keyCheck [(s.slot ks).dv, (s.slot kt).ev], xtsArgCheck (s.slot ks) (s.slot kt) b s,
      busCheck s (.xtsDec ks kt b)]
    (fun s => xtsApply (xtsDecUnit (s.slot ks).dec) (s.slot kt) b s) s

end Sys2Proof.Machine
end

