-- ==== Sys2Proof/Machine/Dispatch.lean ====
section
/-! DEFINITION. `execute(w)` of R332 on a decoded command: one arm per constructor, each one call of its meaning. -/

namespace Sys2Proof.Machine

def exec (i : Instr) (s : State) : Host.Outcome State Fault Refusal :=
  match i with
  | .nop => Sys2Proof.Machine.execNop s
  | .halt => Sys2Proof.Machine.execHalt s
  | .kexp ks we wd key klen => Sys2Proof.Machine.execKexp ks we wd key klen s
  | .krk vd ks dir j => Sys2Proof.Machine.execKrk vd ks dir j s
  | .aese1 vd va ks => Sys2Proof.Machine.execAese1 vd va ks s
  | .aese2 vd va ks => Sys2Proof.Machine.execAese2 vd va ks s
  | .aese4 vd va ks => Sys2Proof.Machine.execAese4 vd va ks s
  | .aese8 vd va ks => Sys2Proof.Machine.execAese8 vd va ks s
  | .aesd1 vd va ks => Sys2Proof.Machine.execAesd1 vd va ks s
  | .aesd2 vd va ks => Sys2Proof.Machine.execAesd2 vd va ks s
  | .aesd4 vd va ks => Sys2Proof.Machine.execAesd4 vd va ks s
  | .aesd8 vd va ks => Sys2Proof.Machine.execAesd8 vd va ks s
  | .gmul vd va vb => Sys2Proof.Machine.execGmul vd va vb s
  | .gred4 vd va vb => Sys2Proof.Machine.execGred4 vd va vb s
  | .dbl vd va => Sys2Proof.Machine.execDbl vd va s
  | .dblx vd va => Sys2Proof.Machine.execDblx vd va s
  | .dblx8 vd va => Sys2Proof.Machine.execDblx8 vd va s
  | .vinc32 vd va => Sys2Proof.Machine.execVinc32 vd va s
  | .vld vd addr => Sys2Proof.Machine.execVld vd addr s
  | .vst va addr => Sys2Proof.Machine.execVst va addr s
  | .vxor vd va vb => Sys2Proof.Machine.execVxor vd va vb s
  | .gcmEnc ks tlen b => Sys2Proof.Machine.execGcmEnc ks tlen b s
  | .gcmDec ks tlen b res => Sys2Proof.Machine.execGcmDec ks tlen b res s
  | .ocbEnc ks tlen b => Sys2Proof.Machine.execOcbEnc ks tlen b s
  | .ocbDec ks tlen b res => Sys2Proof.Machine.execOcbDec ks tlen b res s
  | .xtsEnc ks kt b => Sys2Proof.Machine.execXtsEnc ks kt b s
  | .xtsDec ks kt b => Sys2Proof.Machine.execXtsDec ks kt b s

end Sys2Proof.Machine
end

