-- ==== Sys2Proof/Machine/Run.lean ====
section
/-! DEFINITION. The Engine step (R332), the memory that a run reads and writes (R76), and the rest of a run (R334). -/

namespace Sys2Proof.Machine

/-! ### The Engine step -/

/-- What the fetch at `s` reads: the descriptor, when it is admitted (R76, R332). -/
def fetchRanges (s : State) : List Range := if admittedRead s.cfg s.cp.toNat 64 then [(s.cp.toNat, 64)] else []

/-- `t`, the state after a step from `s`, with the fetch noted among the reads of the run. -/
def noteFetch (s t : State) : State := { t with runReads := fetchRanges s ++ t.runReads }

/-- `t`, the state after command `i`, with the command's ranges noted (R76).  A command that stops the run reads and
writes no operand: it is HALT, or it raised an error (R360). -/
def noteCommand (i : Instr) (t : State) : State :=
  match t.phase with
  | .idle => t
  | .running => { t with runReads := readRanges i ++ t.runReads, runWrites := writeRanges i ++ t.runWrites }

/-- `engine_step()` (R332).  In IDLE the Engine fetches nothing and executes nothing (R42). -/
def engineStep (s : State) : Host.Outcome State Fault Refusal :=
  match s.phase with
  | .idle => .next s
  | .running =>
    match fetch s with
    | .ok i =>
      match exec i s with
      | .next t => .next (noteFetch s (noteCommand i t))
      | .fault f => .fault f
      | .refused r => .refused r
    | .error e => .next (noteFetch s (errorStop e s))

/-! ### The rest of a run

No Host access changes what a running Engine does, but for a write that breaks R83 duty 2, so the rest of a run is its
Engine steps alone. -/

/-- One Engine step; every one answers a next state. -/
def runOne (s : State) : State :=
  match engineStep s with
  | .next t => t
  | .fault _ => s
  | .refused _ => s

/-- `2^k` Engine steps, fewer when the run ends before. -/
def runPow : Nat → State → State
  | 0, s => runOne s
  | k + 1, s =>
    let t := runPow k s
    match t.phase with
    | .idle => t
    | .running => runPow k t

/-- `2^k + 2^(k+1) + …`, `n` summands, Engine steps, fewer when the run ends before. -/
def runFrom : Nat → Nat → State → State
  | 0, _, s => s
  | n + 1, k, s =>
    let t := runPow k s
    match t.phase with
    | .idle => t
    | .running => runFrom n (k + 1) t

/-- The exponent of a number of Engine steps within which every run ends or repeats a state: block and memory have
fewer than `2^(2^36)` states (log entry 14). -/
def runLevels : Nat := 68719476736

/-- The state in which the run that goes on from `s` ends, or one after all the steps it repeats for ever (R334). -/
def wholeRun (s : State) : State := runFrom runLevels 0 s

/-- The run that goes on at `s` writes the byte at `a`: it has, or it will (R82).  DESIGN CHOICE (log entry 19, safe): the
run is taken as not cut by a later power-on reset. -/
def writtenByRun (s : State) (a : Nat) : Bool := inRanges (wholeRun s).runWrites a

/-- The run that goes on at `s` reads or writes the byte at `a`, the descriptors still to be fetched included (R83).
DESIGN CHOICE (log entry 19, safe): the run is taken as not cut by a later power-on reset, so that a byte which it would
use only after such a reset is a byte of the run. -/
def usedByRun (s : State) (a : Nat) : Bool :=
  inRanges (wholeRun s).runReads a || inRanges (wholeRun s).runWrites a

end Sys2Proof.Machine
end

