-- ==== Sys2Proof/Machine/HostPort.lean ====
section
/-! DEFINITION. The Host's accesses to the register window (R31 to R40) and to the engine memory (R82, R83): what each
reads, writes and is answered. -/

namespace Sys2Proof.Machine

/-- Only 32-bit accesses at 4-byte-aligned offsets are defined (R31). -/
def goodAccess (off : BitVec 8) (width : AccessWidth) : Bool := width == .word && off.toNat % 4 == 0

/-- The value of the register at offset `off`; reserved offsets read 0 (R31 to R40). -/
def readReg (s : State) (off : BitVec 8) : Word :=
  if off = 0x00 then idWord
  else if off = 0x04 then capWord s.cfg
  else if off = 0x08 then ctrlWord s
  else if off = 0x0C then statusWord s
  else if off = 0x10 then s.cp
  else if off = 0x14 then s.errPtr
  else 0

/-- A write of `x` to the register at offset `off`; ID, CAP, ERR_PTR and reserved offsets ignore it (R31 to R40). -/
def writeReg (off : BitVec 8) (x : Word) (s : State) : State :=
  if off = 0x08 then writeCtrl x s
  else if off = 0x0C then writeStatus x s
  else if off = 0x10 then writeCmdPtr x s
  else s

/-- A Host read of the window: it has no side effect on the block; any other access than a 32-bit aligned one is
answered with a bus error (R31, S6). -/
def hostRegRead (off : BitVec 8) (width : AccessWidth) (s : State) : State :=
  { s with response := some (if goodAccess off width then .reg (readReg s off) else .busError) }

/-- A Host write to the window (R31, S6). -/
def hostRegWrite (off : BitVec 8) (width : AccessWidth) (x : Word) (s : State) : State :=
  if goodAccess off width then { writeReg off x s with response := some .done }
  else { s with response := some .busError }

/-- A Host read of a byte of engine memory: the byte, but a free value while the Engine runs, for a byte that the run
writes (R82, S1).  A byte access to the register window, where that is visible, is answered with a bus error
(R31, R78; DEDUCED, log entry 9). -/
def hostMemRead (a : Word) (s : State) : State :=
  if inWindow s.cfg a.toNat then { s with response := some .busError }
  else if s.busy && writtenByRun s a.toNat then
    { s with response := some (.byte (Config.freeByte s.draws)), draws := s.draws + 1 }
  else { s with response := some (.byte (s.mem.read a.toNat)) }

/-- The Host's write of the byte at `a` breaks R83 duty 2: the Engine runs, and the run reads or writes that byte.  A run
uses no byte of the window, where that is visible (R71, log entry 9). -/
def breaksHostDuty (a : Word) (s : State) : Bool := s.busy && !inWindow s.cfg a.toNat && usedByRun s a.toNat

/-- A Host write of a byte of engine memory (R30, R80), or to the register window as `hostMemRead`. -/
def hostMemWrite (a : Word) (b : Byte) (s : State) : State :=
  if inWindow s.cfg a.toNat then { s with response := some .busError }
  else { s with mem := s.mem.write a.toNat b, response := some .done }

end Sys2Proof.Machine
end

