-- ==== Sys2Proof/Machine/Engine.lean ====
section
/-! DEFINITION. The reset input, also during a run (R400, R402), and the taking of one turn (R333). -/

namespace Sys2Proof.Machine

/-- The memory after an interrupted command that would have turned `old` into `new`: at each address the byte that
`holdsNew` picks (R402).  Addresses that neither memory lists read the same in both. -/
def tornMemory (holdsNew : Nat → Bool) (old new : Memory) : Memory :=
  ((old ++ new).map Prod.fst).foldl (fun m a => m.write a (if holdsNew a then new.read a else old.read a)) old

/-- The engine memory after the reset input: unchanged in IDLE; while RUNNING, the bytes that the command at CP would
have written hold their old or their new value, a free choice for each (R402, S4). -/
def memoryAtPowerOn (s : State) : Memory :=
  match s.phase with
  | .idle => s.mem
  | .running =>
    match engineStep s with
    | .next t => tornMemory (Config.freeNew s.draws) s.mem t.mem
    | .fault _ => s.mem
    | .refused _ => s.mem

/-- The reset input is asserted (R400, R402). -/
def powerOnReset (s : State) : State :=
  { resetBlock s with mem := memoryAtPowerOn s, draws := s.draws + 1 }

/-- One turn (R333).  A Host write, while the Engine runs, to a byte that the run reads or writes breaks R83 duty 2, and
the model makes no claim about such a run (S2 `refuse`, log entry 6). -/
def takeTurn (t : Turn) (s : State) : Host.Outcome State Fault Refusal :=
  match t with
  | .engine => engineStep s
  | .regRead off width => .next (hostRegRead off width s)
  | .regWrite off width x => .next (hostRegWrite off width x s)
  | .memRead a => .next (hostMemRead a s)
  | .memWrite a b =>
    if breaksHostDuty a s then .refused .hostWriteDuringRun else .next (hostMemWrite a b s)
  | .powerOn => .next (powerOnReset s)

/-- `s` with the run begun that executes the descriptor `bytes`, placed at CP, next: what START does (R330) with ERR
clear, no input pending, the descriptor in memory and its fetch admitted. -/
def withDescriptor (s : State) (bytes : List Byte) : State :=
  let cp := alignCp s.cp
  { s with
    cp := cp, phase := .running, done := false, err := false, errCode := 0, turns := [], runReads := [], runWrites := []
    mem := s.mem.writeBytes cp.toNat bytes
    cfg := cfgWithFetchAt s.cfg cp.toNat }

end Sys2Proof.Machine
end

