-- ==== Sys2Proof/Machine/Step.lean ====
section
/-! DEFINITION. The step of the machine (R333): the next input that is pending, or else the Engine. -/

namespace Sys2Proof.Machine

/-- One transition: the first pending turn; with none pending, the Engine (R332, R333). -/
def step (s : State) : Host.Outcome State Fault Refusal :=
  match s.turns with
  | [] => engineStep s
  | t :: ts => takeTurn t { s with turns := ts }

/-- `s` with the opcode-table word `w` of `nbits` bits as the descriptor that the next step fetches and runs. -/
def State.withFetchWord (s : State) (nbits w : Nat) : State := withDescriptor s (tableWordBytes nbits w)

end Sys2Proof.Machine
end

