-- ==== Sys2Proof/Safety.lean ====
section
/-! DEFINITION. The terms in which claims speak of a run: the opcode table, the class of a command, the error it
raises, what it may change, and the invariant of the machine. -/

namespace Sys2Proof

/-! ### The opcode table -/

/-- One row of spec/opcode_table.json: a header `h` belongs to it when `h &&& mask = bits`. -/
structure TableRow where
  mnemonic : String
  bits : Word
  mask : Word
deriving DecidableEq, Repr

/-- The row of a command in spec/opcode_table.json. -/
def Instr.row : Instr → TableRow
  | .nop => ⟨"NOP", 0x00000000, 0xFFFFFFFF⟩
  | .halt => ⟨"HALT", 0x00000001, 0xFFFFFFFF⟩
  | .kexp _ _ _ _ _ => ⟨"KEXP", 0x00000008, 0xFF9FF0FF⟩
  | .krk _ _ _ _ => ⟨"KRK", 0x00000009, 0xFF0FF0FF⟩
  | .aese1 _ _ _ => ⟨"AESE.1", 0x00000010, 0xFF0F00FF⟩
  | .aese2 _ _ _ => ⟨"AESE.2", 0x01000010, 0xFF0F00FF⟩
  | .aese4 _ _ _ => ⟨"AESE.4", 0x02000010, 0xFF0F00FF⟩
  | .aese8 _ _ _ => ⟨"AESE.8", 0x03000010, 0xFF0F00FF⟩
  | .aesd1 _ _ _ => ⟨"AESD.1", 0x00000011, 0xFF0F00FF⟩
  | .aesd2 _ _ _ => ⟨"AESD.2", 0x01000011, 0xFF0F00FF⟩
  | .aesd4 _ _ _ => ⟨"AESD.4", 0x02000011, 0xFF0F00FF⟩
  | .aesd8 _ _ _ => ⟨"AESD.8", 0x03000011, 0xFF0F00FF⟩
  | .gmul _ _ _ => ⟨"GMUL", 0x00000018, 0xFFF000FF⟩
  | .gred4 _ _ _ => ⟨"GRED4", 0x00000019, 0xFFF000FF⟩
  | .dbl _ _ => ⟨"DBL", 0x0000001A, 0xFFFF00FF⟩
  | .dblx _ _ => ⟨"DBLX", 0x0000001B, 0xFFFF00FF⟩
  | .dblx8 _ _ => ⟨"DBLX8", 0x0000001C, 0xFFFF00FF⟩
  | .vinc32 _ _ => ⟨"VINC32", 0x0000001D, 0xFFFF00FF⟩
  | .vld _ _ => ⟨"VLD", 0x00000020, 0xFFFFF0FF⟩
  | .vst _ _ => ⟨"VST", 0x00000021, 0xFFFF0FFF⟩
  | .vxor _ _ _ => ⟨"VXOR", 0x00000022, 0xFFF000FF⟩
  | .gcmEnc _ _ _ => ⟨"GCM_ENC", 0x00000030, 0xFFE0F0FF⟩
  | .gcmDec _ _ _ _ => ⟨"GCM_DEC", 0x00000031, 0xFFE0F0FF⟩
  | .ocbEnc _ _ _ => ⟨"OCB_ENC", 0x00000032, 0xFFE0F0FF⟩
  | .ocbDec _ _ _ _ => ⟨"OCB_DEC", 0x00000033, 0xFFE0F0FF⟩
  | .xtsEnc _ _ _ => ⟨"XTS_ENC", 0x00000034, 0xFFDF00FF⟩
  | .xtsDec _ _ _ => ⟨"XTS_DEC", 0x00000035, 0xFFDF00FF⟩

/-- One term of every row, in the order of the table; operands play no part in a row. -/
def opcodeRows : List TableRow :=
  let b : AeadBufs := ⟨0, 0, 0, 0, 0, 0, 0, 0⟩
  let x : XtsBufs := ⟨0, 0, 0, 0, .seq 0⟩
  ([.nop, .halt, .kexp 0 false false 0 0, .krk 0 0 .forward 0, .aese1 0 0 0, .aese2 0 0 0, .aese4 0 0 0, .aese8 0 0 0,
    .aesd1 0 0 0, .aesd2 0 0 0, .aesd4 0 0 0, .aesd8 0 0 0, .gmul 0 0 0, .gred4 0 0 0, .dbl 0 0, .dblx 0 0, .dblx8 0 0,
    .vinc32 0 0, .vld 0 0, .vst 0 0, .vxor 0 0 0, .gcmEnc 0 0 b, .gcmDec 0 0 b 0, .ocbEnc 0 0 b, .ocbDec 0 0 b 0,
    .xtsEnc 0 0 x, .xtsDec 0 0 x] : List Instr).map Instr.row

/-- R106: the operand words that a command looks at, by its opcode and its header (the SEQ flag of XTS). -/
def usedWords (o : Opcode) (h : Word) : List Nat :=
  match o with
  | .krk | .vld | .vst => [1]
  | .kexp => [1, 2]
  | .gcmEnc | .ocbEnc => [1, 2, 3, 4, 5, 6, 7, 8]
  | .gcmDec | .ocbDec => [1, 2, 3, 4, 5, 6, 7, 8, 9]
  | .xtsEnc | .xtsDec => if h.getLsbD 21 then [1, 2, 3, 7, 10, 11] else [1, 2, 3, 6, 7]
  | .nop | .halt | .aese | .aesd | .gmul | .gred4 | .dbl | .dblx | .dblx8 | .vinc32 | .vxor => []

namespace Machine

/-! ### The error of a command -/

/-- The crypto commands: those that R351 lists for E_PLATFORM. -/
def isCrypto : Instr → Bool
  | .nop | .halt | .vld _ _ | .vst _ _ | .vxor _ _ _ => false
  | .kexp _ _ _ _ _ | .krk _ _ _ _ | .aese1 _ _ _ | .aese2 _ _ _ | .aese4 _ _ _ | .aese8 _ _ _
  | .aesd1 _ _ _ | .aesd2 _ _ _ | .aesd4 _ _ _ | .aesd8 _ _ _ | .gmul _ _ _ | .gred4 _ _ _
  | .dbl _ _ | .dblx _ _ | .dblx8 _ _ | .vinc32 _ _ | .gcmEnc _ _ _ | .gcmDec _ _ _ _
  | .ocbEnc _ _ _ | .ocbDec _ _ _ _ | .xtsEnc _ _ _ | .xtsDec _ _ _ => true

/-- R355: the slot bits that a command needs. -/
def requiredKeys (i : Instr) (s : State) : List Bool :=
  match i with
  | .aese1 _ _ ks | .aese2 _ _ ks | .aese4 _ _ ks | .aese8 _ _ ks => [(s.slot ks).ev]
  | .aesd1 _ _ ks | .aesd2 _ _ ks | .aesd4 _ _ ks | .aesd8 _ _ ks => [(s.slot ks).dv]
  | .krk _ ks .forward _ => [(s.slot ks).ev]
  | .krk _ ks .inverse _ => [(s.slot ks).dv]
  | .gcmEnc ks _ _ | .gcmDec ks _ _ _ | .ocbEnc ks _ _ => [(s.slot ks).ev]
  | .ocbDec ks _ _ _ => [(s.slot ks).ev, (s.slot ks).dv]
  | .xtsEnc ks kt _ => [(s.slot ks).ev, (s.slot kt).ev]
  | .xtsDec ks kt _ => [(s.slot ks).dv, (s.slot kt).ev]
  | .nop | .halt | .kexp _ _ _ _ _ | .gmul _ _ _ | .gred4 _ _ _ | .dbl _ _ | .dblx _ _ | .dblx8 _ _
  | .vinc32 _ _ | .vld _ _ | .vst _ _ | .vxor _ _ _ => []

/-- A tag length outside 1 .. 16 (R356). -/
def TagLenBad (tlen : BitVec 5) : Prop := tlen.toNat = 0 ∨ 16 < tlen.toNat

/-- The XTS argument errors of R356, in its words. -/
def XtsArgBad (k1 k2 : KeySlot) (c : Config) (b : XtsBufs) : Prop :=
  b.dul.toNat < 16 ∨ b.len.toNat % b.dul.toNat ≠ 0 ∨ c.xtsMaxUnits.toNat < b.len.toNat / b.dul.toNat
    ∨ k1.nk ≠ k2.nk ∨ (k1.nk ≠ 4 ∧ k1.nk ≠ 8)

/-- R354 and R356: an operand value of the command is outside its legal range. -/
def ArgBad (i : Instr) (s : State) : Prop :=
  match i with
  | .kexp _ _ _ _ klen => klen ≠ 16 ∧ klen ≠ 24 ∧ klen ≠ 32
  | .krk _ ks _ j => (s.slot ks).nr.toNat < j.val
  | .gcmEnc _ tlen _ | .gcmDec _ tlen _ _ => TagLenBad tlen
  | .ocbEnc _ tlen b | .ocbDec _ tlen b _ => TagLenBad tlen ∨ 15 < b.nlen.toNat
  | .xtsEnc ks kt b | .xtsDec ks kt b => XtsArgBad (s.slot ks) (s.slot kt) s.cfg b
  | .nop | .halt | .aese1 _ _ _ | .aese2 _ _ _ | .aese4 _ _ _ | .aese8 _ _ _ | .aesd1 _ _ _ | .aesd2 _ _ _
  | .aesd4 _ _ _ | .aesd8 _ _ _ | .gmul _ _ _ | .gred4 _ _ _ | .dbl _ _ | .dblx _ _ | .dblx8 _ _
  | .vinc32 _ _ | .vld _ _ | .vst _ _ | .vxor _ _ _ => False

/-- The code that step 5 of R361 raises: E_KEYLEN of KEXP, E_ARG of every other command. -/
def argCode : Instr → ErrCode
  | .kexp _ _ _ _ _ => .keyLen
  | .nop | .halt | .krk _ _ _ _ | .aese1 _ _ _ | .aese2 _ _ _ | .aese4 _ _ _ | .aese8 _ _ _
  | .aesd1 _ _ _ | .aesd2 _ _ _ | .aesd4 _ _ _ | .aesd8 _ _ _ | .gmul _ _ _ | .gred4 _ _ _
  | .dbl _ _ | .dblx _ _ | .dblx8 _ _ | .vinc32 _ _ | .vld _ _ | .vst _ _ | .vxor _ _ _
  | .gcmEnc _ _ _ | .gcmDec _ _ _ _ | .ocbEnc _ _ _ | .ocbDec _ _ _ _ | .xtsEnc _ _ _ | .xtsDec _ _ _ => .arg

/-- Command `i` raises `e` in state `s`: the first condition that holds in the order of R361, steps 2 to 6. -/
def Raises (i : Instr) (s : State) : ErrCode → Prop
  | .illegal => i.wellFormed = false
  | .platform => i.wellFormed = true ∧ isCrypto i = true ∧ s.cfg.hasCrypto = false
  | .key => i.wellFormed = true ∧ (isCrypto i = true → s.cfg.hasCrypto = true) ∧ false ∈ requiredKeys i s
  | .keyLen => i.wellFormed = true ∧ (isCrypto i = true → s.cfg.hasCrypto = true) ∧ false ∉ requiredKeys i s
      ∧ ArgBad i s ∧ argCode i = .keyLen
  | .arg => i.wellFormed = true ∧ (isCrypto i = true → s.cfg.hasCrypto = true) ∧ false ∉ requiredKeys i s
      ∧ ArgBad i s ∧ argCode i = .arg
  | .bus => i.wellFormed = true ∧ (isCrypto i = true → s.cfg.hasCrypto = true) ∧ false ∉ requiredKeys i s
      ∧ ¬ ArgBad i s ∧ rangesAdmitted s.cfg i = false

/-- No condition of R361 holds for command `i` in state `s`. -/
def Completes (i : Instr) (s : State) : Prop :=
  i.wellFormed = true ∧ (isCrypto i = true → s.cfg.hasCrypto = true) ∧ false ∉ requiredKeys i s ∧ ¬ ArgBad i s
    ∧ rangesAdmitted s.cfg i = true

/-! ### What a command changes -/

/-- Only block registers change, and CP advances. -/
def RegistersOnly (s t : State) : Prop := t = { s with v := t.v, cp := s.cp + 64 }

/-- Only key slots change, and CP advances. -/
def SlotsOnly (s t : State) : Prop := t = { s with ks := t.ks, cp := s.cp + 64 }

/-- Only engine memory changes, and CP advances. -/
def MemoryOnly (s t : State) : Prop := t = { s with mem := t.mem, cp := s.cp + 64 }

/-- Only engine memory and STATUS.AUTH change, and CP advances. -/
def MemoryAndAuthOnly (s t : State) : Prop := t = { s with mem := t.mem, auth := t.auth, cp := s.cp + 64 }

/-- Address `a` lies in one of the ranges. -/
def InRanges (rs : List Range) (a : Nat) : Prop := ∃ r ∈ rs, r.1 ≤ a ∧ a < r.1 + r.2

/-- Two memories hold the same bytes at the addresses of the ranges. -/
def AgreeOn (rs : List Range) (m m' : Memory) : Prop := ∀ a, InRanges rs a → m.read a = m'.read a

/-- Two ranges of memory have no address in common. -/
def RangesApart (r r' : Range) : Prop := ∀ a, r.1 ≤ a → a < r.1 + r.2 → ¬ (r'.1 ≤ a ∧ a < r'.1 + r'.2)

/-- The memory after the bytes `bs` were stored from address `a` on, byte by byte: what address `x` reads as. -/
def storedAt (a : Nat) (bs : List Byte) (m : Nat → Byte) (x : Nat) : Byte :=
  if a ≤ x ∧ x < a + bs.length then bs.getD (x - a) 0 else m x

/-! ### Admission -/

/-- Address `a` of the engine memory lies in the visible register window (R78).  That it stands at `MMIO_BASE` there is the
model's choice (DEDUCED, log entry 9). -/
def InVisibleWindow (c : Config) (a : Nat) : Prop := c.windowVisible = true ∧ c.mmioBase ≤ a ∧ a < c.mmioBase + 256

/-- What R71 asks of a byte that the Engine reads: it exists, `MEM_R` holds, and it is outside the window. -/
def EngineMayRead (c : Config) (a : Nat) : Prop :=
  a < 2 ^ 32 ∧ (∃ r ∈ c.readable, r.base ≤ a ∧ a < r.base + r.size) ∧ ¬ InVisibleWindow c a

/-- What R71 asks of a byte that the Engine writes. -/
def EngineMayWrite (c : Config) (a : Nat) : Prop :=
  a < 2 ^ 32 ∧ (∃ r ∈ c.writable, r.base ≤ a ∧ a < r.base + r.size) ∧ ¬ InVisibleWindow c a

/-! ### Tags, written out from the rules -/

/-- The `k` bytes of `n`, the most significant first (R8). -/
def bigEndian (n k : Nat) : List Byte := (List.range k).map fun i => BitVec.ofNat 8 (n >>> (8 * (k - 1 - i)))

/-- `X ‖ zeros((16 − len(X) mod 16) mod 16)` (R235). -/
def zeroPadded (x : List Byte) : List Byte := x ++ List.replicate ((16 - x.length % 16) % 16) 0

/-- J0 of R232 under the cipher `e`. -/
def specJ0 (e : Block → Block) (nonce : List Byte) : Block :=
  if nonce.length = 12 then beBlock (nonce ++ [0, 0, 0, 1])
  else ghash (e 0) (zeroPadded nonce ++ bigEndian (8 * nonce.length) 16)

/-- `T_full` of R236 for associated data `aad` and ciphertext `c`: `E(J0) ⊕ S`, S as in R235. -/
def specGcmTag (e : Block → Block) (aad nonce c : List Byte) : List Byte :=
  (List.range 16).map (byteOf (e (specJ0 e nonce) ^^^
    ghash (e 0) (zeroPadded aad ++ zeroPadded c ++ bigEndian (8 * aad.length) 8 ++ bigEndian (8 * c.length) 8)))

/-- Offset_0 of R263. -/
def specOffset0 (e : Block → Block) (nonce : List Byte) (tlen : Nat) : Block :=
  let n : Block := (BitVec.ofNat 128 (8 * tlen % 128) <<< 121) ||| (1#128 <<< (8 * nonce.length)) ||| beBlock nonce
  let ktop := e (n &&& ~~~0x3F#128)
  let stretch : BitVec 192 := ktop ++ (ktop.extractLsb' 64 64 ^^^ ktop.extractLsb' 56 64)
  (stretch >>> (64 - (n.extractLsb' 0 6).toNat)).setWidth 128

/-- `base` after the changes of `k` full blocks: `Off ⊕ L_{ntz(1)} ⊕ … ⊕ L_{ntz(k)}` (R265), L_i being L* doubled `i + 2`
times (R262). -/
def specOffset (e : Block → Block) (base : Block) (k : Nat) : Block :=
  (List.range k).foldl (fun off j => off ^^^ dblBe^[ntz (j + 1) + 2] (e 0)) base

/-- Block `k` of a byte string, counted from 0. -/
def specBlock (x : List Byte) (k : Nat) : Block := beBlock ((x.drop (16 * k)).take 16)

/-- The partial last block with its 0x80 padding (R264, R265). -/
def specLast (x : List Byte) : Block :=
  beBlock (x.drop (16 * (x.length / 16)) ++ 0x80 :: List.replicate (15 - x.length % 16) 0)

/-- HASH(A) of R264. -/
def specOcbHash (e : Block → Block) (aad : List Byte) : Block :=
  let m := aad.length / 16
  let sum := (List.range m).foldl (fun s k => s ^^^ e (specBlock aad k ^^^ specOffset e 0 (k + 1))) 0
  if aad.length % 16 = 0 then sum else sum ^^^ e (specLast aad ^^^ (specOffset e 0 m ^^^ e 0))

/-- The offset at the end of R265's loop over a string of the length of `x`. -/
def specLastOffset (e : Block → Block) (nonce : List Byte) (tlen : Nat) (x : List Byte) : Block :=
  let off := specOffset e (specOffset0 e nonce tlen) (x.length / 16)
  if x.length % 16 = 0 then off else off ^^^ e 0

/-- `T_full` of R265 for the plaintext `p`: `E(Chk ⊕ Off ⊕ L$) ⊕ HASH(A)`. -/
def specOcbTag (e : Block → Block) (aad nonce p : List Byte) (tlen : Nat) : List Byte :=
  let sum := (List.range (p.length / 16)).foldl (fun s k => s ^^^ specBlock p k) 0
  let chk := if p.length % 16 = 0 then sum else sum ^^^ specLast p
  (List.range 16).map
    (byteOf (e (chk ^^^ specLastOffset e nonce tlen p ^^^ dblBe (e 0)) ^^^ specOcbHash e aad))

/-! ### A run -/

/-- The run that goes on at `s` ends in `t` after `n` more Engine steps. -/
def RunEndsIn : Nat → State → State → Prop
  | 0, s, t => s.phase = .idle ∧ t = s
  | n + 1, s, t => s.phase = .running ∧ ∃ u, engineStep s = .next u ∧ RunEndsIn n u t

/-- `t` is the state after the error stop `e` from `s` (R360), whatever the model notes of the run's reads. -/
def StopsWith (e : ErrCode) (s t : State) : Prop :=
  t = { s with err := true, errCode := e.code, errPtr := s.cp, phase := .idle, runReads := t.runReads }

/-! ### The invariant -/

/-- The lengths of a key (R180). -/
def KeyLenOk (key : List Byte) : Prop := key.length = 16 ∨ key.length = 24 ∨ key.length = 32

/-- R45 and R46 for one slot and the key it was built from. -/
def SlotMatchesKey (k : KeySlot) (key : List Byte) : Prop :=
  (k.ev = true ∨ k.dv = true → key.length = 4 * k.nk.toNat ∧ k.nr.toNat = k.nk.toNat + 6) ∧
  (k.ev = true → ∀ r ≤ k.nr.toNat, roundKey k.erk r = (forwardSchedule key).getD r 0) ∧
  (k.dv = true → ∀ r ≤ k.nr.toNat, roundKey k.drk r = (inverseSchedule key).getD r 0) ∧
  (k.ev = false → ∀ r, roundKey k.erk r = 0) ∧
  (k.dv = false → ∀ r, roundKey k.drk r = 0) ∧
  ∀ r > k.nr.toNat, roundKey k.erk r = 0 ∧ roundKey k.drk r = 0

/-- A slot as KEXP or reset leaves it (R46). -/
def SlotOk (k : KeySlot) : Prop := ∃ key we wd, KeyLenOk key ∧ k = buildSlot key we wd

/-- The invariant of the machine: what R38, R44, R46, R351 and R362 say of every reachable state, and the memory's
canonical form. -/
structure State.Inv (s : State) : Prop where
  /-- addresses strictly rising below 2^32, no entry equal to what an unlisted address reads as -/
  memory : s.mem.wf = true
  /-- CP bits [5:0] are 0 (R44) -/
  cpAligned : s.cp.toNat % 64 = 0
  /-- ERR_PTR is the address of a descriptor (R39) -/
  errPtrAligned : s.errPtr.toNat % 64 = 0
  /-- every slot is empty or built from one key (R46) -/
  slots : ∀ k, SlotOk (s.slot k)
  /-- while BUSY = 1, DONE and ERR are 0 (R37) -/
  running : s.phase = .running → s.done = false ∧ s.err = false
  /-- at most one of DONE and ERR is 1 (R362) -/
  oneEnd : ¬ (s.done = true ∧ s.err = true)
  /-- ERRCODE is 0 when ERR = 0, and one of 1 .. 6 otherwise (R36, R351) -/
  code : if s.err then 1 ≤ s.errCode.toNat ∧ s.errCode.toNat ≤ 6 else s.errCode = 0
  /-- the parameters are in the ranges of R6 -/
  config : s.cfg.wf = true

end Machine

end Sys2Proof
end

