-- ==== Sys2Proof/Certificates/Slice0/Obligations.lean ====
section
/-! DEFINITION. The statements for the provers, in the order of OBLIGATIONS.json. -/

section
open Sys2Proof Sys2Proof.Machine Host

/-! ### Encoding -/

/-- Headers and operand words written out from R102, R103, R106 and from the examples of the families decode to the
commands they stand for. -/
def Obligations.DecodeSampleWords : Prop :=
  decodeTableWord 32 0x00000000 = some .nop ∧
  decodeTableWord 32 0x00000001 = some .halt ∧
  decodeTableWord 96 0x00000010_00001000_00600308 = some (.kexp 3 true true 0x1000 16) ∧
  decodeTableWord 64 0x00000101_00300609 = some (.krk 6 3 .inverse 1) ∧
  decodeTableWord 32 0x03000810 = some (.aese8 8 0 0) ∧
  decodeTableWord 32 0x01000211 = some (.aesd2 2 0 0) ∧
  decodeTableWord 32 0x00040819 = some (.gred4 8 0 4) ∧
  decodeTableWord 32 0x0000021C = some (.dblx8 2 0) ∧
  decodeTableWord 64 0x00003000_00001021 = some (.vst 1 0x3000) ∧
  decodeTableWord 32 0x00100032 = some (.ocbEnc 0 16 ⟨0, 0, 0, 0, 0, 0, 0, 0⟩) ∧
  decodeTableWord 32 0x00202134 = some (.xtsEnc 1 2 ⟨0, 0, 0, 0, .seq 0⟩) ∧
  decodeTableWord 32 0x00000002 = none ∧
  decodeTableWord 32 0x04000010 = none ∧
  decodeTableWord 32 0x00001020 = none

/-- Decoding the 64 bytes of any command, with its operands at every value the encoding admits, gives that command back
(R100, R102, R103, R106). -/
def Obligations.DecodeEncode : Prop :=
  ∀ i : Instr, decode (encodeBytes i) = .ok i

/-- No header bit is dropped: two descriptors that decode to the same command have the same header (R102, R103, R105). -/
def Obligations.HeaderIsDeterminedByTheCommand : Prop :=
  ∀ (w : Nat → Word) (i : Instr), decodeWords w = .ok i → (encode i).headD 0 = w 0

/-- The sixteen words of a descriptor decode to a command exactly when the header belongs to a row of the opcode table
(R104, R105) and, for KRK, the selector has no bit but [3:0] and 8.  Which illegal encodings of R109 the decoder refuses
is the model's choice, log entry 10: a selector of R109 (e) here, a register group of R109 (d) in the meaning. -/
def Obligations.DecodeAcceptsExactlyTheOpcodeTable : Prop :=
  ∀ w : Nat → Word, (∃ i, decodeWords w = .ok i) ↔
    ∃ r ∈ opcodeRows, w 0 &&& r.mask = r.bits ∧ (r.mnemonic = "KRK" → w 1 &&& ~~~0x10F#32 = 0)

/-- Operand words that a command does not use are never looked at (R106, R109). -/
def Obligations.UnusedOperandWordsAreIgnored : Prop :=
  ∀ (w w' : Nat → Word) (o : Opcode), opcodeOf ((w 0).extractLsb' 0 8) = some o → w' 0 = w 0 →
    (∀ k ∈ usedWords o (w 0), w' k = w k) → decodeWords w' = decodeWords w

/-! ### The step -/

/-- When the 64 bytes at CP may be read and decode to `i`, a step of the running Engine, with no input pending or with
the Engine's turn first, is `exec i` at that state (R332), with the descriptor and, while the run goes on, the command's
ranges of R76 noted in the model's own record of the run.  With no input pending a step is the Engine's turn, otherwise
the first pending turn, which leaves the rest pending; a Host register access is `hostRegRead` or `hostRegWrite` in every
phase (R333).  The list of turns and the record are the model's choice, log entries 3 and 18. -/
def Obligations.StepRunsTheDecodedCommand : Prop :=
  (∀ s : State, step { s with turns := [] } = takeTurn .engine { s with turns := [] }) ∧
  (∀ (s : State) (u : Turn) (ts : List Turn),
    step { s with turns := u :: ts } = takeTurn u { s with turns := ts } ∧
    ∀ t, takeTurn u s = .next t → t.turns = s.turns) ∧
  (∀ (s : State) (off : BitVec 8) (width : AccessWidth) (x : Word),
    takeTurn (.regRead off width) s = .next (hostRegRead off width s) ∧
    takeTurn (.regWrite off width x) s = .next (hostRegWrite off width x s)) ∧
  ∀ (s : State) (i : Instr), s.phase = .running → admittedRead s.cfg s.cp.toNat 64 = true →
    decode (s.mem.readBytes s.cp.toNat 64) = .ok i →
    let noted := fun t : State => { t with
      runReads := (s.cp.toNat, 64) :: (if t.phase = .running then readRanges i else []) ++ t.runReads
      runWrites := (if t.phase = .running then writeRanges i else []) ++ t.runWrites }
    (∃ t, exec i { s with turns := [] } = .next t ∧ step { s with turns := [] } = .next (noted t)) ∧
    ∀ ts, ∃ t, exec i { s with turns := ts } = .next t ∧ step { s with turns := .engine :: ts } = .next (noted t)

/-- The check order of R361 seen from a step of the running Engine: a fetch that is not admitted raises E_BUS, a
descriptor that does not decode raises E_ILLEGAL, and a decoded command raises the first of its own conditions.  The
step then does what R360 says and nothing else.  The codes are those of R351. -/
def Obligations.StepRaisesTheFirstErrorOfTheCheckOrder : Prop :=
  (ErrCode.illegal.code = 1 ∧ ErrCode.platform.code = 2 ∧ ErrCode.keyLen.code = 3 ∧ ErrCode.key.code = 4 ∧
    ErrCode.arg.code = 5 ∧ ErrCode.bus.code = 6) ∧
  ∀ s : State, s.turns = [] → s.phase = .running →
    (admittedRead s.cfg s.cp.toNat 64 = false → ∃ t, step s = .next t ∧ StopsWith .bus s t) ∧
    (admittedRead s.cfg s.cp.toNat 64 = true →
      ((∀ i, decode (s.mem.readBytes s.cp.toNat 64) ≠ .ok i) → ∃ t, step s = .next t ∧ StopsWith .illegal s t) ∧
      ∀ i, decode (s.mem.readBytes s.cp.toNat 64) = .ok i → ∀ e, Raises i s e →
        ∃ t, step s = .next t ∧ StopsWith e s t)

/-- The two phases (R42): BUSY is 1 exactly while RUNNING; in IDLE the Engine fetches and executes nothing, so its turn
changes no state; after reset it is IDLE. -/
def Obligations.IdleEngineFetchesAndExecutesNothing : Prop :=
  (∀ s : State, (s.phase = .idle ∨ s.phase = .running) ∧ ((statusWord s).getLsbD 0 = true ↔ s.phase = .running)) ∧
  (∀ s : State, s.phase = .idle → takeTurn .engine s = .next s ∧ (s.turns = [] → step s = .next s)) ∧
  State.reset.phase = .idle

/-! ### Data movement and list control -/

/-- NOP (R324): a descriptor with opcode 0x00 only advances CP when its header is 0x00000000, whatever its operand words
hold, and raises E_ILLEGAL when any other header bit is set. -/
def Obligations.NopOnlyAdvancesCp : Prop :=
  (∀ s : State, exec .nop s = .next { s with cp := s.cp + 64 }) ∧
  ∀ s : State, s.turns = [] → s.phase = .running → admittedRead s.cfg s.cp.toNat 64 = true →
    let h := wordAt (s.mem.readBytes s.cp.toNat 64) 0
    h.extractLsb' 0 8 = 0x00 →
    ∃ t, step s = .next t ∧
      (h = 0 → t = { s with cp := s.cp + 64, runReads := t.runReads }) ∧ (h ≠ 0 → StopsWith .illegal s t)

/-- HALT (R325, R335): a descriptor with opcode 0x01 advances CP, sets DONE, clears BUSY and makes the Engine IDLE when
its header is 0x00000001, and raises E_ILLEGAL otherwise; HALT leaves ERR, the registers, the slots and AUTH, and IRQ
follows R41. -/
def Obligations.HaltEndsTheRun : Prop :=
  (∀ s : State, ∃ t, exec .halt s = .next t ∧ t = { s with cp := s.cp + 64, done := true, phase := .idle } ∧
    (statusWord t).getLsbD 1 = true ∧ (statusWord t).getLsbD 0 = false ∧ irq t = (s.doneIe || (s.err && s.errIe))) ∧
  ∀ s : State, s.turns = [] → s.phase = .running → admittedRead s.cfg s.cp.toNat 64 = true →
    let h := wordAt (s.mem.readBytes s.cp.toNat 64) 0
    h.extractLsb' 0 8 = 0x01 →
    ∃ t, step s = .next t ∧
      (h = 1 → t = { s with cp := s.cp + 64, done := true, phase := .idle, runReads := t.runReads }) ∧
      (h ≠ 1 → StopsWith .illegal s t)

/-- VLD (R320): V[VD] becomes the block at ADDR, the byte at ADDR its byte 0; every other register is unchanged. -/
def Obligations.VldLoadsTheBlock : Prop :=
  ∀ (vd : VReg) (addr : Word) (s : State), admittedRead s.cfg addr.toNat 16 = true →
    ∃ t, exec (.vld vd addr) s = .next t ∧ RegistersOnly s t ∧
      (∀ i < 16, byteOf t.v[vd] i = s.mem.read (addr.toNat + i)) ∧ ∀ r : VReg, r ≠ vd → t.v[r] = s.v[r]

/-- VST (R321): the sixteen bytes at ADDR become the bytes of V[VA], byte 0 first; every other byte is unchanged. -/
def Obligations.VstStoresTheBlock : Prop :=
  ∀ (va : VReg) (addr : Word) (s : State), s.mem.wf = true → admittedWrite s.cfg addr.toNat 16 = true →
    ∃ t, exec (.vst va addr) s = .next t ∧ MemoryOnly s t ∧
      ∀ a, t.mem.read a =
        if addr.toNat ≤ a ∧ a < addr.toNat + 16 then byteOf s.v[va] (a - addr.toNat) else s.mem.read a

/-- VXOR (R322): `V[VD] <- V[VA] ⊕ V[VB]` and nothing else; it needs no crypto unit. -/
def Obligations.VxorXorsTwoRegisters : Prop :=
  ∀ (vd va vb : VReg) (s : State),
    exec (.vxor vd va vb) s = .next { s with v := s.v.set vd (s.v[va] ^^^ s.v[vb]), cp := s.cp + 64 }

/-! ### AES and the key schedules -/

/-- AESE.n (R151 to R155): lane `j` encrypts the old V[VA+j] into V[VD+j] under the slot's forward schedule; the other
registers are unchanged. -/
def Obligations.AeseEncryptsEveryLane : Prop :=
  ∀ (vd va : VReg) (ks : SlotIx) (s : State) (n : Nat) (i : Instr),
    (n, i) ∈ [(1, Instr.aese1 vd va ks), (2, .aese2 vd va ks), (4, .aese4 vd va ks), (8, .aese8 vd va ks)] →
    va.val + n ≤ 16 → vd.val + n ≤ 16 → s.cfg.hasCrypto = true → s.ks[ks].ev = true →
    ∃ t, exec i s = .next t ∧ RegistersOnly s t ∧
      ∀ r < 16, t.vAt r =
        if vd.val ≤ r ∧ r < vd.val + n then aesEnc s.ks[ks].erk s.ks[ks].nr.toNat (s.vAt (va.val + (r - vd.val)))
        else s.vAt r

/-- AESD.n (R151, R156 to R159): as AESE.n, with the inverse cipher and the slot's inverse schedule. -/
def Obligations.AesdDecryptsEveryLane : Prop :=
  ∀ (vd va : VReg) (ks : SlotIx) (s : State) (n : Nat) (i : Instr),
    (n, i) ∈ [(1, Instr.aesd1 vd va ks), (2, .aesd2 vd va ks), (4, .aesd4 vd va ks), (8, .aesd8 vd va ks)] →
    va.val + n ≤ 16 → vd.val + n ≤ 16 → s.cfg.hasCrypto = true → s.ks[ks].dv = true →
    ∃ t, exec i s = .next t ∧ RegistersOnly s t ∧
      ∀ r < 16, t.vAt r =
        if vd.val ≤ r ∧ r < vd.val + n then aesDec s.ks[ks].drk s.ks[ks].nr.toNat (s.vAt (va.val + (r - vd.val)))
        else s.vAt r

/-- The round functions of the inverse cipher undo those of the forward cipher (R143, R145, R147). -/
def Obligations.InverseRoundFunctionsUndoTheForwardOnes : Prop :=
  ∀ s : Block, invSubBytes (subBytes s) = s ∧ invShiftRows (shiftRows s) = s ∧ invMixColumns (mixColumns s) = s

/-- R150: for every key and block, the inverse cipher under the inverse schedule undoes the forward cipher under the
forward schedule. -/
def Obligations.InverseCipherUndoesForwardCipher : Prop :=
  ∀ (key : List Byte) (b : Block), KeyLenOk key →
    aesDec (slotKeys (inverseSchedule key)) (keyNr key)
      (aesEnc (slotKeys (forwardSchedule key)) (keyNr key) b) = b

/-- The words of the forward schedule satisfy the recurrence of R183, and its round keys are four words each. -/
def Obligations.ForwardScheduleFollowsTheRecurrence : Prop :=
  ∀ key : List Byte, KeyLenOk key →
    let nk := key.length / 4
    let w := fun i => (scheduleWords key).getD i 0
    (scheduleWords key).length = 4 * (nk + 7) ∧ (forwardSchedule key).length = nk + 7 ∧
    (∀ i < nk, w i = key.getD (4 * i) 0 ++ key.getD (4 * i + 1) 0 ++ key.getD (4 * i + 2) 0 ++ key.getD (4 * i + 3) 0) ∧
    (∀ i, nk ≤ i → i < 4 * (nk + 7) → w i = w (i - nk) ^^^
      (if i % nk = 0 then subWord (rotWord (w (i - 1))) ^^^ rcon (i / nk)
       else if nk = 8 ∧ i % nk = 4 then subWord (w (i - 1)) else w (i - 1))) ∧
    ∀ r < nk + 7, (forwardSchedule key).getD r 0 = w (4 * r) ++ w (4 * r + 1) ++ w (4 * r + 2) ++ w (4 * r + 3)

/-- The inverse schedule is the forward one reversed, its interior round keys passed through InvMixColumns (R184, R185). -/
def Obligations.InverseScheduleReversesTheForwardOne : Prop :=
  ∀ key : List Byte, KeyLenOk key →
    let nr := key.length / 4 + 6
    let e := fun r => (forwardSchedule key).getD r 0
    let d := fun r => (inverseSchedule key).getD r 0
    (inverseSchedule key).length = nr + 1 ∧ d 0 = e nr ∧ d nr = e 0 ∧
    ∀ i, 1 ≤ i → i < nr → d i = invMixColumns (e (nr - i))

/-- KEXP (R186): with a legal key length and an admitted key, the slot is replaced whole and no other state but CP
changes; with WE = WD = 0 the slot is left empty. -/
def Obligations.KexpReplacesTheSlot : Prop :=
  ∀ (ks : SlotIx) (we wd : Bool) (key klen : Word) (s : State), s.cfg.hasCrypto = true →
    (klen = 16 ∨ klen = 24 ∨ klen = 32) → admittedRead s.cfg key.toNat klen.toNat = true →
    ∃ t, exec (.kexp ks we wd key klen) s = .next t ∧ SlotsOnly s t ∧ (∀ k : SlotIx, k ≠ ks → t.ks[k] = s.ks[k]) ∧
      (we = false → wd = false → t.ks[ks] = KeySlot.empty) ∧
      ((we || wd) = true →
        let kb := s.mem.readBytes key.toNat klen.toNat
        let nr := klen.toNat / 4 + 6
        t.ks[ks].ev = we ∧ t.ks[ks].dv = wd ∧ t.ks[ks].nk.toNat = klen.toNat / 4 ∧ t.ks[ks].nr.toNat = nr ∧
        ∀ r : Fin 15,
          t.ks[ks].erk[r] = (if we = true ∧ r.val ≤ nr then (forwardSchedule kb).getD r 0 else 0) ∧
          t.ks[ks].drk[r] = (if wd = true ∧ r.val ≤ nr then (inverseSchedule kb).getD r 0 else 0))

/-- R46: after reset, after a KEXP that completes, and in every state of the invariant, each slot holds the schedules of
one key of a legal length; a direction whose valid bit is 0 holds only zeros. -/
def Obligations.EverySlotHoldsTheSchedulesOfOneKey : Prop :=
  (∀ k : SlotIx, ∃ kb, KeyLenOk kb ∧ SlotMatchesKey (State.reset.slot k) kb) ∧
  ∀ s : State, s.Inv → (∀ k : SlotIx, ∃ kb, KeyLenOk kb ∧ SlotMatchesKey (s.slot k) kb) ∧
    ∀ (ks : SlotIx) (we wd : Bool) (key klen : Word), Completes (.kexp ks we wd key klen) s →
      ∃ t, exec (.kexp ks we wd key klen) s = .next t ∧
        ∀ k : SlotIx, ∃ kb, KeyLenOk kb ∧ SlotMatchesKey (t.slot k) kb

/-- KRK (R187): V[VD] becomes the round key J of the schedule that DIR names; nothing else changes but CP. -/
def Obligations.KrkReadsARoundKey : Prop :=
  ∀ (vd : VReg) (ks : SlotIx) (dir : Dir) (j : Fin 16) (s : State), s.cfg.hasCrypto = true →
    (match dir with | .forward => s.ks[ks].ev | .inverse => s.ks[ks].dv) = true →
    j.val ≤ s.ks[ks].nr.toNat →
    exec (.krk vd ks dir j) s = .next { s with
      v := s.v.set vd ((match dir with | .forward => s.ks[ks].erk | .inverse => s.ks[ks].drk)[j.val]?.getD 0)
      cp := s.cp + 64 }

/-! ### GF(2^128) -/

/-- Seven commands that write one register and change nothing else but CP: GMUL writes `gf_mul(V[VA], V[VB])` (R210);
GRED4 the XOR of the four products of the old groups (R211); DBL, DBLX, DBLX8 and VINC32 the OCB doubling, the XTS
doubling, eight XTS doublings and inc32 of the old V[VA] (R212 to R214, R237). -/
def Obligations.GaloisCommandsAndVinc32WriteOneRegister : Prop :=
  ∀ (vd va vb : VReg) (s : State), s.cfg.hasCrypto = true →
    let x := s.v[va]
    let result := fun y : Block => Outcome.next { s with v := s.v.set vd y, cp := s.cp + 64 }
    exec (.gmul vd va vb) s = result (gfMul x s.v[vb]) ∧
    (va.val + 4 ≤ 16 → vb.val + 4 ≤ 16 →
      exec (.gred4 vd va vb) s = result
        (gfMul (s.vAt va) (s.vAt vb) ^^^ gfMul (s.vAt (va.val + 1)) (s.vAt (vb.val + 1))
          ^^^ gfMul (s.vAt (va.val + 2)) (s.vAt (vb.val + 2)) ^^^ gfMul (s.vAt (va.val + 3)) (s.vAt (vb.val + 3)))) ∧
    exec (.dbl vd va) s = result ((x <<< 1) ^^^ (if x.getLsbD 127 then 0x87 else 0)) ∧
    exec (.dblx vd va) s = result (bswap128 (dblBe (bswap128 x))) ∧
    exec (.dblx8 vd va) s = result (dblLe^[8] x) ∧
    exec (.vinc32 vd va) s = result (x.extractLsb' 32 96 ++ (x.extractLsb' 0 32 + 1#32))

/-- The algebra of gf_mul (R202): commutative, associative, distributive over ⊕, with one 0x80…0 and zero 0. -/
def Obligations.GfMulIsCommutativeAssociativeAndDistributive : Prop :=
  ∀ x y z : Block,
    gfMul x y = gfMul y x ∧ gfMul (gfMul x y) z = gfMul x (gfMul y z) ∧
    gfMul x (y ^^^ z) = gfMul x y ^^^ gfMul x z ∧ gfMul x (1#128 <<< 127) = x ∧ gfMul x 0 = 0

/-- GRED4 with the powers of H is four steps of GHASH's Horner form, and with one h it is h times the sum (R211). -/
def Obligations.Gred4IsFourGhashSteps : Prop :=
  ∀ h y x1 x2 x3 x4 : Block,
    let h2 := gfMul h h
    let h3 := gfMul h2 h
    let h4 := gfMul h3 h
    sumOfProducts [h4, h3, h2, h] [y ^^^ x1, x2, x3, x4]
      = [x1, x2, x3, x4].foldl (fun acc x => gfMul (acc ^^^ x) h) y ∧
    sumOfProducts [h, h, h, h] [x1, x2, x3, x4] = gfMul h (x1 ^^^ x2 ^^^ x3 ^^^ x4)

/-- R205: the values it lists; both doublings are linear and bijective; they differ on 0x80…0; and neither is the
product by any fixed element. -/
def Obligations.DoublingsAreLinearBijectiveAndNoGhashProduct : Prop :=
  (dblBe (1#128 <<< 127) = 0x87 ∧ dblBe 1 = 2 ∧ dblBe (BitVec.allOnes 128) = BitVec.allOnes 128 ^^^ 0x86) ∧
  (dblLe 0x80 = 0x87#128 <<< 120 ∧ dblLe (1#128 <<< 120) = 2#128 <<< 120 ∧
    dblLe (BitVec.allOnes 128) = BitVec.allOnes 128 ^^^ (0x86#128 <<< 120)) ∧
  (∀ a b : Block, dblBe (a ^^^ b) = dblBe a ^^^ dblBe b ∧ dblLe (a ^^^ b) = dblLe a ^^^ dblLe b) ∧
  Function.Bijective dblBe ∧ Function.Bijective dblLe ∧
  (dblBe (1#128 <<< 127) = 0x87 ∧ dblLe (1#128 <<< 127) = 1#128 <<< 112) ∧
  ∀ e : Block, (∃ x, gfMul x e ≠ dblBe x) ∧ ∃ x, gfMul x e ≠ dblLe x

/-- The XTS doubling byte by byte (R204): each byte shifts left by one, bit 7 of byte k moves into bit 0 of byte k+1, and
bit 7 of byte 15 folds into byte 0 as 0x87.  The closed form of the α^8 jump (R206): a shift by eight bits and the
carry-less product of the byte shifted out by 0x87, in both byte orders. -/
def Obligations.DoublingsByteByByteAndInClosedForm : Prop :=
  (∀ v : Block,
    byteOf (dblLe v) 0 = (byteOf v 0 <<< 1) ^^^ (if (byteOf v 15).getLsbD 7 then 0x87 else 0) ∧
    ∀ k < 15, byteOf (dblLe v) (k + 1) = (byteOf v (k + 1) <<< 1) ||| (byteOf v k >>> 7)) ∧
  let clmul := fun a : Byte => (List.range 8).foldl
    (fun acc i => if a.getLsbD i then acc ^^^ (0x87#128 <<< i) else acc) 0
  let jump := fun s : Block => (s <<< 8) ^^^ clmul (s.extractLsb' 120 8)
  ∀ s : Block, dblBe^[8] s = jump s ∧ dblLe^[8] s = bswap128 (jump (bswap128 s))

/-! ### GCM -/

/-- inc32 (R233): the low 32 bits count modulo 2^32 and never carry into the upper 96. -/
def Obligations.Inc32NeverCarries : Prop :=
  (∀ v : Block, (inc32 v).toNat = (v.toNat / 2 ^ 32) * 2 ^ 32 + (v.toNat % 2 ^ 32 + 1) % 2 ^ 32) ∧
  inc32 0x0102030405060708090a0b0cffffffff = 0x0102030405060708090a0b0c00000000

/-- GHASH (R203): 0 for the empty string, and one multiplication for each further block. -/
def Obligations.GhashAddsOneProductForEachBlock : Prop :=
  ∀ (h : Block) (xs x : List Byte), ghash h [] = 0 ∧
    (xs.length % 16 = 0 → x.length = 16 → ghash h (xs ++ x) = gfMul (ghash h xs ^^^ beBlock x) h)

/-- GCTR in closed form (R234): byte `k` of the output is byte `k` of the input XOR byte `k mod 16` of the encryption of
the counter block whose low 32 bits are those of the first one plus `k / 16`, modulo 2^32. -/
def Obligations.GctrByteInClosedForm : Prop :=
  ∀ (e : Block → Block) (cb : Block) (xs : List Byte), (gctr e cb xs).length = xs.length ∧
    ∀ k < xs.length, (gctr e cb xs).getD k 0 = xs.getD k 0 ^^^
      byteOf (e (cb.extractLsb' 32 96 ++ (cb.extractLsb' 0 32 + BitVec.ofNat 32 (k / 16)))) (k % 16)

/-- GCM decryption accepts what GCM encryption sealed and returns the plaintext, for every key, nonce, associated data
and tag length (R238, R239).  Both use the keystream from inc32(J0) (R232, R234); the sealed tag is the cut `T_full` of
R236, and a decryption answers authentic exactly when the received tag is that one. -/
def Obligations.GcmOpenUndoesGcmSeal : Prop :=
  ∀ (e : Block → Block) (p aad nonce : List Byte),
    (∀ tlen ≤ 16,
      let r := gcmSeal e p aad nonce tlen
      r.1.length = p.length ∧ r.2.length = tlen ∧ gcmOpen e r.1 aad nonce r.2 = (p, true) ∧
      r.1 = gctr e (inc32 (specJ0 e nonce)) p ∧ r.2 = (specGcmTag e aad nonce r.1).take tlen) ∧
    ∀ c tag : List Byte,
      (gcmOpen e c aad nonce tag).1 = gctr e (inc32 (specJ0 e nonce)) c ∧
      ((gcmOpen e c aad nonce tag).2 = true ↔ tag = (specGcmTag e aad nonce c).take tag.length)

/-- GCM_ENC (R238): DST gets the ciphertext, then TAG the tag, both computed from memory before the command; every other
byte and all other state but CP is unchanged. -/
def Obligations.GcmEncWritesCiphertextThenTag : Prop :=
  ∀ (ks : SlotIx) (tlen : BitVec 5) (b : AeadBufs) (s : State), s.mem.wf = true → s.cfg.hasCrypto = true →
    s.ks[ks].ev = true → 1 ≤ tlen.toNat → tlen.toNat ≤ 16 → rangesAdmitted s.cfg (.gcmEnc ks tlen b) = true →
    ∃ t, exec (.gcmEnc ks tlen b) s = .next t ∧ MemoryOnly s t ∧
      let m := s.mem
      let r := gcmSeal (aesEnc s.ks[ks].erk s.ks[ks].nr.toNat) (m.readBytes b.src.toNat b.len.toNat)
        (m.readBytes b.aad.toNat b.alen.toNat) (m.readBytes b.nonce.toNat b.nlen.toNat) tlen.toNat
      r.1.length = b.len.toNat ∧ r.2.length = tlen.toNat ∧
      ∀ a, t.mem.read a = storedAt b.tag.toNat r.2 (storedAt b.dst.toNat r.1 m.read) a

/-- GCM_DEC (R239, R358): DST gets the plaintext, or zeros when the tag does not match and ZOF = 1; then RES gets the
word 1 or 0, and AUTH the result; an authentication failure is no error. -/
def Obligations.GcmDecWritesPlaintextResultAndAuth : Prop :=
  ∀ (ks : SlotIx) (tlen : BitVec 5) (b : AeadBufs) (res : Word) (s : State), s.mem.wf = true →
    s.cfg.hasCrypto = true → s.ks[ks].ev = true → 1 ≤ tlen.toNat → tlen.toNat ≤ 16 →
    rangesAdmitted s.cfg (.gcmDec ks tlen b res) = true →
    ∃ t, exec (.gcmDec ks tlen b res) s = .next t ∧ MemoryAndAuthOnly s t ∧
      let m := s.mem
      let r := gcmOpen (aesEnc s.ks[ks].erk s.ks[ks].nr.toNat) (m.readBytes b.src.toNat b.len.toNat)
        (m.readBytes b.aad.toNat b.alen.toNat) (m.readBytes b.nonce.toNat b.nlen.toNat)
        (m.readBytes b.tag.toNat tlen.toNat)
      r.1.length = b.len.toNat ∧ t.auth = r.2 ∧
      ∀ a, t.mem.read a = storedAt res.toNat [if r.2 then 1 else 0, 0, 0, 0]
        (storedAt b.dst.toNat (if r.2 || !s.zof then r.1 else List.replicate b.len.toNat 0) m.read) a

/-- On the machine, GCM_DEC after GCM_ENC with the same slot, nonce and associated data, its source where GCM_ENC wrote,
restores the plaintext at DST2, writes the result word 1 and sets AUTH, when no output overlaps what is read later. -/
def Obligations.GcmDecAfterGcmEncRestoresThePlaintext : Prop :=
  ∀ (ks : SlotIx) (tlen : BitVec 5) (b : AeadBufs) (dst2 res : Word) (s t : State), s.mem.wf = true →
    let b2 : AeadBufs := { b with src := b.dst, dst := dst2 }
    Completes (.gcmEnc ks tlen b) s → Completes (.gcmDec ks tlen b2 res) s →
    exec (.gcmEnc ks tlen b) s = .next t →
    RangesApart (rangeOf b.aad b.alen) (rangeOf b.dst b.len) →
    RangesApart (rangeOf b.aad b.alen) (b.tag.toNat, tlen.toNat) →
    RangesApart (rangeOf b.nonce b.nlen) (rangeOf b.dst b.len) →
    RangesApart (rangeOf b.nonce b.nlen) (b.tag.toNat, tlen.toNat) →
    RangesApart (rangeOf b.dst b.len) (b.tag.toNat, tlen.toNat) →
    RangesApart (rangeOf dst2 b.len) (res.toNat, 4) →
    ∃ u, exec (.gcmDec ks tlen b2 res) t = .next u ∧ u.auth = true ∧
      u.mem.readBytes dst2.toNat b.len.toNat = s.mem.readBytes b.src.toNat b.len.toNat ∧
      u.mem.readBytes res.toNat 4 = [1, 0, 0, 0]

/-! ### OCB -/

/-- The Gray-code sequencing of R261 in the data paths of R264, R265 and R266: after `n` full blocks the offset that the
loops carry has changed by exactly those L_b whose bit is set in the Gray code `n ⊕ (n >> 1)`, and block `k` is encrypted,
decrypted and hashed under the offset after `k + 1` changes. -/
def Obligations.OcbOffsetsFollowTheGrayCode : Prop :=
  ∀ (e d : Block → Block) (off chk : Block) (xs : List (List Byte)), (∀ x ∈ xs, x.length = 16) → xs.length < 2 ^ 28 →
    let gray := fun n : Nat =>
      (List.range 28).foldl (fun o b => if (n ^^^ (n >>> 1)).testBit b then o ^^^ lTable e b else o) off
    let block := fun k : Nat => beBlock (xs.getD k [])
    (ocbEncFrom e 1 off chk xs).2.1 = gray xs.length ∧
    (ocbDecFrom e d 1 off chk xs).2.1 = gray xs.length ∧
    (ocbEncFrom e 1 off chk xs).1 = (List.range xs.length).flatMap
      (fun k => blockBytes (gray (k + 1) ^^^ e (block k ^^^ gray (k + 1)))) ∧
    (ocbDecFrom e d 1 off chk xs).1 = (List.range xs.length).flatMap
      (fun k => blockBytes (gray (k + 1) ^^^ d (block k ^^^ gray (k + 1)))) ∧
    ocbHashFrom e 1 off chk xs = (List.range xs.length).foldl (fun sum k => sum ^^^ e (block k ^^^ gray (k + 1))) chk

/-- OCB decryption accepts what OCB encryption sealed and returns the plaintext, when the inverse cipher undoes the
forward cipher (R265, R266).  Block `k` goes through `E`, or `D`, between two XORs with its offset, and a partial last
block is XORed with the pad of its offset.  The sealed tag is the cut `T_full` of R265, and a decryption answers authentic
exactly when the received tag is the one of the recovered plaintext. -/
def Obligations.OcbOpenUndoesOcbSeal : Prop :=
  ∀ (e d : Block → Block) (p aad nonce : List Byte),
    let path := fun (f : Block → Block) (tlen : Nat) (x out : List Byte) =>
      out.length = x.length ∧
      (∀ k < x.length / 16, let off := specOffset e (specOffset0 e nonce tlen) (k + 1)
        specBlock out k = off ^^^ f (specBlock x k ^^^ off)) ∧
      out.drop (16 * (x.length / 16)) = List.zipWith (· ^^^ ·) (x.drop (16 * (x.length / 16)))
        ((List.range 16).map (byteOf (e (specLastOffset e nonce tlen x))))
    (∀ tlen ≤ 16,
      let r := ocbSeal e p aad nonce tlen
      r.2.length = tlen ∧ ((∀ x, d (e x) = x) → ocbOpen e d r.1 aad nonce r.2 = (p, true)) ∧
      path e tlen p r.1 ∧ r.2 = (specOcbTag e aad nonce p tlen).take tlen) ∧
    ∀ c tag : List Byte,
      let r := ocbOpen e d c aad nonce tag
      path d tag.length c r.1 ∧ (r.2 = true ↔ tag = (specOcbTag e aad nonce r.1 tag.length).take tag.length)

/-- OCB_ENC (R270): DST gets the ciphertext, then TAG the tag; every other byte and all other state but CP is
unchanged. -/
def Obligations.OcbEncWritesCiphertextThenTag : Prop :=
  ∀ (ks : SlotIx) (tlen : BitVec 5) (b : AeadBufs) (s : State), s.mem.wf = true → s.cfg.hasCrypto = true →
    s.ks[ks].ev = true → 1 ≤ tlen.toNat → tlen.toNat ≤ 16 → b.nlen.toNat ≤ 15 →
    rangesAdmitted s.cfg (.ocbEnc ks tlen b) = true →
    ∃ t, exec (.ocbEnc ks tlen b) s = .next t ∧ MemoryOnly s t ∧
      let m := s.mem
      let r := ocbSeal (aesEnc s.ks[ks].erk s.ks[ks].nr.toNat) (m.readBytes b.src.toNat b.len.toNat)
        (m.readBytes b.aad.toNat b.alen.toNat) (m.readBytes b.nonce.toNat b.nlen.toNat) tlen.toNat
      r.1.length = b.len.toNat ∧ r.2.length = tlen.toNat ∧
      ∀ a, t.mem.read a = storedAt b.tag.toNat r.2 (storedAt b.dst.toNat r.1 m.read) a

/-- OCB_DEC (R271, R358): the outputs are those of GCM_DEC, with OCB's plaintext and result. -/
def Obligations.OcbDecWritesPlaintextResultAndAuth : Prop :=
  ∀ (ks : SlotIx) (tlen : BitVec 5) (b : AeadBufs) (res : Word) (s : State), s.mem.wf = true →
    s.cfg.hasCrypto = true → s.ks[ks].ev = true → s.ks[ks].dv = true → 1 ≤ tlen.toNat → tlen.toNat ≤ 16 →
    b.nlen.toNat ≤ 15 → rangesAdmitted s.cfg (.ocbDec ks tlen b res) = true →
    ∃ t, exec (.ocbDec ks tlen b res) s = .next t ∧ MemoryAndAuthOnly s t ∧
      let m := s.mem
      let r := ocbOpen (aesEnc s.ks[ks].erk s.ks[ks].nr.toNat) (aesDec s.ks[ks].drk s.ks[ks].nr.toNat)
        (m.readBytes b.src.toNat b.len.toNat) (m.readBytes b.aad.toNat b.alen.toNat)
        (m.readBytes b.nonce.toNat b.nlen.toNat) (m.readBytes b.tag.toNat tlen.toNat)
      r.1.length = b.len.toNat ∧ t.auth = r.2 ∧
      ∀ a, t.mem.read a = storedAt res.toNat [if r.2 then 1 else 0, 0, 0, 0]
        (storedAt b.dst.toNat (if r.2 || !s.zof then r.1 else List.replicate b.len.toNat 0) m.read) a

/-! ### XTS -/

/-- Decryption of a data unit undoes its encryption, for every length of at least 16 bytes (R295). -/
def Obligations.XtsDecUnitUndoesXtsEncUnit : Prop :=
  ∀ (e d : Block → Block) (ts : List Block) (p : List Byte), (∀ x, d (e x) = x) → 16 ≤ p.length →
    (xtsEncUnit e ts p).length = p.length ∧ xtsDecUnit d ts (xtsEncUnit e ts p) = p

/-- Data units are independent (R296), in encryption and in decryption: the output of unit `u` is the unit function of
the bytes of unit `u` under the tweaks from its own first tweak, at the same offsets.  IV_u (R291) is the 16 bytes at
IV + 16u of the array, or the little-endian sequence number (SEQ + u) mod 2^64 followed by 8 zero bytes. -/
def Obligations.XtsUnitsAreIndependent : Prop :=
  (∀ (m : Memory) (iv : Word) (seq : BitVec 64) (u k : Nat), k < 16 →
    byteOf (xtsIv m (.array iv) u) k = m.read (iv.toNat + 16 * u + k) ∧
    byteOf (xtsIv m (.seq seq) u) k =
      if k < 8 then BitVec.ofNat 8 (((seq.toNat + u) % 2 ^ 64) >>> (8 * k)) else 0) ∧
  (∀ m : Memory, xtsIv m (.seq 0xFFFFFFFFFFFFFFFF) 1 = 0) ∧
  ∀ (f : Block → Block) (unit : List Block → List Byte → List Byte) (tweak0 : Nat → Block) (dul n u : Nat)
    (x : List Byte), unit = xtsEncUnit f ∨ unit = xtsDecUnit f → 16 ≤ dul → x.length = n * dul → u < n →
    let out := xtsBuffer unit tweak0 dul n x
    out.length = n * dul ∧ (out.drop (u * dul)).take dul
      = unit ((List.range (dul / 16 + 1)).map fun j => dblLe^[j] (tweak0 u)) ((x.drop (u * dul)).take dul)

/-- XTS_ENC (R298): DST gets the units encrypted under the data key, with tweaks from the tweak key; every other byte and
all other state but CP is unchanged. -/
def Obligations.XtsEncWritesTheEncryptedUnits : Prop :=
  ∀ (ks kt : SlotIx) (b : XtsBufs) (s : State), s.mem.wf = true → s.cfg.hasCrypto = true → s.ks[ks].ev = true →
    s.ks[kt].ev = true → ¬ XtsArgBad s.ks[ks] s.ks[kt] s.cfg b → rangesAdmitted s.cfg (.xtsEnc ks kt b) = true →
    ∃ t, exec (.xtsEnc ks kt b) s = .next t ∧ MemoryOnly s t ∧
      let out := xtsBuffer (xtsEncUnit (aesEnc s.ks[ks].erk s.ks[ks].nr.toNat))
        (fun u => aesEnc s.ks[kt].erk s.ks[kt].nr.toNat (xtsIv s.mem b.iv u)) b.dul.toNat (b.len.toNat / b.dul.toNat)
        (s.mem.readBytes b.src.toNat b.len.toNat)
      out.length = b.len.toNat ∧ ∀ a, t.mem.read a = storedAt b.dst.toNat out s.mem.read a

/-- XTS_DEC (R299): as XTS_ENC with the inverse cipher of the data key; the tweak key still encrypts. -/
def Obligations.XtsDecWritesTheDecryptedUnits : Prop :=
  ∀ (ks kt : SlotIx) (b : XtsBufs) (s : State), s.mem.wf = true → s.cfg.hasCrypto = true → s.ks[ks].dv = true →
    s.ks[kt].ev = true → ¬ XtsArgBad s.ks[ks] s.ks[kt] s.cfg b → rangesAdmitted s.cfg (.xtsDec ks kt b) = true →
    ∃ t, exec (.xtsDec ks kt b) s = .next t ∧ MemoryOnly s t ∧
      let out := xtsBuffer (xtsDecUnit (aesDec s.ks[ks].drk s.ks[ks].nr.toNat))
        (fun u => aesEnc s.ks[kt].erk s.ks[kt].nr.toNat (xtsIv s.mem b.iv u)) b.dul.toNat (b.len.toNat / b.dul.toNat)
        (s.mem.readBytes b.src.toNat b.len.toNat)
      out.length = b.len.toNat ∧ ∀ a, t.mem.read a = storedAt b.dst.toNat out s.mem.read a

/-! ### Every command -/

/-- R331: a command of which no condition of R361 holds completes, and CP advances by 64 modulo 2^32, HALT included; a
command that raises leaves CP at its own descriptor; after a step that stops by an error, CP = ERR_PTR; after
0xFFFF_FFC0 comes 0. -/
def Obligations.CpAdvancesExactlyWhenACommandCompletes : Prop :=
  (∀ (i : Instr) (s : State), Completes i s → ∃ t, exec i s = .next t ∧ t.cp = s.cp + 64 ∧ t.err = s.err ∧
    t.errPtr = s.errPtr) ∧
  (∀ (i : Instr) (s : State) (e : ErrCode), Raises i s e → ∃ t, exec i s = .next t ∧ t.cp = s.cp ∧ t.errPtr = t.cp) ∧
  (∀ s t : State, s.turns = [] → s.phase = .running → s.err = false → step s = .next t → t.err = true →
    t.cp = s.cp ∧ t.errPtr = t.cp) ∧
  (0xFFFFFFC0#32 + 64 = 0#32)

/-- E_PLATFORM (R352): without the crypto unit every crypto command whose header decodes legally raises it, and NOP,
HALT, VLD, VST and VXOR do what they do with it; CAP bits 0 and 1 show `HAS_CRYPTO`. -/
def Obligations.PlatformErrorStopsExactlyTheCryptoCommands : Prop :=
  ∀ (i : Instr) (s : State), s.cfg.hasCrypto = false →
    (isCrypto i = true → i.wellFormed = true →
      exec i s = .next { s with err := true, errCode := 2, errPtr := s.cp, phase := .idle }) ∧
    (isCrypto i = false → ∀ t, exec i { s with cfg := { s.cfg with hasCrypto := true } } = .next t →
      exec i s = .next { t with cfg := s.cfg }) ∧
    (capWord s.cfg).getLsbD 0 = false ∧ (capWord s.cfg).getLsbD 1 = false

/-- What a command may change (R43, R45, R47): only KEXP writes a slot, and only its own; only GCM_DEC and OCB_DEC write
AUTH; the mode commands, KEXP, VST, NOP and HALT write no block register; none changes the configuration (R49). -/
def Obligations.OnlyTheNamedCommandsWriteSlotsAuthAndRegisters : Prop :=
  ∀ (i : Instr) (s t : State), exec i s = .next t →
    (∀ k : SlotIx, t.ks[k] ≠ s.ks[k] → ∃ we wd key klen, i = .kexp k we wd key klen) ∧
    (t.auth ≠ s.auth → ∃ ks tlen b res, i = .gcmDec ks tlen b res ∨ i = .ocbDec ks tlen b res) ∧
    (t.v ≠ s.v → (∀ ks we wd key klen, i ≠ .kexp ks we wd key klen) ∧ (∀ va addr, i ≠ .vst va addr) ∧ i ≠ .nop ∧
      i ≠ .halt ∧ (∀ ks tlen b, i ≠ .gcmEnc ks tlen b ∧ i ≠ .ocbEnc ks tlen b) ∧
      (∀ ks tlen b res, i ≠ .gcmDec ks tlen b res ∧ i ≠ .ocbDec ks tlen b res) ∧
      ∀ ks kt b, i ≠ .xtsEnc ks kt b ∧ i ≠ .xtsDec ks kt b) ∧
    t.cfg = s.cfg

/-- A command writes no byte of memory outside the write ranges that R76 lists for it, and none that the Engine may not
write: past 2^32 - 1, without `MEM_W`, or in the visible register window (R71, R78).  A range is admitted exactly when the
Engine may read, or write, each of its bytes (R71).  That a visible window stands at `MMIO_BASE` in the engine memory is
the model's choice (DEDUCED, log entry 9), and so is the part of `EngineMayRead` and `EngineMayWrite` that says so. -/
def Obligations.MemoryChangesOnlyInTheWriteRanges : Prop :=
  (∀ (i : Instr) (s t : State), s.mem.wf = true → exec i s = .next t →
    ∀ a, t.mem.read a ≠ s.mem.read a → InRanges (writeRanges i) a ∧ EngineMayWrite s.cfg a) ∧
  ∀ (c : Config) (a n : Nat),
    (admittedRead c a n = true ↔ ∀ x, a ≤ x → x < a + n → EngineMayRead c x) ∧
    (admittedWrite c a n = true ↔ ∀ x, a ≤ x → x < a + n → EngineMayWrite c x)

/-- A command's result depends on no byte of memory outside the read ranges that R76 lists for it: two states that
differ only in such bytes give the same state after it but for memory, and the same written bytes.  A command that
completes names no read byte that the Engine may not read (R71, R78); that a visible window, which it may not read, stands
at `MMIO_BASE` in the engine memory is the model's choice (DEDUCED, log entry 9). -/
def Obligations.ResultsDependOnlyOnTheReadRanges : Prop :=
  ∀ (i : Instr) (s t : State) (m' : Memory), s.mem.wf = true → m'.wf = true → AgreeOn (readRanges i) s.mem m' →
    exec i s = .next t →
    ∃ t', exec i { s with mem := m' } = .next t' ∧ t' = { t with mem := t'.mem } ∧
      (Completes i s → AgreeOn (writeRanges i) t.mem t'.mem) ∧
      (t.cp = s.cp + 64 → ∀ a, InRanges (readRanges i) a → EngineMayRead s.cfg a) ∧
      ∀ a, ¬ InRanges (writeRanges i) a → t'.mem.read a = m'.read a

/-- Recovery (R363): after an error stop, clearing ERR and starting again with nothing changed raises the same error
with the same ERR_PTR, and leaves the same state but for the model's record of the run. -/
def Obligations.RetryRaisesTheSameError : Prop :=
  ∀ s t : State, s.turns = [] → s.phase = .running → s.done = false → s.err = false →
    step s = .next t → t.err = true →
    ∃ u, step (startRun (writeStatus 4 t)) = .next u ∧ u = { t with runReads := u.runReads, runWrites := u.runWrites }

/-- The invariant of the machine is kept by every step, the Host's accesses and the reset input included. -/
def Obligations.StepKeepsTheInvariant : Prop :=
  ∀ s t : State, s.Inv → step s = .next t → t.Inv

/-- The invariant holds after reset; its last clause speaks of the parameters of log entry 1. -/
def Obligations.ResetMeetsTheInvariant : Prop := State.reset.Inv

/-! ### The register window -/

/-- A CTRL write (R35, R330, R401): the enables, and ZOF while BUSY = 0; then, with SRST and BUSY = 0, the soft reset;
otherwise, with START, BUSY = 0 and ERR = 0, a run starts with DONE cleared.  Nothing is said of the model's
own fields here; `HostMemoryAccesses` says what a register write does to the record of the run.  A read gives each field
at its bit of R34, START, SRST and the reserved bits as 0, and changes nothing. -/
def Obligations.CtrlWriteTakesEffectInOrder : Prop :=
  ∀ (s : State) (x : Word),
    let s1 : State := { s with
      doneIe := x.getLsbD 4, errIe := x.getLsbD 5
      zof := if s.phase = .running then s.zof else x.getLsbD 8 }
    let s2 : State :=
      if x.getLsbD 1 = true ∧ s.phase = .idle then { State.reset with mem := s.mem, cfg := s.cfg }
      else if x.getLsbD 0 = true ∧ s.phase = .idle ∧ s.err = false then { s1 with done := false, phase := .running }
      else s1
    let t := hostRegWrite 0x08 .word x s
    t = { s2 with
      turns := t.turns, response := t.response, draws := t.draws, runReads := t.runReads, runWrites := t.runWrites } ∧
    ∃ c : Word, hostRegRead 0x08 .word s = { s with response := some (.reg c) } ∧
      c.getLsbD 4 = s.doneIe ∧ c.getLsbD 5 = s.errIe ∧ c.getLsbD 8 = s.zof ∧
      c.extractLsb' 0 4 = 0 ∧ c.extractLsb' 6 2 = 0 ∧ c.extractLsb' 9 23 = 0

/-- A STATUS write (R37): bit 1 clears DONE, bit 2 clears ERR and ERRCODE, nothing else changes; while BUSY = 1 it has
no effect.  A read gives each field at its bit of R36, the reserved bits as 0, and changes nothing. -/
def Obligations.StatusWriteClearsDoneAndErr : Prop :=
  ∀ (s : State) (x : Word),
    hostRegWrite 0x0C .word x s = { s with
      done := if x.getLsbD 1 then false else s.done
      err := if x.getLsbD 2 then false else s.err
      errCode := if x.getLsbD 2 then 0 else s.errCode
      response := some .done } ∧
    (s.Inv → s.phase = .running → hostRegWrite 0x0C .word x s = { s with response := some .done }) ∧
    ∃ c : Word, hostRegRead 0x0C .word s = { s with response := some (.reg c) } ∧
      c.getLsbD 0 = decide (s.phase = .running) ∧ c.getLsbD 1 = s.done ∧ c.getLsbD 2 = s.err ∧
      c.getLsbD 3 = s.auth ∧ c.extractLsb' 4 4 = 0 ∧ c.extractLsb' 8 8 = s.errCode ∧ c.extractLsb' 16 16 = 0

/-- CMD_PTR (R38): a read returns CP, whose low 6 bits are 0; a write while BUSY = 0 sets CP to `x & 0xFFFF_FFC0`; a
write while BUSY = 1 is ignored; its reset value is 0.  That a read while BUSY = 1 returns CP is the model's reading of
R333 where S5 names two values, log entry 8. -/
def Obligations.CmdPtrReadsAndWritesCp : Prop :=
  (∀ (s : State) (x : Word),
    hostRegRead 0x10 .word s = { s with response := some (.reg s.cp) } ∧
    (s.Inv → s.cp.extractLsb' 0 6 = 0) ∧
    (s.phase = .idle →
      hostRegWrite 0x10 .word x s = { s with cp := x &&& 0xFFFFFFC0, response := some .done }) ∧
    (s.phase = .running → hostRegWrite 0x10 .word x s = { s with response := some .done })) ∧
  State.reset.cp = 0

/-- ERR_PTR (R39): a read returns it, a write is ignored, and a turn changes it only by an error stop, to the CP of the
failing descriptor, or by a reset, to 0. -/
def Obligations.ErrPtrChangesOnlyAtAnErrorStop : Prop :=
  (∀ (s : State) (x : Word),
    hostRegRead 0x14 .word s = { s with response := some (.reg s.errPtr) } ∧
    hostRegWrite 0x14 .word x s = { s with response := some .done }) ∧
  (∀ (u : Turn) (s t : State), takeTurn u s = .next t → t.errPtr ≠ s.errPtr →
    (u = .engine ∧ s.phase = .running ∧ t.phase = .idle ∧ t.err = true ∧ t.errPtr = s.cp ∧ t.cp = s.cp) ∨
    (t.errPtr = 0 ∧ t.phase = .idle ∧ (u = .powerOn ∨ ∃ x, u = .regWrite 0x08 .word x ∧ x.getLsbD 1 = true))) ∧
  State.reset.errPtr = 0

/-- ID (R32) answers 0x4145_5331; CAP (R33) answers its fields, constant for a configuration; reserved offsets (R40)
answer 0; a write to any of these changes nothing.  Any other access than a 32-bit aligned one gets a bus error and
changes no state of the block (R31). -/
def Obligations.ConstantAndReservedRegistersAndBadAccesses : Prop :=
  ∀ (s : State) (off : BitVec 8) (width : AccessWidth) (x : Word), ∃ c : Word,
    (hostRegRead 0x00 .word s = { s with response := some (.reg 0x41455331) } ∧
      hostRegWrite 0x00 .word x s = { s with response := some .done }) ∧
    (hostRegRead 0x04 .word s = { s with response := some (.reg c) } ∧
      hostRegWrite 0x04 .word x s = { s with response := some .done } ∧
      c.getLsbD 0 = s.cfg.hasCrypto ∧ c.getLsbD 1 = s.cfg.hasCrypto ∧ c.extractLsb' 2 2 = 0 ∧
      c.extractLsb' 4 4 = 0xF ∧ c.extractLsb' 8 8 = 16 ∧ c.extractLsb' 16 16 = s.cfg.xtsMaxUnits) ∧
    (0x18 ≤ off.toNat → off.toNat % 4 = 0 →
      hostRegRead off .word s = { s with response := some (.reg 0) } ∧
      hostRegWrite off .word x s = { s with response := some .done }) ∧
    (width ≠ .word ∨ off.toNat % 4 ≠ 0 →
      hostRegRead off width s = { s with response := some .busError } ∧
      hostRegWrite off width x s = { s with response := some .busError })

/-- IRQ (R41): a level function of the status and enable bits; it falls only by a CTRL or STATUS write or by a reset. -/
def Obligations.IrqStaysUntilTheHostClearsIt : Prop :=
  (∀ s : State, irq s = (((statusWord s).getLsbD 1 && (ctrlWord s).getLsbD 4)
    || ((statusWord s).getLsbD 2 && (ctrlWord s).getLsbD 5))) ∧
  ∀ (u : Turn) (s t : State), takeTurn u s = .next t → irq s = true → irq t = false →
    (∃ x, u = .regWrite 0x08 .word x) ∨ (∃ x, u = .regWrite 0x0C .word x) ∨ u = .powerOn

/-! ### Reset and the Host's memory accesses -/

/-- Reset values (R50): after the reset input in any phase, and after a soft reset, every piece of state of the block
holds its reset value, and ID and CAP their constants; the engine memory is unchanged, but by a power-on reset during a
run (R402).  Nothing is said of the model's own fields. -/
def Obligations.ResetPutsEveryRegisterToItsValue : Prop :=
  (let r := State.reset
   r.phase = .idle ∧ statusWord r = 0 ∧ ctrlWord r = 0 ∧ r.cp = 0 ∧ r.errPtr = 0 ∧ irq r = false ∧
   (∀ k : VReg, r.v[k] = 0) ∧
   ∀ k : SlotIx, r.ks[k].ev = false ∧ r.ks[k].dv = false ∧ r.ks[k].nk = 0 ∧ r.ks[k].nr = 0 ∧
     (∀ j : Fin 15, r.ks[k].erk[j] = 0) ∧ ∀ j : Fin 15, r.ks[k].drk[j] = 0) ∧
  (∀ s : State, ∃ t, takeTurn .powerOn s = .next t ∧ readReg t 0x00 = 0x41455331 ∧ readReg t 0x04 = readReg s 0x04 ∧
    (s.phase = .idle → t.mem = s.mem) ∧
    t = { State.reset with
      mem := t.mem, cfg := s.cfg
      turns := t.turns, response := t.response, draws := t.draws, runReads := t.runReads, runWrites := t.runWrites }) ∧
  ∀ (s : State) (x : Word), s.phase = .idle → x.getLsbD 1 = true →
    ∃ t, takeTurn (.regWrite 0x08 .word x) s = .next t ∧ readReg t 0x00 = 0x41455331 ∧
      readReg t 0x04 = readReg s 0x04 ∧
      t = { State.reset with
        mem := s.mem, cfg := s.cfg
        turns := t.turns, response := t.response, draws := t.draws, runReads := t.runReads, runWrites := t.runWrites }

/-- Power-on reset during a run (R402), whatever stands at CP: the block is as after reset, and each byte that the step at
CP would have written holds its old or its new value, whichever the free choice says; every other byte is unchanged, and
so is every byte when the fetch fails. -/
def Obligations.PowerOnDuringARunTearsOnlyTheInterruptedCommand : Prop :=
  ∀ s t : State, s.mem.wf = true → s.phase = .running → engineStep s = .next t →
    ∃ u, takeTurn .powerOn s = .next u ∧
      u = { State.reset with
        mem := u.mem, cfg := s.cfg
        turns := u.turns, response := u.response, draws := u.draws, runReads := u.runReads, runWrites := u.runWrites } ∧
      ∀ a, (u.mem.read a = s.mem.read a ∨ u.mem.read a = t.mem.read a) ∧
        ((∀ i, fetch s = .ok i → ¬ InRanges (writeRanges i) a) → u.mem.read a = s.mem.read a)

/-- Host accesses to engine memory.  In IDLE a read answers the stored byte, so it sees every write of the runs before
(R82), and a write happens (R404).  While a run goes on that ends in `t` (within 2^64 commands), a read of a byte that the
run writes is answered with a free byte, of any other with that byte (R82); a write to a byte that the run reads or
writes, its descriptors included, is refused (R83 duty 2, S2), to any other it happens.  A START that begins a run, and a
soft reset, empty the record of the run, and no other register write changes it.  THE MODEL'S CHOICE, and not R82's or
R83's words: accesses as turns of one byte (log entry 7); which bytes are the run's, a command that raises using its
descriptor only (log entry 6), a later power-on reset not counted (log entry 19), by the record in State (log entries 12
and 18); the refusal, which S2 only permits (log entry 6); the bus error at a visible window (log entry 9). -/
def Obligations.HostMemoryAccesses : Prop :=
  (∀ (s : State) (a : Word) (b : Byte), s.phase = .idle → ¬ InVisibleWindow s.cfg a.toNat →
    takeTurn (.memRead a) s = .next { s with response := some (.byte (s.mem.read a.toNat)) } ∧
    takeTurn (.memWrite a b) s = .next { s with mem := s.mem.write a.toNat b, response := some .done }) ∧
  (∀ (m : Memory) (a x : Nat) (b : Byte), m.wf = true → (m.write a b).read x = if x = a then b else m.read x) ∧
  (∀ (s : State) (a : Word) (b : Byte), InVisibleWindow s.cfg a.toNat →
    takeTurn (.memRead a) s = .next { s with response := some .busError } ∧
    takeTurn (.memWrite a b) s = .next { s with response := some .busError }) ∧
  (∀ (off : BitVec 8) (width : AccessWidth) (x : Word) (s t : State), takeTurn (.regWrite off width x) s = .next t →
    let empties := off = 0x08 ∧ width = .word ∧ s.phase = .idle ∧
      (x.getLsbD 1 = true ∨ x.getLsbD 0 = true ∧ s.err = false)
    (empties → t.runReads = [] ∧ t.runWrites = []) ∧
    (¬ empties → t.runReads = s.runReads ∧ t.runWrites = s.runWrites)) ∧
  ∀ (n : Nat) (s t : State) (a : Word) (b : Byte), s.phase = .running → ¬ InVisibleWindow s.cfg a.toNat →
    RunEndsIn n s t → n < 2 ^ 64 →
    (InRanges t.runWrites a.toNat → takeTurn (.memRead a) s = .next { s with
      response := some (.byte (Config.freeByte s.draws)), draws := s.draws + 1 }) ∧
    (¬ InRanges t.runWrites a.toNat →
      takeTurn (.memRead a) s = .next { s with response := some (.byte (s.mem.read a.toNat)) }) ∧
    (InRanges t.runReads a.toNat ∨ InRanges t.runWrites a.toNat →
      takeTurn (.memWrite a b) s = .refused .hostWriteDuringRun) ∧
    (¬ InRanges t.runReads a.toNat → ¬ InRanges t.runWrites a.toNat →
      takeTurn (.memWrite a b) s = .next { s with mem := s.mem.write a.toNat b, response := some .done })

/-- A Host write that is not refused leaves the run as it was: the run ends in the same number of steps and in the same
state, but for the written byte (R80, R83).  Which writes are refused, and where a visible window stands, is the model's
choice: log entries 6, 7, 9, 18 and 19. -/
def Obligations.AdmittedHostWriteLeavesTheRun : Prop :=
  ∀ (n : Nat) (s s' t : State) (a : Word) (b : Byte), s.mem.wf = true → s.phase = .running →
    RunEndsIn n s t → n < 2 ^ 64 → takeTurn (.memWrite a b) s = .next s' →
    ∃ t', RunEndsIn n s' t' ∧ t' = { t with mem := t'.mem, response := s'.response } ∧
      ∀ x, t'.mem.read x = if x = a.toNat ∧ inWindow s.cfg a.toNat = false then b else t.mem.read x

end
end

