-- ==== Sys2Proof/Laws/Bytes.lean ====
section
/-! SUPPORT. Blocks and their bytes, words and their bytes, and the pieces of a byte string. -/

namespace Sys2Proof

/-! ### Blocks -/

/-- A bit of a byte of a block. -/
theorem getLsbD_byteOf (v : Block) (i j : Nat) (hj : j < 8) :
    (byteOf v i).getLsbD j = v.getLsbD (8 * (15 - i) + j) := by
  simp [byteOf, hj]

/-- Two blocks with the same bytes are equal (R8). -/
theorem block_ext {v w : Block} (h : ∀ i < 16, byteOf v i = byteOf w i) : v = w := by
  apply BitVec.eq_of_getLsbD_eq
  intro k hk
  have hb := congrArg (fun b : Byte => b.getLsbD (k % 8)) (h (15 - k / 8) (by omega))
  simp only [getLsbD_byteOf _ _ _ (Nat.mod_lt k (by decide : 0 < 8))] at hb
  have e : 8 * (15 - (15 - k / 8)) + k % 8 = k := by omega
  rwa [e] at hb

/-- A bit of a value followed by one more byte. -/
theorem getLsbD_append_byte {n : Nat} (x : BitVec n) (b : Byte) (k : Nat) :
    (x ++ b).getLsbD k = if k < 8 then b.getLsbD k else x.getLsbD (k - 8) := by
  rw [BitVec.getLsbD_append]

theorem getLsbD_append_low {n : Nat} (x : BitVec n) (b : Byte) {j : Nat} (hj : j < 8) :
    (x ++ b).getLsbD (8 * 0 + j) = b.getLsbD j := by
  rw [getLsbD_append_byte, if_pos (by omega)]; congr 1; omega

theorem getLsbD_append_high {n : Nat} (x : BitVec n) (b : Byte) (m j : Nat) :
    (x ++ b).getLsbD (8 * (m + 1) + j) = x.getLsbD (8 * m + j) := by
  rw [getLsbD_append_byte, if_neg (by omega)]; congr 1; omega

/-- Byte `i` of the block that `f` gives (R8). -/
theorem byteOf_blockOfFn (f : Nat → Byte) (i : Nat) (h : i < 16) : byteOf (blockOfFn f) i = f i := by
  apply BitVec.eq_of_getLsbD_eq
  intro j hj
  rw [getLsbD_byteOf _ _ _ hj, blockOfFn]
  have hi : i = 0 ∨ i = 1 ∨ i = 2 ∨ i = 3 ∨ i = 4 ∨ i = 5 ∨ i = 6 ∨ i = 7 ∨ i = 8 ∨ i = 9 ∨ i = 10 ∨ i = 11
      ∨ i = 12 ∨ i = 13 ∨ i = 14 ∨ i = 15 := by omega
  rcases hi with h | h | h | h | h | h | h | h | h | h | h | h | h | h | h | h <;> subst h <;>
    simp only [Nat.reduceSub, getLsbD_append_high, getLsbD_append_low _ _ hj]
  congr 1; omega

/-- A block is made of its bytes. -/
theorem blockOfFn_byteOf (v : Block) : blockOfFn (byteOf v) = v :=
  block_ext fun i hi => byteOf_blockOfFn _ i hi

/-- Equal functions on 0 .. 15 give equal blocks. -/
theorem blockOfFn_congr {f g : Nat → Byte} (h : ∀ i < 16, f i = g i) : blockOfFn f = blockOfFn g :=
  block_ext fun i hi => by rw [byteOf_blockOfFn _ i hi, byteOf_blockOfFn _ i hi, h i hi]

/-- The bytes of an XOR (R7). -/
theorem byteOf_xor (v w : Block) (i : Nat) : byteOf (v ^^^ w) i = byteOf v i ^^^ byteOf w i := by
  apply BitVec.eq_of_getLsbD_eq
  intro j hj
  simp [getLsbD_byteOf _ _ _ hj]

@[simp] theorem length_blockBytes (v : Block) : (blockBytes v).length = 16 := by simp [blockBytes]

theorem blockBytes_getD (v : Block) (i : Nat) (h : i < 16) : (blockBytes v).getD i 0 = byteOf v i := by
  simp [blockBytes, List.getD_eq_getElem?_getD, h]

/-- Byte `i` of `be` of sixteen bytes (R8). -/
theorem byteOf_beBlock {bs : List Byte} (h : bs.length = 16) {i : Nat} (hi : i < 16) :
    byteOf (beBlock bs) i = bs.getD i 0 := by
  rw [beBlock, byteOf_blockOfFn _ _ hi, h, if_neg (by omega), Nat.add_sub_cancel]

/-- `be(bytes_be(v, 16)) = v` (R8). -/
@[simp] theorem beBlock_blockBytes (v : Block) : beBlock (blockBytes v) = v :=
  block_ext fun i hi => by rw [byteOf_beBlock (length_blockBytes v) hi, blockBytes_getD v i hi]

/-- `bytes_be(be(B), 16) = B` for a block B (R8). -/
theorem blockBytes_beBlock {bs : List Byte} (h : bs.length = 16) : blockBytes (beBlock bs) = bs := by
  apply List.ext_getElem (by simp [h])
  intro i h1 h2
  have hi : i < 16 := by simpa using h1
  have e1 := blockBytes_getD (beBlock bs) i hi
  rw [byteOf_beBlock h hi] at e1
  rwa [List.getD_eq_getElem _ _ h1, List.getD_eq_getElem _ _ h2] at e1

/-- `bswap128` byte by byte (R9). -/
theorem byteOf_bswap128 (v : Block) {i : Nat} (hi : i < 16) : byteOf (bswap128 v) i = byteOf v (15 - i) :=
  byteOf_blockOfFn _ i hi

@[simp] theorem bswap128_bswap128 (v : Block) : bswap128 (bswap128 v) = v :=
  block_ext fun i hi => by
    rw [byteOf_bswap128 _ hi, byteOf_bswap128 _ (by omega), show 15 - (15 - i) = i by omega]

/-! ### Words -/

/-- A word is made of its four bytes, the low one first (R73). -/
theorem leWord_bytes (w : Word) :
    leWord (w.extractLsb' 0 8) (w.extractLsb' 8 8) (w.extractLsb' 16 8) (w.extractLsb' 24 8) = w := by
  apply BitVec.eq_of_getLsbD_eq
  intro k hk
  simp only [leWord, getLsbD_append_byte, BitVec.getLsbD_extractLsb']
  split
  · simp [*]
  · split
    · rename_i h1 h2; simp only [h2, decide_true, Bool.true_and]; congr 1; omega
    · split
      · rename_i h1 h2 h3; simp only [h3, decide_true, Bool.true_and]; congr 1; omega
      · rename_i h1 h2 h3
        rw [decide_eq_true (show k - 8 - 8 - 8 < 8 by omega), Bool.true_and]; congr 1; omega

@[simp] theorem length_wordBytes (w : Word) : (wordBytes w).length = 4 := rfl

/-! ### Pieces of a byte string -/

/-- With enough fuel the pieces do not depend on it. -/
theorem chunksUpTo_eq (n m : Nat) (xs : List Byte) (hn : xs.length ≤ n) (hm : xs.length ≤ m) :
    chunksUpTo n xs = chunksUpTo m xs := by
  induction n generalizing m xs with
  | zero => rw [List.length_eq_zero_iff.mp (Nat.le_zero.mp hn)]; cases m <;> rfl
  | succ n ih =>
    cases xs with
    | nil => cases m <;> rfl
    | cons x xs =>
      cases m with
      | zero => simp at hm
      | succ m =>
        simp only [List.length_cons] at hn hm
        simp only [chunksUpTo]
        rw [ih m _ (by simp; omega) (by simp; omega)]

@[simp] theorem chunks16_nil : chunks16 [] = [] := rfl

/-- The first piece and the rest (R234). -/
theorem chunks16_eq {xs : List Byte} (h : xs ≠ []) : chunks16 xs = xs.take 16 :: chunks16 (xs.drop 16) := by
  cases xs with
  | nil => exact absurd rfl h
  | cons x xs =>
    rw [chunks16, List.length_cons, chunksUpTo, chunks16]
    rw [chunksUpTo_eq xs.length ((x :: xs).drop 16).length _ (by simp) (Nat.le_refl _)]

/-- The pieces joined again. -/
theorem flatten_chunks16 (xs : List Byte) : (chunks16 xs).flatten = xs := by
  induction hn : xs.length using Nat.strong_induction_on generalizing xs with
  | _ n ih =>
    by_cases h : xs = []
    · subst h; rfl
    · have hp := List.length_pos_iff.mpr h
      rw [chunks16_eq h, List.flatten_cons, ih _ (by simp; omega) (xs.drop 16) rfl, List.take_append_drop]

@[simp] theorem length_xorBytes (a b : List Byte) : (xorBytes a b).length = min a.length b.length := by
  simp [xorBytes]

/-- XOR with the same bytes twice (R234). -/
theorem xorBytes_xorBytes (a k : List Byte) (h : a.length ≤ k.length) : xorBytes (xorBytes a k) k = a := by
  induction a generalizing k with
  | nil => rfl
  | cons x a ih =>
    cases k with
    | nil => simp at h
    | cons y k =>
      have := ih k (by simpa using h)
      simp only [xorBytes] at this ⊢
      simp [this]

end Sys2Proof
end

