-- ==== Sys2Proof/Laws/Memory.lean ====
section
/-! SUPPORT. Engine memory: a read after a write, the bytes of a range, the canonical form, and admission. -/

namespace Sys2Proof.Machine

/-! ### Single bytes -/

theorem risesFrom_mono {lo lo' : Nat} {m : Memory} (h : m.risesFrom lo = true) (hle : lo' ≤ lo) :
    m.risesFrom lo' = true := by
  cases m with
  | nil => rfl
  | cons c m =>
    simp only [Memory.risesFrom, Bool.and_eq_true, decide_eq_true_eq] at h ⊢
    exact ⟨by omega, h.2⟩

/-- Below its first address a memory reads as unlisted. -/
theorem read_below {lo a : Nat} {m : Memory} (h : m.risesFrom lo = true) (ha : a < lo) : m.read a = memFill := by
  induction m generalizing lo with
  | nil => rfl
  | cons c m ih =>
    simp only [Memory.risesFrom, Bool.and_eq_true, decide_eq_true_eq] at h
    have hne : c.1 ≠ a := by omega
    simp only [Memory.read, hne, if_false]
    exact ih h.2 (by omega)

/-- A read after a write (R72), for a memory whose addresses rise. -/
theorem read_write {m : Memory} {lo : Nat} (h : m.risesFrom lo = true) (a a' : Nat) (b : Byte) :
    (m.write a b).read a' = if a' = a then b else m.read a' := by
  induction m generalizing lo with
  | nil =>
    by_cases hb : b = memFill
    · simp [Memory.write, hb, Memory.read]
    · by_cases e : a' = a
      · subst e; simp [Memory.write, hb, Memory.read]
      · simp [Memory.write, hb, Memory.read, e, Ne.symm e]
  | cons c m ih =>
    obtain ⟨k, x⟩ := c
    simp only [Memory.risesFrom, Bool.and_eq_true, decide_eq_true_eq] at h
    simp only [Memory.write]
    by_cases h1 : a < k
    · have hbelow : Memory.read ((k, x) :: m) a = memFill := by
        simp only [Memory.read, show ¬ k = a by omega, if_false]
        exact read_below h.2 (by omega)
      by_cases hb : b = memFill
      · simp only [h1, hb, if_true]
        by_cases e : a' = a
        · subst e; simp [hbelow]
        · simp [e]
      · simp only [h1, hb, if_true, if_false]
        by_cases e : a' = a
        · subst e; simp [Memory.read]
        · simp [Memory.read, e, Ne.symm e]
    · by_cases h2 : a = k
      · subst h2
        by_cases hb : b = memFill
        · simp only [h1, hb, if_false, if_true]
          by_cases e : a' = a
          · subst e; simp [read_below h.2]
          · simp [Memory.read, e, Ne.symm e]
        · simp only [h1, hb, if_false, if_true]
          by_cases e : a' = a
          · subst e; simp [Memory.read]
          · simp [Memory.read, e, Ne.symm e]
      · simp only [h1, h2, if_false, Memory.read]
        by_cases e : k = a'
        · subst e; simp [Ne.symm h2]
        · simp only [e, if_false]; exact ih h.2

theorem risesFrom_write {m : Memory} {lo : Nat} (h : m.risesFrom lo = true) (a : Nat) (b : Byte) :
    (m.write a b).risesFrom (min lo a) = true := by
  induction m generalizing lo with
  | nil => simp only [Memory.write]; split <;> simp [Memory.risesFrom]
  | cons c m ih =>
    obtain ⟨k, x⟩ := c
    have hc := h
    simp only [Memory.risesFrom, Bool.and_eq_true, decide_eq_true_eq] at h
    simp only [Memory.write]
    by_cases h1 : a < k
    · by_cases hb : b = memFill
      · simp only [h1, hb, if_true]; exact risesFrom_mono hc (by omega)
      · simp only [h1, hb, if_true, if_false, Memory.risesFrom, Bool.and_eq_true, decide_eq_true_eq]
        exact ⟨by omega, by omega, h.2⟩
    · by_cases h2 : a = k
      · subst h2
        by_cases hb : b = memFill
        · simp only [h1, hb, if_true, if_false]; exact risesFrom_mono h.2 (by omega)
        · simp only [h1, hb, if_true, if_false, Memory.risesFrom, Bool.and_eq_true, decide_eq_true_eq]
          exact ⟨by omega, h.2⟩
      · simp only [h1, h2, if_false, Memory.risesFrom, Bool.and_eq_true, decide_eq_true_eq]
        exact ⟨by omega, risesFrom_mono (ih h.2) (by omega)⟩

theorem all_write {p : Host.Cell → Bool} {m : Memory} (h : m.all p = true) (a : Nat) (b : Byte)
    (hp : b ≠ memFill → p (a, b) = true) : (m.write a b).all p = true := by
  induction m with
  | nil =>
    simp only [Memory.write]
    split
    · rfl
    · rename_i hb; simp [hp hb]
  | cons c m ih =>
    obtain ⟨k, x⟩ := c
    simp only [List.all_cons, Bool.and_eq_true] at h
    simp only [Memory.write]
    split
    · split
      · simp [h.1, h.2]
      · rename_i hb; simp [hp hb, h.1, h.2]
    · split
      · split
        · exact h.2
        · rename_i hb; simp [hp hb, h.2]
      · simp [h.1, ih h.2]

theorem wf_rises {m : Memory} (h : m.wf = true) : m.risesFrom 0 = true := by
  simp only [Memory.wf, Bool.and_eq_true] at h; exact h.1

/-- A write inside the address space keeps the canonical form. -/
theorem wf_write {m : Memory} (h : m.wf = true) {a : Nat} (ha : a < 2 ^ 32) (b : Byte) : (m.write a b).wf = true := by
  simp only [Memory.wf, Bool.and_eq_true] at h ⊢
  refine ⟨risesFrom_mono (risesFrom_write h.1 a b) (by omega), all_write h.2 a b ?_⟩
  intro hb; simp only [decide_eq_true ha, Bool.true_and, bne_iff_ne, ne_eq]; exact hb

/-! ### Ranges -/

@[simp] theorem length_readBytes (m : Memory) (a n : Nat) : (m.readBytes a n).length = n := by
  induction n generalizing a with
  | zero => rfl
  | succ n ih => simp [Memory.readBytes, ih]

/-- Byte `i` of `MemRead(a, n)` (R72). -/
theorem readBytes_getD (m : Memory) (a n i : Nat) (h : i < n) : (m.readBytes a n).getD i 0 = m.read (a + i) := by
  induction n generalizing a i with
  | zero => omega
  | succ n ih =>
    cases i with
    | zero => simp [Memory.readBytes]
    | succ i =>
      rw [Memory.readBytes, List.getD_cons_succ, ih _ _ (by omega)]
      congr 1; omega

theorem risesFrom_writeBytes {m : Memory} {lo : Nat} (h : m.risesFrom lo = true) (a : Nat) (bs : List Byte) :
    (m.writeBytes a bs).risesFrom 0 = true := by
  induction bs generalizing m lo a with
  | nil => exact risesFrom_mono h (Nat.zero_le _)
  | cons b bs ih => exact ih (risesFrom_write h a b) (a + 1)

/-- A byte after `MemWrite(a, len(B), B)` (R72). -/
theorem read_writeBytes {m : Memory} {lo : Nat} (h : m.risesFrom lo = true) (a : Nat) (bs : List Byte) (a' : Nat) :
    (m.writeBytes a bs).read a' = if a ≤ a' ∧ a' < a + bs.length then bs.getD (a' - a) 0 else m.read a' := by
  induction bs generalizing m lo a with
  | nil => rw [if_neg (by simp only [List.length_nil]; omega)]; rfl
  | cons b bs ih =>
    rw [Memory.writeBytes, ih (risesFrom_write h a b), read_write h]
    by_cases e : a' = a
    · subst e; simp
    · by_cases h2 : a + 1 ≤ a' ∧ a' < a + 1 + bs.length
      · obtain ⟨d, rfl⟩ := Nat.exists_eq_add_of_le h2.1
        have e1 : a + 1 + d - (a + 1) = d := by omega
        have e2 : a + 1 + d - a = d + 1 := by omega
        have e3 : a ≤ a + 1 + d ∧ a + 1 + d < a + (bs.length + 1) := by omega
        rw [if_pos h2, e1]
        simp only [List.length_cons, if_pos e3, e2, List.getD_cons_succ]
      · have e3 : ¬ (a ≤ a' ∧ a' < a + (bs.length + 1)) := by omega
        simp only [List.length_cons, if_neg h2, if_neg e3, e, if_false]

/-- `MemWrite` inside the address space keeps the canonical form. -/
theorem wf_writeBytes {m : Memory} (h : m.wf = true) (a : Nat) (bs : List Byte) (hb : a + bs.length ≤ 2 ^ 32) :
    (m.writeBytes a bs).wf = true := by
  induction bs generalizing m a with
  | nil => exact h
  | cons b bs ih =>
    simp only [List.length_cons] at hb
    exact ih (wf_write h (by omega) b) (a + 1) (by omega)

/-! ### Admission -/

theorem allFrom_iff (p : Nat → Bool) (a n : Nat) : allFrom p a n = true ↔ ∀ i < n, p (a + i) = true := by
  induction n generalizing a with
  | zero => simp [allFrom]
  | succ n ih =>
    rw [allFrom, Bool.and_eq_true, ih]
    constructor
    · rintro ⟨h0, h⟩ i hi
      cases i with
      | zero => exact h0
      | succ i => have := h i (by omega); rwa [show a + 1 + i = a + (i + 1) by omega] at this
    · intro h
      refine ⟨h 0 (by omega), fun i hi => ?_⟩
      have := h (i + 1) (by omega); rwa [show a + (i + 1) = a + 1 + i by omega] at this

/-- An admitted write range stays inside the address space (R71). -/
theorem admittedWrite_le {c : Config} {a n : Nat} (h : admittedWrite c a n = true) (hn : n ≠ 0) : a + n ≤ 2 ^ 32 := by
  simp [admittedWrite, hn] at h; omega

end Sys2Proof.Machine
end

