-- ==== Sys2Proof/Laws/State.lean ====
section
/-! SUPPORT. One lemma per field per update of `State`, so that no later proof unfolds a record update. -/

namespace Sys2Proof.Machine

/-! ### `setV` -/

@[simp] theorem setV_ks (s : State) (k : Nat) (x : Block) : (s.setV k x).ks = s.ks := rfl
@[simp] theorem setV_cp (s : State) (k : Nat) (x : Block) : (s.setV k x).cp = s.cp := rfl
@[simp] theorem setV_errPtr (s : State) (k : Nat) (x : Block) : (s.setV k x).errPtr = s.errPtr := rfl
@[simp] theorem setV_phase (s : State) (k : Nat) (x : Block) : (s.setV k x).phase = s.phase := rfl
@[simp] theorem setV_done (s : State) (k : Nat) (x : Block) : (s.setV k x).done = s.done := rfl
@[simp] theorem setV_err (s : State) (k : Nat) (x : Block) : (s.setV k x).err = s.err := rfl
@[simp] theorem setV_auth (s : State) (k : Nat) (x : Block) : (s.setV k x).auth = s.auth := rfl
@[simp] theorem setV_errCode (s : State) (k : Nat) (x : Block) : (s.setV k x).errCode = s.errCode := rfl
@[simp] theorem setV_zof (s : State) (k : Nat) (x : Block) : (s.setV k x).zof = s.zof := rfl
@[simp] theorem setV_mem (s : State) (k : Nat) (x : Block) : (s.setV k x).mem = s.mem := rfl
@[simp] theorem setV_cfg (s : State) (k : Nat) (x : Block) : (s.setV k x).cfg = s.cfg := rfl
@[simp] theorem setV_slot (s : State) (k : Nat) (x : Block) (j : SlotIx) : (s.setV k x).slot j = s.slot j := rfl

/-- Everything a register write changes. -/
theorem setV_eq (s : State) (k : Nat) (x : Block) : s.setV k x = { s with v := (s.setV k x).v } := rfl

/-- A register reads as it was last written (R43). -/
theorem vAt_setV (s : State) (k j : Nat) (x : Block) :
    (s.setV k x).vAt j = if k = j ∧ j < 16 then x else s.vAt j := by
  simp only [State.vAt, State.setV, Vector.getElem?_setIfInBounds]
  by_cases h : k = j
  · subst h
    by_cases h2 : k < 16
    · simp [h2]
    · simp [h2]
  · simp [h]

@[simp] theorem vAt_setV_self (s : State) (k : VReg) (x : Block) : (s.setV k x).vAt k = x := by
  simp [vAt_setV, k.isLt]

theorem vAt_setV_ne (s : State) {k j : Nat} (h : k ≠ j) (x : Block) : (s.setV k x).vAt j = s.vAt j := by
  simp [vAt_setV, h]

/-! ### `setGroup` -/

/-- Everything a group write changes. -/
theorem setGroup_eq (s : State) (k : Nat) (xs : List Block) :
    s.setGroup k xs = { s with v := (s.setGroup k xs).v } := by
  induction xs generalizing s k with
  | nil => rfl
  | cons x xs ih => rw [State.setGroup, ih]; rfl

/-- A register after a group write: the element written to it, or its old value (R107). -/
theorem vAt_setGroup (s : State) (k : Nat) (xs : List Block) (j : Nat) (hj : j < 16) :
    (s.setGroup k xs).vAt j = if k ≤ j ∧ j < k + xs.length then xs.getD (j - k) 0 else s.vAt j := by
  induction xs generalizing s k with
  | nil => rw [if_neg (by simp only [List.length_nil]; omega)]; rfl
  | cons x xs ih =>
    rw [State.setGroup, ih, vAt_setV]
    by_cases h : k = j
    · subst h; simp [hj]
    · by_cases h2 : k + 1 ≤ j ∧ j < k + 1 + xs.length
      · obtain ⟨d, rfl⟩ := Nat.exists_eq_add_of_le h2.1
        have e1 : k + 1 + d - (k + 1) = d := by omega
        have e2 : k + 1 + d - k = d + 1 := by omega
        have e3 : k ≤ k + 1 + d ∧ k + 1 + d < k + (xs.length + 1) := by omega
        rw [if_pos h2, e1]
        simp only [List.length_cons, if_pos e3, e2, List.getD_cons_succ]
      · have e3 : ¬ (k ≤ j ∧ j < k + (xs.length + 1)) := by omega
        simp only [List.length_cons, if_neg h2, if_neg e3, h, false_and, if_false]

/-- Element `i` of a group that is read (R107). -/
theorem vGroup_getD (s : State) (k n i : Nat) (h : i < n) : (s.vGroup k n).getD i 0 = s.vAt (k + i) := by
  simp [State.vGroup, List.getD_eq_getElem?_getD, h]

@[simp] theorem vGroup_length (s : State) (k n : Nat) : (s.vGroup k n).length = n := by simp [State.vGroup]

/-! ### `setSlot` -/

@[simp] theorem setSlot_v (s : State) (k : SlotIx) (x : KeySlot) : (s.setSlot k x).v = s.v := rfl
@[simp] theorem setSlot_cp (s : State) (k : SlotIx) (x : KeySlot) : (s.setSlot k x).cp = s.cp := rfl
@[simp] theorem setSlot_mem (s : State) (k : SlotIx) (x : KeySlot) : (s.setSlot k x).mem = s.mem := rfl
@[simp] theorem setSlot_cfg (s : State) (k : SlotIx) (x : KeySlot) : (s.setSlot k x).cfg = s.cfg := rfl

/-- Everything a slot write changes. -/
theorem setSlot_eq (s : State) (k : SlotIx) (x : KeySlot) : s.setSlot k x = { s with ks := (s.setSlot k x).ks } := rfl

/-- A slot reads as it was last written (R45). -/
theorem slot_setSlot (s : State) (k j : SlotIx) (x : KeySlot) :
    (s.setSlot k x).slot j = if k = j then x else s.slot j := by
  simp only [State.slot, State.setSlot]
  by_cases h : k = j
  · subst h; simp
  · simp [h, Fin.val_ne_of_ne h]

/-! ### `store`, `errorStop`, `advance`, `endRunDone`, `clearError` -/

@[simp] theorem store_v (s : State) (a : Word) (bs : List Byte) : (s.store a bs).v = s.v := rfl
@[simp] theorem store_ks (s : State) (a : Word) (bs : List Byte) : (s.store a bs).ks = s.ks := rfl
@[simp] theorem store_cp (s : State) (a : Word) (bs : List Byte) : (s.store a bs).cp = s.cp := rfl
@[simp] theorem store_auth (s : State) (a : Word) (bs : List Byte) : (s.store a bs).auth = s.auth := rfl
@[simp] theorem store_zof (s : State) (a : Word) (bs : List Byte) : (s.store a bs).zof = s.zof := rfl
@[simp] theorem store_cfg (s : State) (a : Word) (bs : List Byte) : (s.store a bs).cfg = s.cfg := rfl
@[simp] theorem store_mem (s : State) (a : Word) (bs : List Byte) :
    (s.store a bs).mem = s.mem.writeBytes a.toNat bs := rfl

/-- Everything a store changes. -/
theorem store_eq (s : State) (a : Word) (bs : List Byte) : s.store a bs = { s with mem := (s.store a bs).mem } := rfl

@[simp] theorem errorStop_v (e : ErrCode) (s : State) : (errorStop e s).v = s.v := rfl
@[simp] theorem errorStop_ks (e : ErrCode) (s : State) : (errorStop e s).ks = s.ks := rfl
@[simp] theorem errorStop_cp (e : ErrCode) (s : State) : (errorStop e s).cp = s.cp := rfl
@[simp] theorem errorStop_errPtr (e : ErrCode) (s : State) : (errorStop e s).errPtr = s.cp := rfl
@[simp] theorem errorStop_phase (e : ErrCode) (s : State) : (errorStop e s).phase = .idle := rfl
@[simp] theorem errorStop_err (e : ErrCode) (s : State) : (errorStop e s).err = true := rfl
@[simp] theorem errorStop_errCode (e : ErrCode) (s : State) : (errorStop e s).errCode = e.code := rfl
@[simp] theorem errorStop_done (e : ErrCode) (s : State) : (errorStop e s).done = s.done := rfl
@[simp] theorem errorStop_auth (e : ErrCode) (s : State) : (errorStop e s).auth = s.auth := rfl
@[simp] theorem errorStop_mem (e : ErrCode) (s : State) : (errorStop e s).mem = s.mem := rfl
@[simp] theorem errorStop_cfg (e : ErrCode) (s : State) : (errorStop e s).cfg = s.cfg := rfl

@[simp] theorem advance_v (s : State) : (advance s).v = s.v := rfl
@[simp] theorem advance_ks (s : State) : (advance s).ks = s.ks := rfl
@[simp] theorem advance_cp (s : State) : (advance s).cp = s.cp + 64 := rfl
@[simp] theorem advance_errPtr (s : State) : (advance s).errPtr = s.errPtr := rfl
@[simp] theorem advance_phase (s : State) : (advance s).phase = s.phase := rfl
@[simp] theorem advance_done (s : State) : (advance s).done = s.done := rfl
@[simp] theorem advance_err (s : State) : (advance s).err = s.err := rfl
@[simp] theorem advance_errCode (s : State) : (advance s).errCode = s.errCode := rfl
@[simp] theorem advance_auth (s : State) : (advance s).auth = s.auth := rfl
@[simp] theorem advance_mem (s : State) : (advance s).mem = s.mem := rfl
@[simp] theorem advance_cfg (s : State) : (advance s).cfg = s.cfg := rfl
@[simp] theorem advance_vAt (s : State) (k : Nat) : (advance s).vAt k = s.vAt k := rfl
@[simp] theorem advance_slot (s : State) (k : SlotIx) : (advance s).slot k = s.slot k := rfl

@[simp] theorem endRunDone_v (s : State) : (endRunDone s).v = s.v := rfl
@[simp] theorem endRunDone_cp (s : State) : (endRunDone s).cp = s.cp := rfl
@[simp] theorem endRunDone_phase (s : State) : (endRunDone s).phase = .idle := rfl
@[simp] theorem endRunDone_done (s : State) : (endRunDone s).done = true := rfl
@[simp] theorem endRunDone_mem (s : State) : (endRunDone s).mem = s.mem := rfl

@[simp] theorem clearError_err (s : State) : (clearError s).err = false := rfl
@[simp] theorem clearError_errCode (s : State) : (clearError s).errCode = 0 := rfl
@[simp] theorem clearError_errPtr (s : State) : (clearError s).errPtr = s.errPtr := rfl

/-! ### `noteFetch`, `noteCommand` -/

/-- Everything the notes of a step change. -/
theorem noteFetch_eq (s t : State) : noteFetch s t = { t with runReads := (noteFetch s t).runReads } := rfl

/-- Everything the notes of a command change. -/
theorem noteCommand_eq (i : Instr) (t : State) :
    noteCommand i t = { t with runReads := (noteCommand i t).runReads, runWrites := (noteCommand i t).runWrites } := by
  unfold noteCommand; split <;> rfl

@[simp] theorem noteFetch_phase (s t : State) : (noteFetch s t).phase = t.phase := rfl
@[simp] theorem noteFetch_mem (s t : State) : (noteFetch s t).mem = t.mem := rfl
@[simp] theorem noteFetch_cp (s t : State) : (noteFetch s t).cp = t.cp := rfl
@[simp] theorem noteFetch_errPtr (s t : State) : (noteFetch s t).errPtr = t.errPtr := rfl
@[simp] theorem noteFetch_done (s t : State) : (noteFetch s t).done = t.done := rfl
@[simp] theorem noteFetch_err (s t : State) : (noteFetch s t).err = t.err := rfl
@[simp] theorem noteFetch_runReads (s t : State) : (noteFetch s t).runReads = fetchRanges s ++ t.runReads := rfl
@[simp] theorem noteFetch_runWrites (s t : State) : (noteFetch s t).runWrites = t.runWrites := rfl
@[simp] theorem noteCommand_phase (i : Instr) (t : State) : (noteCommand i t).phase = t.phase := by rw [noteCommand_eq]
@[simp] theorem noteCommand_mem (i : Instr) (t : State) : (noteCommand i t).mem = t.mem := by rw [noteCommand_eq]
@[simp] theorem noteCommand_cp (i : Instr) (t : State) : (noteCommand i t).cp = t.cp := by rw [noteCommand_eq]
@[simp] theorem noteCommand_errPtr (i : Instr) (t : State) : (noteCommand i t).errPtr = t.errPtr := by
  rw [noteCommand_eq]
@[simp] theorem noteCommand_done (i : Instr) (t : State) : (noteCommand i t).done = t.done := by rw [noteCommand_eq]
@[simp] theorem noteCommand_err (i : Instr) (t : State) : (noteCommand i t).err = t.err := by rw [noteCommand_eq]

/-! ### `resetBlock` -/

@[simp] theorem resetBlock_mem (s : State) : (resetBlock s).mem = s.mem := rfl
@[simp] theorem resetBlock_cfg (s : State) : (resetBlock s).cfg = s.cfg := rfl
@[simp] theorem resetBlock_phase (s : State) : (resetBlock s).phase = .idle := rfl
@[simp] theorem resetBlock_cp (s : State) : (resetBlock s).cp = 0 := rfl
@[simp] theorem resetBlock_v (s : State) : (resetBlock s).v = Vector.replicate 16 0 := rfl
@[simp] theorem resetBlock_slot (s : State) (k : SlotIx) : (resetBlock s).slot k = KeySlot.empty := by
  simp [State.slot, resetBlock, State.reset]

end Sys2Proof.Machine
end

