-- ==== Sys2Proof/Laws/Command.lean ====
section
/-! SUPPORT. Everything a command and a step of the machine can do, said once. -/

namespace Sys2Proof.Machine

/-! ### Commands -/

@[simp] theorem firstError_nil : firstError [] = none := rfl

theorem firstError_cons (b : Bool) (e : ErrCode) (cs : List (Bool × ErrCode)) :
    firstError ((b, e) :: cs) = if b then some e else firstError cs := rfl

/-- No check fails. -/
theorem firstError_eq_none {cs : List (Bool × ErrCode)} : firstError cs = none ↔ ∀ c ∈ cs, c.1 = false := by
  induction cs with
  | nil => simp
  | cons c cs ih => obtain ⟨b, e⟩ := c; cases b <;> simp [firstError_cons, ih]

/-- The first failing check is one of the list, and it fails. -/
theorem firstError_mem {cs : List (Bool × ErrCode)} {e : ErrCode} (h : firstError cs = some e) : (true, e) ∈ cs := by
  induction cs with
  | nil => simp at h
  | cons c cs ih =>
    obtain ⟨b, e'⟩ := c
    cases b with
    | true => simp [firstError_cons] at h; simp [h]
    | false => simp [firstError_cons] at h; simp [ih h]

theorem command_ok {cs : List (Bool × ErrCode)} (h : firstError cs = none) (f : State → State) (s : State) :
    command cs f s = .next (advance (f s)) := by simp [command, h]

theorem command_error {cs : List (Bool × ErrCode)} {e : ErrCode} (h : firstError cs = some e) (f : State → State)
    (s : State) : command cs f s = .next (errorStop e s) := by simp [command, h]

/-- All a command can do (R12): its effect with no check failing, or the error stop of a check that fails. -/
theorem command_next {cs : List (Bool × ErrCode)} {f : State → State} {s t : State}
    (h : command cs f s = .next t) :
    ((∀ c ∈ cs, c.1 = false) ∧ t = advance (f s)) ∨ ∃ e, (true, e) ∈ cs ∧ t = errorStop e s := by
  unfold command at h
  split at h
  · rename_i e he; cases h; exact .inr ⟨e, firstError_mem he, rfl⟩
  · rename_i hn; cases h; exact .inl ⟨firstError_eq_none.mp hn, rfl⟩

/-! ### Checks -/

@[simp] theorem groupCheck_fst (gs : List (VReg × Nat)) : (groupCheck gs).1 = gs.any fun g => pastV15 g.1 g.2 := rfl
@[simp] theorem platformCheck_fst (s : State) : (platformCheck s).1 = !s.cfg.hasCrypto := rfl
@[simp] theorem keyCheck_fst (bits : List Bool) : (keyCheck bits).1 = !bits.all id := rfl
@[simp] theorem busCheck_fst (s : State) (i : Instr) : (busCheck s i).1 = !rangesAdmitted s.cfg i := rfl
@[simp] theorem groupCheck_snd (gs : List (VReg × Nat)) : (groupCheck gs).2 = .illegal := rfl
@[simp] theorem platformCheck_snd (s : State) : (platformCheck s).2 = .platform := rfl
@[simp] theorem keyCheck_snd (bits : List Bool) : (keyCheck bits).2 = .key := rfl
@[simp] theorem busCheck_snd (s : State) (i : Instr) : (busCheck s i).2 = .bus := rfl

/-! ### The step -/

theorem engineStep_idle {s : State} (h : s.phase = .idle) : engineStep s = .next s := by simp [engineStep, h]

/-- All an Engine step can do (R332). -/
theorem engineStep_next {s t : State} (h : engineStep s = .next t) :
    (s.phase = .idle ∧ t = s) ∨
    (s.phase = .running ∧ ∃ i u, fetch s = .ok i ∧ exec i s = .next u ∧ t = noteFetch s (noteCommand i u)) ∨
    (s.phase = .running ∧ ∃ e, fetch s = .error e ∧ t = noteFetch s (errorStop e s)) := by
  unfold engineStep at h
  split at h
  · rename_i hp; cases h; exact .inl ⟨hp, rfl⟩
  · rename_i hp
    split at h
    · rename_i i hf
      split at h
      · rename_i u hu; cases h; exact .inr (.inl ⟨hp, i, u, hf, hu, rfl⟩)
      · cases h
      · cases h
    · rename_i e hf; cases h; exact .inr (.inr ⟨hp, e, hf, rfl⟩)

/-- All a turn can do (R333). -/
theorem takeTurn_next {u : Turn} {s t : State} (h : takeTurn u s = .next t) :
    (u = .engine ∧ engineStep s = .next t) ∨
    (∃ off width, u = .regRead off width ∧ t = hostRegRead off width s) ∨
    (∃ off width x, u = .regWrite off width x ∧ t = hostRegWrite off width x s) ∨
    (∃ a, u = .memRead a ∧ t = hostMemRead a s) ∨
    (∃ a b, u = .memWrite a b ∧ breaksHostDuty a s = false ∧ t = hostMemWrite a b s) ∨
    (u = .powerOn ∧ t = powerOnReset s) := by
  cases u with
  | engine => exact .inl ⟨rfl, h⟩
  | regRead off width => cases h; exact .inr (.inl ⟨_, _, rfl, rfl⟩)
  | regWrite off width x => cases h; exact .inr (.inr (.inl ⟨_, _, _, rfl, rfl⟩))
  | memRead a => cases h; exact .inr (.inr (.inr (.inl ⟨_, rfl, rfl⟩)))
  | memWrite a b =>
    simp only [takeTurn] at h
    split at h
    · cases h
    · rename_i hb; cases h
      exact .inr (.inr (.inr (.inr (.inl ⟨_, _, rfl, by simpa using hb, rfl⟩))))
  | powerOn => cases h; exact .inr (.inr (.inr (.inr (.inr ⟨rfl, rfl⟩))))

/-- All a step can do (R333). -/
theorem step_next {s t : State} (h : step s = .next t) :
    (s.turns = [] ∧ engineStep s = .next t) ∨
    ∃ u us, s.turns = u :: us ∧ takeTurn u { s with turns := us } = .next t := by
  unfold step at h
  split at h
  · rename_i hn; exact .inl ⟨hn, h⟩
  · rename_i u us hc; exact .inr ⟨u, us, hc, h⟩

end Sys2Proof.Machine
end

