-- ==== Sys2Proof/Laws/Decode.lean ====
section
/-! SUPPORT. The fields of the headers that the encoder writes, and the words of a descriptor's bytes. -/

namespace Sys2Proof

/-! ### Fields of concatenations -/

theorem extract_append_high {n m : Nat} (x : BitVec n) (y : BitVec m) (s l : Nat) :
    (x ++ y).extractLsb' (m + s) l = x.extractLsb' s l := by
  apply BitVec.eq_of_getLsbD_eq
  intro j hj
  have h : ¬ m + s + j < m := by omega
  have e : m + s + j - m = s + j := by omega
  simp only [BitVec.getLsbD_extractLsb', BitVec.getLsbD_append, if_neg h, e]

theorem extract_append_low {n m : Nat} (x : BitVec n) (y : BitVec m) : (x ++ y).extractLsb' 0 m = y := by
  apply BitVec.eq_of_getLsbD_eq
  intro j hj
  simp [BitVec.getLsbD_append, hj]

/-! ### Format R -/

section RHeader
variable (o : Opcode) (vd va vb : VReg) (ks : SlotIx) (n : BitVec 2)

theorem rHeader_opcode : (rHeader o vd va vb ks n).extractLsb' 0 8 = o.code := extract_append_low _ _

theorem rHeader_vd : nib (rHeader o vd va vb ks n) 8 = vd :=
  congrArg BitVec.toFin (show (rHeader o vd va vb ks n).extractLsb' (8 + 0) 4 = BitVec.ofFin (w := 4) vd by
    rw [rHeader, extract_append_high, extract_append_low])

theorem rHeader_va : nib (rHeader o vd va vb ks n) 12 = va :=
  congrArg BitVec.toFin (show (rHeader o vd va vb ks n).extractLsb' (8 + (4 + 0)) 4 = BitVec.ofFin (w := 4) va by
    rw [rHeader, extract_append_high, extract_append_high, extract_append_low])

theorem rHeader_vb : nib (rHeader o vd va vb ks n) 16 = vb :=
  congrArg BitVec.toFin (show (rHeader o vd va vb ks n).extractLsb' (8 + (4 + (4 + 0))) 4 = BitVec.ofFin (w := 4) vb by
    rw [rHeader, extract_append_high, extract_append_high, extract_append_high, extract_append_low])

theorem rHeader_ks : nib (rHeader o vd va vb ks n) 20 = ks :=
  congrArg BitVec.toFin (show (rHeader o vd va vb ks n).extractLsb' (8 + (4 + (4 + (4 + 0)))) 4
      = BitVec.ofFin (w := 4) ks by
    rw [rHeader, extract_append_high, extract_append_high, extract_append_high, extract_append_high,
      extract_append_low])

theorem rHeader_n : (rHeader o vd va vb ks n).extractLsb' 24 2 = n := by
  rw [rHeader, show 24 = 8 + (4 + (4 + (4 + (4 + 0)))) from rfl, extract_append_high, extract_append_high,
    extract_append_high, extract_append_high, extract_append_high, extract_append_low]

end RHeader

/-! ### Format M -/

section MHeader
variable (o : Opcode) (ks ks2 : SlotIx) (tlen : BitVec 5) (fl0 fl1 : Bool)

theorem mHeader_opcode : (mHeader o ks ks2 tlen fl0 fl1).extractLsb' 0 8 = o.code := extract_append_low _ _

theorem mHeader_ks : nib (mHeader o ks ks2 tlen fl0 fl1) 8 = ks :=
  congrArg BitVec.toFin (show (mHeader o ks ks2 tlen fl0 fl1).extractLsb' (8 + 0) 4 = BitVec.ofFin (w := 4) ks by
    rw [mHeader, extract_append_high, extract_append_low])

theorem mHeader_ks2 : nib (mHeader o ks ks2 tlen fl0 fl1) 12 = ks2 :=
  congrArg BitVec.toFin (show (mHeader o ks ks2 tlen fl0 fl1).extractLsb' (8 + (4 + 0)) 4
      = BitVec.ofFin (w := 4) ks2 by
    rw [mHeader, extract_append_high, extract_append_high, extract_append_low])

theorem mHeader_tlen : tlenOf (mHeader o ks ks2 tlen fl0 fl1) = tlen :=
  show (mHeader o ks ks2 tlen fl0 fl1).extractLsb' (8 + (4 + (4 + 0))) 5 = tlen by
    rw [mHeader, extract_append_high, extract_append_high, extract_append_high, extract_append_low]

end MHeader

/-! ### Words of a descriptor -/

/-- The words of the bytes of four words and more (R100). -/
theorem wordAt_wordBytes (w : Word) (d : List Byte) : wordAt (wordBytes w ++ d) 0 = w := leWord_bytes w

theorem wordAt_append (w : Word) (d : List Byte) (k : Nat) : wordAt (wordBytes w ++ d) (k + 1) = wordAt d k := by
  have e : ∀ j, 4 * (k + 1) + j = (4 * k + j) + 1 + 1 + 1 + 1 := by intro j; omega
  simp only [wordAt, wordBytes, List.cons_append, List.nil_append, e]
  rw [show 4 * (k + 1) = 4 * k + 1 + 1 + 1 + 1 by omega]
  simp only [List.getD_cons_succ]

end Sys2Proof
end

