-- ==== Sys2Proof/Laws/Exec.lean ====
section
/-! SUPPORT. Every command as one list of checks and one effect, and when its checks pass. -/

namespace Sys2Proof.Machine

/-- The checks of a command, in its own order (R361). -/
def checksOf (i : Instr) (s : State) : List (Bool × ErrCode) :=
  match i with
  | .nop => []
  | .halt => []
  | .kexp _ _ _ _ klen => [platformCheck s, (badKeyLen klen, .keyLen), busCheck s i]
  | .krk _ ks dir j =>
    [platformCheck s, keyCheck [dirValid (s.slot ks) dir], (decide ((s.slot ks).nr.toNat < j.val), .arg)]
  | .aese1 vd va ks => [groupCheck [(va, 1), (vd, 1)], platformCheck s, keyCheck [(s.slot ks).ev]]
  | .aese2 vd va ks => [groupCheck [(va, 2), (vd, 2)], platformCheck s, keyCheck [(s.slot ks).ev]]
  | .aese4 vd va ks => [groupCheck [(va, 4), (vd, 4)], platformCheck s, keyCheck [(s.slot ks).ev]]
  | .aese8 vd va ks => [groupCheck [(va, 8), (vd, 8)], platformCheck s, keyCheck [(s.slot ks).ev]]
  | .aesd1 vd va ks => [groupCheck [(va, 1), (vd, 1)], platformCheck s, keyCheck [(s.slot ks).dv]]
  | .aesd2 vd va ks => [groupCheck [(va, 2), (vd, 2)], platformCheck s, keyCheck [(s.slot ks).dv]]
  | .aesd4 vd va ks => [groupCheck [(va, 4), (vd, 4)], platformCheck s, keyCheck [(s.slot ks).dv]]
  | .aesd8 vd va ks => [groupCheck [(va, 8), (vd, 8)], platformCheck s, keyCheck [(s.slot ks).dv]]
  | .gmul _ _ _ => [platformCheck s]
  | .gred4 _ va vb => [groupCheck [(va, 4), (vb, 4)], platformCheck s]
  | .dbl _ _ => [platformCheck s]
  | .dblx _ _ => [platformCheck s]
  | .dblx8 _ _ => [platformCheck s]
  | .vinc32 _ _ => [platformCheck s]
  | .vld _ _ => [busCheck s i]
  | .vst _ _ => [busCheck s i]
  | .vxor _ _ _ => []
  | .gcmEnc ks tlen _ => [platformCheck s, keyCheck [(s.slot ks).ev], (badTagLen tlen, .arg), busCheck s i]
  | .gcmDec ks tlen _ _ => [platformCheck s, keyCheck [(s.slot ks).ev], (badTagLen tlen, .arg), busCheck s i]
  | .ocbEnc ks tlen b => [platformCheck s, keyCheck [(s.slot ks).ev], ocbArgCheck tlen b, busCheck s i]
  | .ocbDec ks tlen b _ =>
    [platformCheck s, keyCheck [(s.slot ks).ev, (s.slot ks).dv], ocbArgCheck tlen b, busCheck s i]
  | .xtsEnc ks kt b =>
    [platformCheck s, keyCheck [(s.slot ks).ev, (s.slot kt).ev], xtsArgCheck (s.slot ks) (s.slot kt) b s, busCheck s i]
  | .xtsDec ks kt b =>
    [platformCheck s, keyCheck [(s.slot ks).dv, (s.slot kt).ev], xtsArgCheck (s.slot ks) (s.slot kt) b s, busCheck s i]

/-- The ciphertext or plaintext pass and the tag of an encryption (R238, R270). -/
def sealedOf (i : Instr) (s : State) : List Byte × List Byte :=
  match i with
  | .gcmEnc ks tlen b =>
    gcmSeal (s.slot ks).enc (s.load b.src b.len) (s.load b.aad b.alen) (s.load b.nonce b.nlen) tlen.toNat
  | .ocbEnc ks tlen b =>
    ocbSeal (s.slot ks).enc (s.load b.src b.len) (s.load b.aad b.alen) (s.load b.nonce b.nlen) tlen.toNat
  | _ => ([], [])

/-- The plaintext and the authenticity of a decryption (R239, R271). -/
def openedOf (i : Instr) (s : State) : List Byte × Bool :=
  match i with
  | .gcmDec ks tlen b _ =>
    gcmOpen (s.slot ks).enc (s.load b.src b.len) (s.load b.aad b.alen) (s.load b.nonce b.nlen) (receivedTag b tlen s)
  | .ocbDec ks tlen b _ =>
    ocbOpen (s.slot ks).enc (s.slot ks).dec (s.load b.src b.len) (s.load b.aad b.alen) (s.load b.nonce b.nlen)
      (receivedTag b tlen s)
  | _ => ([], false)

/-- The effect of a command whose checks pass, but for the advance of CP (R12). -/
def effectOf (i : Instr) (s : State) : State :=
  match i with
  | .nop => s
  | .halt => endRunDone s
  | .kexp ks we wd key klen => s.setSlot ks (buildSlot (s.load key klen) we wd)
  | .krk vd ks dir j => s.setV vd (roundKey (dirKeys (s.slot ks) dir) j.val)
  | .aese1 vd va ks => s.setGroup vd ((s.vGroup va 1).map (s.slot ks).enc)
  | .aese2 vd va ks => s.setGroup vd ((s.vGroup va 2).map (s.slot ks).enc)
  | .aese4 vd va ks => s.setGroup vd ((s.vGroup va 4).map (s.slot ks).enc)
  | .aese8 vd va ks => s.setGroup vd ((s.vGroup va 8).map (s.slot ks).enc)
  | .aesd1 vd va ks => s.setGroup vd ((s.vGroup va 1).map (s.slot ks).dec)
  | .aesd2 vd va ks => s.setGroup vd ((s.vGroup va 2).map (s.slot ks).dec)
  | .aesd4 vd va ks => s.setGroup vd ((s.vGroup va 4).map (s.slot ks).dec)
  | .aesd8 vd va ks => s.setGroup vd ((s.vGroup va 8).map (s.slot ks).dec)
  | .gmul vd va vb => s.setV vd (gfMul (s.vAt va) (s.vAt vb))
  | .gred4 vd va vb => s.setV vd (sumOfProducts (s.vGroup va 4) (s.vGroup vb 4))
  | .dbl vd va => s.setV vd (dblBe (s.vAt va))
  | .dblx vd va => s.setV vd (dblLe (s.vAt va))
  | .dblx8 vd va => s.setV vd (dblLeN 8 (s.vAt va))
  | .vinc32 vd va => s.setV vd (inc32 (s.vAt va))
  | .vld vd addr => s.setV vd (beBlock (s.load addr 16))
  | .vst va addr => s.store addr (blockBytes (s.vAt va))
  | .vxor vd va vb => s.setV vd (s.vAt va ^^^ s.vAt vb)
  | .gcmEnc _ _ b => writeSealed b (sealedOf i s).1 (sealedOf i s).2 s
  | .gcmDec _ _ b res => writeOpened b res (openedOf i s).1 (openedOf i s).2 s
  | .ocbEnc _ _ b => writeSealed b (sealedOf i s).1 (sealedOf i s).2 s
  | .ocbDec _ _ b res => writeOpened b res (openedOf i s).1 (openedOf i s).2 s
  | .xtsEnc ks kt b => xtsApply (xtsEncUnit (s.slot ks).enc) (s.slot kt) b s
  | .xtsDec ks kt b => xtsApply (xtsDecUnit (s.slot ks).dec) (s.slot kt) b s

/-- Every command is one list of checks and one effect. -/
theorem exec_eq_command (i : Instr) (s : State) : exec i s = command (checksOf i s) (effectOf i) s := by
  cases i <;> rfl

/-- A command always answers a next state. -/
theorem exec_next_cases (i : Instr) (s : State) :
    (firstError (checksOf i s) = none ∧ exec i s = .next (advance (effectOf i s))) ∨
    ∃ e, firstError (checksOf i s) = some e ∧ exec i s = .next (errorStop e s) := by
  rw [exec_eq_command]
  cases h : firstError (checksOf i s) with
  | none => exact .inl ⟨rfl, command_ok h _ _⟩
  | some e => exact .inr ⟨e, rfl, command_error h _ _⟩

/-! ### When the checks pass -/

theorem badKeyLen_iff (k : Word) : badKeyLen k = true ↔ k ≠ 16 ∧ k ≠ 24 ∧ k ≠ 32 := by
  simp [badKeyLen, and_assoc]

theorem badTagLen_iff (t : BitVec 5) : badTagLen t = true ↔ TagLenBad t := by
  simp [badTagLen, TagLenBad]

theorem ocbArgCheck_fst (t : BitVec 5) (b : AeadBufs) :
    (ocbArgCheck t b).1 = true ↔ TagLenBad t ∨ 15 < b.nlen.toNat := by
  simp [ocbArgCheck, badTagLen_iff]

theorem xtsArgCheck_fst (k1 k2 : KeySlot) (b : XtsBufs) (s : State) :
    (xtsArgCheck k1 k2 b s).1 = true ↔ XtsArgBad k1 k2 s.cfg b := by
  simp only [xtsArgCheck, XtsArgBad, Bool.or_eq_true, Bool.and_eq_true, decide_eq_true_eq, bne_iff_ne, ne_eq, or_assoc]
  rfl

theorem pastV15_eq (r : VReg) (n : Nat) : pastV15 r n = !groupFits r n := by
  simp only [pastV15, groupFits, ← decide_not, Nat.not_le]

/-- The checks of R361, steps 2 to 6, `bad` standing for `ArgBad`. -/
def checkOrder (i : Instr) (s : State) (bad : Bool) : List (Bool × ErrCode) :=
  [(!i.wellFormed, .illegal), (isCrypto i && !s.cfg.hasCrypto, .platform), (!(requiredKeys i s).all id, .key),
    (bad, argCode i), (!rangesAdmitted s.cfg i, .bus)]

/-- Every command makes the checks of R361 in its order. -/
theorem checksOf_order (i : Instr) (s : State) :
    ∃ bad, (bad = true ↔ ArgBad i s) ∧ firstError (checksOf i s) = firstError (checkOrder i s bad) := by
  have hno : ∀ p : Prop, ¬ p → (false = true ↔ p) := fun p h => by simp [h]
  have hgroup : ∀ (n : Nat) (a b : VReg) (e : Instr), e.wellFormed = (groupFits a n && groupFits b n) →
      groupCheck [(a, n), (b, n)] = (!e.wellFormed, ErrCode.illegal) := by
    intro n a b e h; simp [groupCheck, pastV15_eq, h]
  cases i with
  | nop => exact ⟨false, hno _ id, rfl⟩
  | halt => exact ⟨false, hno _ id, rfl⟩
  | kexp ks we wd key klen =>
    refine ⟨badKeyLen klen, badKeyLen_iff klen, ?_⟩; rfl
  | krk vd ks dir j =>
    refine ⟨decide ((s.slot ks).nr.toNat < j.val), decide_eq_true_iff, ?_⟩
    cases dir <;> rfl
  | aese1 vd va ks => exact ⟨false, hno _ id, by simp only [checksOf, hgroup _ _ _ (.aese1 vd va ks) rfl]; rfl⟩
  | aese2 vd va ks => exact ⟨false, hno _ id, by simp only [checksOf, hgroup _ _ _ (.aese2 vd va ks) rfl]; rfl⟩
  | aese4 vd va ks => exact ⟨false, hno _ id, by simp only [checksOf, hgroup _ _ _ (.aese4 vd va ks) rfl]; rfl⟩
  | aese8 vd va ks => exact ⟨false, hno _ id, by simp only [checksOf, hgroup _ _ _ (.aese8 vd va ks) rfl]; rfl⟩
  | aesd1 vd va ks => exact ⟨false, hno _ id, by simp only [checksOf, hgroup _ _ _ (.aesd1 vd va ks) rfl]; rfl⟩
  | aesd2 vd va ks => exact ⟨false, hno _ id, by simp only [checksOf, hgroup _ _ _ (.aesd2 vd va ks) rfl]; rfl⟩
  | aesd4 vd va ks => exact ⟨false, hno _ id, by simp only [checksOf, hgroup _ _ _ (.aesd4 vd va ks) rfl]; rfl⟩
  | aesd8 vd va ks => exact ⟨false, hno _ id, by simp only [checksOf, hgroup _ _ _ (.aesd8 vd va ks) rfl]; rfl⟩
  | gmul vd va vb => exact ⟨false, hno _ id, rfl⟩
  | gred4 vd va vb => exact ⟨false, hno _ id, by simp only [checksOf, hgroup _ _ _ (.gred4 vd va vb) rfl]; rfl⟩
  | dbl vd va => exact ⟨false, hno _ id, rfl⟩
  | dblx vd va => exact ⟨false, hno _ id, rfl⟩
  | dblx8 vd va => exact ⟨false, hno _ id, rfl⟩
  | vinc32 vd va => exact ⟨false, hno _ id, rfl⟩
  | vld vd addr => exact ⟨false, hno _ id, rfl⟩
  | vst va addr => exact ⟨false, hno _ id, rfl⟩
  | vxor vd va vb => exact ⟨false, hno _ id, rfl⟩
  | gcmEnc ks tlen b => exact ⟨badTagLen tlen, badTagLen_iff _, rfl⟩
  | gcmDec ks tlen b res => exact ⟨badTagLen tlen, badTagLen_iff _, rfl⟩
  | ocbEnc ks tlen b => exact ⟨_, ocbArgCheck_fst tlen b, rfl⟩
  | ocbDec ks tlen b res => exact ⟨_, ocbArgCheck_fst tlen b, rfl⟩
  | xtsEnc ks kt b => exact ⟨_, xtsArgCheck_fst _ _ b s, rfl⟩
  | xtsDec ks kt b => exact ⟨_, xtsArgCheck_fst _ _ b s, rfl⟩

theorem all_id_eq_false (bs : List Bool) : bs.all id = false ↔ false ∈ bs := by
  induction bs with
  | nil => simp
  | cons b bs ih => cases b <;> simp [ih]

/-- The checks of a command pass exactly when no condition of R361 holds. -/
theorem firstError_none_iff (i : Instr) (s : State) : firstError (checksOf i s) = none ↔ Completes i s := by
  obtain ⟨bad, hb, h⟩ := checksOf_order i s
  have hk := all_id_eq_false (requiredKeys i s)
  rw [h, Completes, ← hb, ← hk]
  simp only [checkOrder, firstError_cons, firstError_nil]
  cases i.wellFormed <;> cases isCrypto i <;> cases s.cfg.hasCrypto <;> cases (requiredKeys i s).all id <;>
    cases bad <;> cases rangesAdmitted s.cfg i <;> simp

/-- The first check of a command that fails has the code that R361 says. -/
theorem firstError_some_iff (i : Instr) (s : State) (e : ErrCode) :
    firstError (checksOf i s) = some e ↔ Raises i s e := by
  obtain ⟨bad, hb, h⟩ := checksOf_order i s
  have hk := all_id_eq_false (requiredKeys i s)
  have ha : argCode i = .keyLen ∨ argCode i = .arg := by cases i <;> simp [argCode]
  rw [h]
  simp only [checkOrder, firstError_cons, firstError_nil]
  cases e <;> simp only [Raises, ← hb, ← hk] <;> rcases ha with ha | ha <;> rw [ha] <;>
  cases i.wellFormed <;> cases isCrypto i <;> cases s.cfg.hasCrypto <;> cases (requiredKeys i s).all id <;>
    cases bad <;> cases rangesAdmitted s.cfg i <;> simp

end Sys2Proof.Machine
end

