-- ==== Sys2Proof/Laws/Modes.lean ====
section
/-! SUPPORT. The lengths of what the mode commands compute, and the bytes that each command writes. -/

namespace Sys2Proof.Machine

/-! ### Lengths -/

@[simp] theorem length_load (s : State) (a n : Word) : (s.load a n).length = n.toNat := length_readBytes _ _ _

/-- No piece of a byte string is longer than a block. -/
theorem length_le_of_mem_chunks16 {xs x : List Byte} (h : x ∈ chunks16 xs) : x.length ≤ 16 := by
  induction hn : xs.length using Nat.strong_induction_on generalizing xs with
  | _ n ih =>
    by_cases he : xs = []
    · subst he; simp at h
    · rw [chunks16_eq he] at h
      rcases List.mem_cons.mp h with rfl | h
      · simp
      · have := List.length_pos_iff.mpr he
        exact ih (xs.drop 16).length (by simp; omega) h rfl

/-- The keystream does not change the length of a byte string. -/
theorem length_gctrFrom (e : Block → Block) (cb : Block) (ps : List (List Byte)) (h : ∀ p ∈ ps, p.length ≤ 16) :
    (gctrFrom e cb ps).length = ps.flatten.length := by
  induction ps generalizing cb with
  | nil => rfl
  | cons p ps ih =>
    have := h p (by simp)
    simp [gctrFrom, ih _ fun q hq => h q (by simp [hq])]; omega

@[simp] theorem length_gctr (e : Block → Block) (cb : Block) (xs : List Byte) : (gctr e cb xs).length = xs.length := by
  rw [gctr, length_gctrFrom _ _ _ fun p hp => length_le_of_mem_chunks16 hp, flatten_chunks16]

@[simp] theorem length_gcmCrypt (e : Block → Block) (nonce xs : List Byte) :
    (gcmCrypt e nonce xs).length = xs.length := length_gctr _ _ _

theorem length_gcmTag (e : Block → Block) (nonce aad ct : List Byte) {tlen : Nat} (h : tlen ≤ 16) :
    (gcmTag e nonce aad ct tlen).length = tlen := by simp [gcmTag, h]

theorem length_ocbTag (e : Block → Block) (off chk : Block) (aad : List Byte) {tlen : Nat} (h : tlen ≤ 16) :
    (ocbTag e off chk aad tlen).length = tlen := by simp [ocbTag, h]

theorem length_ocbEncFrom (e : Block → Block) (xs : List Byte) (i : Nat) (off chk : Block) :
    (ocbEncFrom e i off chk (chunks16 xs)).1.length = xs.length := by
  induction hn : xs.length using Nat.strong_induction_on generalizing xs i off chk with
  | _ n ih =>
    by_cases he : xs = []
    · subst he; simpa [ocbEncFrom] using hn
    · have hp := List.length_pos_iff.mpr he
      rw [chunks16_eq he, ocbEncFrom]
      split
      · rename_i h
        simp only [List.length_append, length_blockBytes, ih (xs.drop 16).length (by simp; omega) _ _ _ _ rfl]
        simp at h ⊢; omega
      · rename_i h
        simp at h ⊢; omega

theorem length_ocbDecFrom (e d : Block → Block) (xs : List Byte) (i : Nat) (off chk : Block) :
    (ocbDecFrom e d i off chk (chunks16 xs)).1.length = xs.length := by
  induction hn : xs.length using Nat.strong_induction_on generalizing xs i off chk with
  | _ n ih =>
    by_cases he : xs = []
    · subst he; simpa [ocbDecFrom] using hn
    · have hp := List.length_pos_iff.mpr he
      rw [chunks16_eq he, ocbDecFrom]
      split
      · rename_i h
        simp only [List.length_append, length_blockBytes, ih (xs.drop 16).length (by simp; omega) _ _ _ _ rfl]
        simp at h ⊢; omega
      · rename_i h
        simp at h ⊢; omega

@[simp] theorem length_xex (f : Block → Block) (t : Block) (x : List Byte) : (xex f t x).length = 16 := by simp [xex]

@[simp] theorem length_xexBlocks (f : Block → Block) (ts : List Block) (x : List Byte) (n : Nat) :
    (xexBlocks f ts x n).length = 16 * n := by
  simp [xexBlocks, List.length_flatMap, Nat.mul_comm]

theorem length_xtsEncUnit (e : Block → Block) (ts : List Block) (p : List Byte) (h : 16 ≤ p.length) :
    (xtsEncUnit e ts p).length = p.length := by
  simp only [xtsEncUnit]
  split <;> simp <;> omega

theorem length_xtsDecUnit (d : Block → Block) (ts : List Block) (c : List Byte) (h : 16 ≤ c.length) :
    (xtsDecUnit d ts c).length = c.length := by
  simp only [xtsDecUnit]
  split <;> simp <;> omega

/-- A buffer of units keeps its length when the unit function does. -/
theorem length_xtsBuffer (unit : List Block → List Byte → List Byte) (tweak0 : Nat → Block) {dul n : Nat}
    {x : List Byte} (hu : ∀ ts p, p.length = dul → (unit ts p).length = dul) (hx : x.length = n * dul) :
    (xtsBuffer unit tweak0 dul n x).length = n * dul := by
  have key : ∀ u ∈ List.range n, (unit (tweaks (dul / 16) (tweak0 u)) ((x.drop (u * dul)).take dul)).length = dul := by
    intro u hm
    have hlt := List.mem_range.mp hm
    apply hu
    have : (u + 1) * dul ≤ n * dul := Nat.mul_le_mul_right _ hlt
    rw [Nat.add_mul] at this
    simp [hx]; omega
  rw [xtsBuffer, List.length_flatMap, List.map_congr_left key]
  simp

/-! ### What a command writes -/

/-- The writes of a command, in order: an address and the bytes from it on (R76). -/
def outputsOf (i : Instr) (s : State) : List (Nat × List Byte) :=
  match i with
  | .vst va addr => [(addr.toNat, blockBytes (s.vAt va))]
  | .gcmEnc _ _ b | .ocbEnc _ _ b => [(b.dst.toNat, (sealedOf i s).1), (b.tag.toNat, (sealedOf i s).2)]
  | .gcmDec _ _ b res | .ocbDec _ _ b res =>
    [(b.dst.toNat, releasedText s.zof (openedOf i s).2 (openedOf i s).1 b.len.toNat),
      (res.toNat, wordBytes (if (openedOf i s).2 then 1 else 0))]
  | .xtsEnc ks kt b =>
    [(b.dst.toNat, xtsBuffer (xtsEncUnit (s.slot ks).enc) (fun u => (s.slot kt).enc (xtsIv s.mem b.iv u)) b.dul.toNat
      (xtsUnits b) (s.load b.src b.len))]
  | .xtsDec ks kt b =>
    [(b.dst.toNat, xtsBuffer (xtsDecUnit (s.slot ks).dec) (fun u => (s.slot kt).enc (xtsIv s.mem b.iv u)) b.dul.toNat
      (xtsUnits b) (s.load b.src b.len))]
  | .nop | .halt | .kexp _ _ _ _ _ | .krk _ _ _ _ | .aese1 _ _ _ | .aese2 _ _ _ | .aese4 _ _ _ | .aese8 _ _ _
  | .aesd1 _ _ _ | .aesd2 _ _ _ | .aesd4 _ _ _ | .aesd8 _ _ _ | .gmul _ _ _ | .gred4 _ _ _ | .dbl _ _ | .dblx _ _
  | .dblx8 _ _ | .vinc32 _ _ | .vld _ _ | .vxor _ _ _ => []

/-- Memory after a list of writes. -/
def writeAll (outs : List (Nat × List Byte)) (m : Memory) : Memory :=
  outs.foldl (fun m o => m.writeBytes o.1 o.2) m

/-- All that a command does to memory. -/
theorem effectOf_mem (i : Instr) (s : State) : (effectOf i s).mem = writeAll (outputsOf i s) s.mem := by
  have hg : ∀ (k : Nat) (xs : List Block), (s.setGroup k xs).mem = s.mem := fun k xs => by rw [setGroup_eq]
  have hv : ∀ (k : Nat) (x : Block), (s.setV k x).mem = s.mem := fun _ _ => rfl
  cases i <;> simp only [effectOf, outputsOf, writeAll, List.foldl_cons, List.foldl_nil, hg, hv, writeSealed, writeOpened,
    xtsApply, store_mem, setSlot_mem, endRunDone_mem]

theorem tagLen_le {tlen : BitVec 5} (h : ¬ TagLenBad tlen) : tlen.toNat ≤ 16 := by
  simp only [TagLenBad] at h; omega

/-- A command that completes writes exactly its write ranges (R76). -/
theorem outputsOf_ranges {i : Instr} {s : State} (h : Completes i s) :
    (outputsOf i s).map (fun o => (o.1, o.2.length)) = writeRanges i := by
  obtain ⟨-, -, -, ha, -⟩ := h
  have hrel : ∀ (z ok : Bool) (p : List Byte) (n : Nat), p.length = n → (releasedText z ok p n).length = n := by
    intro z ok p n hp; simp only [releasedText]; split <;> simp [hp]
  have hxts : ∀ (unit : List Block → List Byte → List Byte) (t0 : Nat → Block) (b : XtsBufs) (k1 k2 : KeySlot),
      (∀ ts p, p.length = b.dul.toNat → (unit ts p).length = b.dul.toNat) → ¬ XtsArgBad k1 k2 s.cfg b →
      (xtsBuffer unit t0 b.dul.toNat (xtsUnits b) (s.load b.src b.len)).length = b.len.toNat := by
    intro unit t0 b k1 k2 hu hb
    have hmod : b.len.toNat % b.dul.toNat = 0 := by
      by_contra hc; exact hb (.inr (.inl hc))
    have hdiv : xtsUnits b * b.dul.toNat = b.len.toNat := by
      rw [xtsUnits]; have := Nat.div_add_mod b.len.toNat b.dul.toNat; rw [hmod] at this; rw [Nat.mul_comm]; omega
    rw [length_xtsBuffer unit t0 hu (by simp [hdiv]), hdiv]
  have hdul : ∀ (b : XtsBufs) (k1 k2 : KeySlot), ¬ XtsArgBad k1 k2 s.cfg b → 16 ≤ b.dul.toNat := by
    intro b k1 k2 hb; by_contra hc; exact hb (.inl (by omega))
  cases i <;> simp only [outputsOf, writeRanges, rangeOf, List.map_cons, List.map_nil, length_blockBytes, sealedOf, openedOf,
    gcmSeal, gcmOpen, ocbSeal, ocbOpen, length_gcmCrypt, length_load, length_wordBytes, ArgBad] at ha ⊢
  case gcmEnc => rw [length_gcmTag _ _ _ _ (tagLen_le ha)]
  case gcmDec => rw [hrel _ _ _ _ (by simp)]
  case ocbEnc => rw [length_ocbEncFrom, length_ocbTag _ _ _ _ (tagLen_le fun h => ha (.inl h)), length_load]
  case ocbDec => rw [hrel _ _ _ _ (by rw [length_ocbDecFrom, length_load])]
  case xtsEnc =>
    rw [hxts _ _ _ _ _ (fun ts p hp => by rw [length_xtsEncUnit _ _ _ (by rw [hp]; exact hdul _ _ _ ha), hp]) ha]
  case xtsDec =>
    rw [hxts _ _ _ _ _ (fun ts p hp => by rw [length_xtsDecUnit _ _ _ (by rw [hp]; exact hdul _ _ _ ha), hp]) ha]

/-- A byte that no write of the list covers. -/
theorem read_writeAll_outside {outs : List (Nat × List Byte)} {m : Memory} {lo : Nat} (h : m.risesFrom lo = true)
    {a : Nat} (ha : ∀ o ∈ outs, ¬ (o.1 ≤ a ∧ a < o.1 + o.2.length)) : (writeAll outs m).read a = m.read a := by
  induction outs generalizing m lo with
  | nil => rfl
  | cons o outs ih =>
    have h1 := ih (risesFrom_writeBytes h o.1 o.2) fun q hq => ha q (by simp [hq])
    rw [writeAll, List.foldl_cons]
    refine h1.trans ?_
    rw [read_writeBytes h, if_neg (ha o (by simp))]

/-- Writes inside the address space keep the canonical form. -/
theorem wf_writeAll {outs : List (Nat × List Byte)} {m : Memory} (h : m.wf = true)
    (ha : ∀ o ∈ outs, o.1 + o.2.length ≤ 2 ^ 32) : (writeAll outs m).wf = true := by
  induction outs generalizing m with
  | nil => exact h
  | cons o outs ih =>
    rw [writeAll, List.foldl_cons]
    exact ih (wf_writeBytes h _ _ (ha o (by simp))) fun q hq => ha q (by simp [hq])

theorem risesFrom_of_wf {m : Memory} (h : m.wf = true) : m.risesFrom 0 = true := by
  simp only [Memory.wf, Bool.and_eq_true] at h; exact h.1

/-- A byte outside a command's write ranges is unchanged (R76). -/
theorem effectOf_mem_outside {i : Instr} {s : State} (h : Completes i s) (hm : s.mem.wf = true) {a : Nat}
    (ha : ¬ InRanges (writeRanges i) a) : (effectOf i s).mem.read a = s.mem.read a := by
  rw [effectOf_mem]
  apply read_writeAll_outside (risesFrom_of_wf hm)
  intro o ho hc
  apply ha
  refine ⟨(o.1, o.2.length), ?_, hc⟩
  rw [← outputsOf_ranges h]
  exact List.mem_map.mpr ⟨o, ho, rfl⟩

/-- Every write range of a command that completes lies in the address space (R71). -/
theorem writeRanges_le {i : Instr} {s : State} (h : Completes i s) : ∀ r ∈ writeRanges i, r.1 + r.2 ≤ 2 ^ 32 := by
  intro r hr
  have hadm : admittedWrite s.cfg r.1 r.2 = true := by
    have := h.2.2.2.2
    simp only [rangesAdmitted, Bool.and_eq_true, List.all_eq_true] at this
    exact this.2 r hr
  by_cases hn : r.2 = 0
  · have hlt : ∀ x : Word, x.toNat ≤ 2 ^ 32 := fun x => Nat.le_of_lt x.isLt
    rw [hn]
    cases i <;> simp only [writeRanges, rangeOf, List.mem_cons, List.not_mem_nil, or_false] at hr <;>
      first | exact hr.elim | (rcases hr with rfl | rfl <;> exact hlt _)
  · exact admittedWrite_le hadm hn

/-- A command that completes keeps the memory's canonical form. -/
theorem effectOf_wf {i : Instr} {s : State} (h : Completes i s) (hm : s.mem.wf = true) :
    (effectOf i s).mem.wf = true := by
  rw [effectOf_mem]
  apply wf_writeAll hm
  intro o ho
  have := writeRanges_le h (o.1, o.2.length)
  rw [← outputsOf_ranges h] at this
  exact this (List.mem_map.mpr ⟨o, ho, rfl⟩)

/-! ### What a command leaves unchanged -/

/-- The fields that no command changes, but for the error stop and the advance of CP. -/
theorem effectOf_eq (i : Instr) (s : State) :
    effectOf i s = { s with
      v := (effectOf i s).v, ks := (effectOf i s).ks, phase := (effectOf i s).phase, done := (effectOf i s).done
      auth := (effectOf i s).auth, mem := (effectOf i s).mem } := by
  have hg : ∀ (k : Nat) (xs : List Block), s.setGroup k xs = { s with v := (s.setGroup k xs).v } := setGroup_eq s
  cases i <;> simp only [effectOf] <;> first | (rw [hg]) | rfl

@[simp] theorem writeSealed_ks (b : AeadBufs) (c t : List Byte) (s : State) : (writeSealed b c t s).ks = s.ks := rfl
@[simp] theorem writeSealed_v (b : AeadBufs) (c t : List Byte) (s : State) : (writeSealed b c t s).v = s.v := rfl
@[simp] theorem writeSealed_auth (b : AeadBufs) (c t : List Byte) (s : State) : (writeSealed b c t s).auth = s.auth := rfl
@[simp] theorem writeSealed_phase (b : AeadBufs) (c t : List Byte) (s : State) :
    (writeSealed b c t s).phase = s.phase := rfl
@[simp] theorem writeSealed_done (b : AeadBufs) (c t : List Byte) (s : State) : (writeSealed b c t s).done = s.done := rfl
@[simp] theorem writeOpened_ks (b : AeadBufs) (r : Word) (p : List Byte) (ok : Bool) (s : State) :
    (writeOpened b r p ok s).ks = s.ks := rfl
@[simp] theorem writeOpened_v (b : AeadBufs) (r : Word) (p : List Byte) (ok : Bool) (s : State) :
    (writeOpened b r p ok s).v = s.v := rfl
@[simp] theorem writeOpened_auth (b : AeadBufs) (r : Word) (p : List Byte) (ok : Bool) (s : State) :
    (writeOpened b r p ok s).auth = ok := rfl
@[simp] theorem writeOpened_phase (b : AeadBufs) (r : Word) (p : List Byte) (ok : Bool) (s : State) :
    (writeOpened b r p ok s).phase = s.phase := rfl
@[simp] theorem writeOpened_done (b : AeadBufs) (r : Word) (p : List Byte) (ok : Bool) (s : State) :
    (writeOpened b r p ok s).done = s.done := rfl
@[simp] theorem setGroup_ks (s : State) (k : Nat) (xs : List Block) : (s.setGroup k xs).ks = s.ks := by rw [setGroup_eq]
@[simp] theorem setGroup_auth (s : State) (k : Nat) (xs : List Block) : (s.setGroup k xs).auth = s.auth := by
  rw [setGroup_eq]
@[simp] theorem setGroup_phase (s : State) (k : Nat) (xs : List Block) : (s.setGroup k xs).phase = s.phase := by
  rw [setGroup_eq]
@[simp] theorem setGroup_done (s : State) (k : Nat) (xs : List Block) : (s.setGroup k xs).done = s.done := by
  rw [setGroup_eq]
@[simp] theorem xtsApply_ks (u : List Block → List Byte → List Byte) (k : KeySlot) (b : XtsBufs) (s : State) :
    (xtsApply u k b s).ks = s.ks := rfl
@[simp] theorem xtsApply_v (u : List Block → List Byte → List Byte) (k : KeySlot) (b : XtsBufs) (s : State) :
    (xtsApply u k b s).v = s.v := rfl
@[simp] theorem xtsApply_auth (u : List Block → List Byte → List Byte) (k : KeySlot) (b : XtsBufs) (s : State) :
    (xtsApply u k b s).auth = s.auth := rfl
@[simp] theorem xtsApply_phase (u : List Block → List Byte → List Byte) (k : KeySlot) (b : XtsBufs) (s : State) :
    (xtsApply u k b s).phase = s.phase := rfl
@[simp] theorem xtsApply_done (u : List Block → List Byte → List Byte) (k : KeySlot) (b : XtsBufs) (s : State) :
    (xtsApply u k b s).done = s.done := rfl

/-- Only KEXP writes slots (R45). -/
theorem effectOf_ks (i : Instr) (s : State) :
    (effectOf i s).ks = match i with
      | .kexp ks we wd key klen => s.ks.set ks (buildSlot (s.load key klen) we wd)
      | _ => s.ks := by
  cases i <;> simp only [effectOf, setGroup_ks, setV_ks, store_ks, writeSealed_ks, writeOpened_ks, xtsApply_ks,
    endRunDone, State.setSlot]

/-- Only HALT ends a run (R334). -/
theorem effectOf_phase_done (i : Instr) (s : State) :
    ((effectOf i s).phase, (effectOf i s).done) = match i with
      | .halt => (Phase.idle, true)
      | _ => (s.phase, s.done) := by
  cases i <;> simp only [effectOf, setGroup_phase, setGroup_done, setV_phase, setV_done, State.store, writeSealed_phase,
    writeSealed_done, writeOpened_phase, writeOpened_done, xtsApply_phase, xtsApply_done, endRunDone, State.setSlot]

/-- Only GCM_DEC and OCB_DEC write AUTH (R47). -/
theorem effectOf_auth (i : Instr) (s : State) :
    (effectOf i s).auth = match i with
      | .gcmDec _ _ _ _ | .ocbDec _ _ _ _ => (openedOf i s).2
      | _ => s.auth := by
  cases i <;> simp only [effectOf, setGroup_auth, setV_auth, store_auth, writeSealed_auth, writeOpened_auth,
    xtsApply_auth, endRunDone, State.setSlot]

end Sys2Proof.Machine
end

