-- ==== Sys2Proof/Laws/PerInstr.lean ====
section
/-! SUPPORT. Per command: the words that the encoder writes lie in the command's own row of the opcode table. -/

namespace Sys2Proof.Laws

/-! ### Headers under a mask -/

/-- A format R header under a mask, field by field. -/
theorem rHeader_and (o : Opcode) (vd va vb : VReg) (ks : SlotIx) (n : BitVec 2)
    (m0 : BitVec 6) (m1 : BitVec 2) (m2 m3 m4 m5 : BitVec 4) (m6 : BitVec 8) :
    rHeader o vd va vb ks n &&& (m0 ++ m1 ++ m2 ++ m3 ++ m4 ++ m5 ++ m6)
      = (0#6 &&& m0) ++ (n &&& m1) ++ (BitVec.ofFin (w := 4) ks &&& m2) ++ (BitVec.ofFin (w := 4) vb &&& m3)
        ++ (BitVec.ofFin (w := 4) va &&& m4) ++ (BitVec.ofFin (w := 4) vd &&& m5) ++ (o.code &&& m6) := by
  have h : (0#6 ++ n ++ BitVec.ofFin (w := 4) ks ++ BitVec.ofFin (w := 4) vb ++ BitVec.ofFin (w := 4) va
        ++ BitVec.ofFin (w := 4) vd ++ o.code) &&& (m0 ++ m1 ++ m2 ++ m3 ++ m4 ++ m5 ++ m6)
      = (0#6 &&& m0) ++ (n &&& m1) ++ (BitVec.ofFin (w := 4) ks &&& m2) ++ (BitVec.ofFin (w := 4) vb &&& m3)
        ++ (BitVec.ofFin (w := 4) va &&& m4) ++ (BitVec.ofFin (w := 4) vd &&& m5) ++ (o.code &&& m6) := by
    simp only [BitVec.and_append]
  exact h

/-- A format M header under a mask, field by field. -/
theorem mHeader_and (o : Opcode) (ks ks2 : SlotIx) (tlen : BitVec 5) (fl0 fl1 : Bool)
    (m0 : BitVec 8) (m1 m2 m3 : BitVec 1) (m4 : BitVec 5) (m5 m6 : BitVec 4) (m7 : BitVec 8) :
    mHeader o ks ks2 tlen fl0 fl1 &&& (m0 ++ m1 ++ m2 ++ m3 ++ m4 ++ m5 ++ m6 ++ m7)
      = (0#8 &&& m0) ++ (0#1 &&& m1) ++ (BitVec.ofBool fl1 &&& m2) ++ (BitVec.ofBool fl0 &&& m3) ++ (tlen &&& m4)
        ++ (BitVec.ofFin (w := 4) ks2 &&& m5) ++ (BitVec.ofFin (w := 4) ks &&& m6) ++ (o.code &&& m7) := by
  have h : (0#8 ++ 0#1 ++ BitVec.ofBool fl1 ++ BitVec.ofBool fl0 ++ tlen ++ BitVec.ofFin (w := 4) ks2
        ++ BitVec.ofFin (w := 4) ks ++ o.code) &&& (m0 ++ m1 ++ m2 ++ m3 ++ m4 ++ m5 ++ m6 ++ m7)
      = (0#8 &&& m0) ++ (0#1 &&& m1) ++ (BitVec.ofBool fl1 &&& m2) ++ (BitVec.ofBool fl0 &&& m3) ++ (tlen &&& m4)
        ++ (BitVec.ofFin (w := 4) ks2 &&& m5) ++ (BitVec.ofFin (w := 4) ks &&& m6) ++ (o.code &&& m7) := by
    simp only [BitVec.and_append]
  exact h

/-- R102: the mask that keeps OPC, RSV and N, and the fields whose mask is not 0. -/
def rMask (mks mvb mva mvd : BitVec 4) : Word := 0x3F#6 ++ 3#2 ++ mks ++ mvb ++ mva ++ mvd ++ 0xFF#8

/-- R103: the mask that keeps OPC, RSV and FL2, and the fields whose mask is not 0. -/
def mMask (mfl1 mfl0 : BitVec 1) (mtlen : BitVec 5) (mks2 : BitVec 4) : Word :=
  0xFF#8 ++ 1#1 ++ mfl1 ++ mfl0 ++ mtlen ++ mks2 ++ 0#4 ++ 0xFF#8

/-- A header with the lane code `n` and only the fields VD, VA, VB, KS that the mask drops or that are 0. -/
theorem rHeader_row (o : Opcode) (vd va vb : VReg) (ks : SlotIx) (n : BitVec 2) (mks mvb mva mvd : BitVec 4)
    (hks : BitVec.ofFin (w := 4) ks &&& mks = 0) (hvb : BitVec.ofFin (w := 4) vb &&& mvb = 0)
    (hva : BitVec.ofFin (w := 4) va &&& mva = 0) (hvd : BitVec.ofFin (w := 4) vd &&& mvd = 0) :
    rHeader o vd va vb ks n &&& rMask mks mvb mva mvd = 0#6 ++ n ++ 0#4 ++ 0#4 ++ 0#4 ++ 0#4 ++ o.code := by
  rw [rMask, rHeader_and, hks, hvb, hva, hvd, show 0xFF#8 = BitVec.allOnes 8 from rfl, BitVec.and_allOnes,
    show 3#2 = BitVec.allOnes 2 from rfl, BitVec.and_allOnes]
  rfl

/-- A header with only the fields that the mask drops or that are 0. -/
theorem mHeader_row (o : Opcode) (ks ks2 : SlotIx) (tlen : BitVec 5) (fl0 fl1 : Bool)
    (mfl1 mfl0 : BitVec 1) (mtlen : BitVec 5) (mks2 : BitVec 4)
    (h1 : BitVec.ofBool fl1 &&& mfl1 = 0) (h0 : BitVec.ofBool fl0 &&& mfl0 = 0) (ht : tlen &&& mtlen = 0)
    (hk : BitVec.ofFin (w := 4) ks2 &&& mks2 = 0) :
    mHeader o ks ks2 tlen fl0 fl1 &&& mMask mfl1 mfl0 mtlen mks2
      = 0#8 ++ 0#1 ++ 0#1 ++ 0#1 ++ 0#5 ++ 0#4 ++ 0#4 ++ o.code := by
  rw [mMask, mHeader_and, h1, h0, ht, hk, show 0xFF#8 = BitVec.allOnes 8 from rfl, BitVec.and_allOnes,
    BitVec.and_allOnes, BitVec.and_zero]
  rfl

end Sys2Proof.Laws

namespace Sys2Proof.Laws.InItsRow

/-- The sixteen words of a command start with a header of the command's row of spec/opcode_table.json. -/
def Statement (i : Instr) : Prop :=
  (encode i).length = 16 ∧ (encode i).headD 0 &&& i.row.mask = i.row.bits

theorem nop : Statement (.nop) := by
  exact ⟨rfl, rHeader_row _ _ _ _ _ _ 0xF 0xF 0xF 0xF (by rfl) (by rfl) (by rfl) (by rfl)⟩

theorem halt : Statement (.halt) := by
  exact ⟨rfl, rHeader_row _ _ _ _ _ _ 0xF 0xF 0xF 0xF (by rfl) (by rfl) (by rfl) (by rfl)⟩

theorem kexp (ks : SlotIx) (we : Bool) (wd : Bool) (key : Word) (klen : Word) : Statement (.kexp ks we wd key klen) := by
  exact ⟨rfl, mHeader_row _ _ _ _ _ _ 0 0 0x1F 0xF (BitVec.and_zero) (BitVec.and_zero) (by rfl) (by rfl)⟩

theorem krk (vd : VReg) (ks : SlotIx) (dir : Dir) (j : Fin 16) : Statement (.krk vd ks dir j) := by
  exact ⟨rfl, rHeader_row _ _ _ _ _ _ 0 0xF 0xF 0 (BitVec.and_zero) (by rfl) (by rfl) (BitVec.and_zero)⟩

theorem aese1 (vd : VReg) (va : VReg) (ks : SlotIx) : Statement (.aese1 vd va ks) := by
  exact ⟨rfl, rHeader_row _ _ _ _ _ _ 0 0xF 0 0 (BitVec.and_zero) (by rfl) (BitVec.and_zero) (BitVec.and_zero)⟩

theorem aese2 (vd : VReg) (va : VReg) (ks : SlotIx) : Statement (.aese2 vd va ks) := by
  exact ⟨rfl, rHeader_row _ _ _ _ _ _ 0 0xF 0 0 (BitVec.and_zero) (by rfl) (BitVec.and_zero) (BitVec.and_zero)⟩

theorem aese4 (vd : VReg) (va : VReg) (ks : SlotIx) : Statement (.aese4 vd va ks) := by
  exact ⟨rfl, rHeader_row _ _ _ _ _ _ 0 0xF 0 0 (BitVec.and_zero) (by rfl) (BitVec.and_zero) (BitVec.and_zero)⟩

theorem aese8 (vd : VReg) (va : VReg) (ks : SlotIx) : Statement (.aese8 vd va ks) := by
  exact ⟨rfl, rHeader_row _ _ _ _ _ _ 0 0xF 0 0 (BitVec.and_zero) (by rfl) (BitVec.and_zero) (BitVec.and_zero)⟩

theorem aesd1 (vd : VReg) (va : VReg) (ks : SlotIx) : Statement (.aesd1 vd va ks) := by
  exact ⟨rfl, rHeader_row _ _ _ _ _ _ 0 0xF 0 0 (BitVec.and_zero) (by rfl) (BitVec.and_zero) (BitVec.and_zero)⟩

theorem aesd2 (vd : VReg) (va : VReg) (ks : SlotIx) : Statement (.aesd2 vd va ks) := by
  exact ⟨rfl, rHeader_row _ _ _ _ _ _ 0 0xF 0 0 (BitVec.and_zero) (by rfl) (BitVec.and_zero) (BitVec.and_zero)⟩

theorem aesd4 (vd : VReg) (va : VReg) (ks : SlotIx) : Statement (.aesd4 vd va ks) := by
  exact ⟨rfl, rHeader_row _ _ _ _ _ _ 0 0xF 0 0 (BitVec.and_zero) (by rfl) (BitVec.and_zero) (BitVec.and_zero)⟩

theorem aesd8 (vd : VReg) (va : VReg) (ks : SlotIx) : Statement (.aesd8 vd va ks) := by
  exact ⟨rfl, rHeader_row _ _ _ _ _ _ 0 0xF 0 0 (BitVec.and_zero) (by rfl) (BitVec.and_zero) (BitVec.and_zero)⟩

theorem gmul (vd : VReg) (va : VReg) (vb : VReg) : Statement (.gmul vd va vb) := by
  exact ⟨rfl, rHeader_row _ _ _ _ _ _ 0xF 0 0 0 (by rfl) (BitVec.and_zero) (BitVec.and_zero) (BitVec.and_zero)⟩

theorem gred4 (vd : VReg) (va : VReg) (vb : VReg) : Statement (.gred4 vd va vb) := by
  exact ⟨rfl, rHeader_row _ _ _ _ _ _ 0xF 0 0 0 (by rfl) (BitVec.and_zero) (BitVec.and_zero) (BitVec.and_zero)⟩

theorem dbl (vd : VReg) (va : VReg) : Statement (.dbl vd va) := by
  exact ⟨rfl, rHeader_row _ _ _ _ _ _ 0xF 0xF 0 0 (by rfl) (by rfl) (BitVec.and_zero) (BitVec.and_zero)⟩

theorem dblx (vd : VReg) (va : VReg) : Statement (.dblx vd va) := by
  exact ⟨rfl, rHeader_row _ _ _ _ _ _ 0xF 0xF 0 0 (by rfl) (by rfl) (BitVec.and_zero) (BitVec.and_zero)⟩

theorem dblx8 (vd : VReg) (va : VReg) : Statement (.dblx8 vd va) := by
  exact ⟨rfl, rHeader_row _ _ _ _ _ _ 0xF 0xF 0 0 (by rfl) (by rfl) (BitVec.and_zero) (BitVec.and_zero)⟩

theorem vinc32 (vd : VReg) (va : VReg) : Statement (.vinc32 vd va) := by
  exact ⟨rfl, rHeader_row _ _ _ _ _ _ 0xF 0xF 0 0 (by rfl) (by rfl) (BitVec.and_zero) (BitVec.and_zero)⟩

theorem vld (vd : VReg) (addr : Word) : Statement (.vld vd addr) := by
  exact ⟨rfl, rHeader_row _ _ _ _ _ _ 0xF 0xF 0xF 0 (by rfl) (by rfl) (by rfl) (BitVec.and_zero)⟩

theorem vst (va : VReg) (addr : Word) : Statement (.vst va addr) := by
  exact ⟨rfl, rHeader_row _ _ _ _ _ _ 0xF 0xF 0 0xF (by rfl) (by rfl) (BitVec.and_zero) (by rfl)⟩

theorem vxor (vd : VReg) (va : VReg) (vb : VReg) : Statement (.vxor vd va vb) := by
  exact ⟨rfl, rHeader_row _ _ _ _ _ _ 0xF 0 0 0 (by rfl) (BitVec.and_zero) (BitVec.and_zero) (BitVec.and_zero)⟩

theorem gcmEnc (ks : SlotIx) (tlen : BitVec 5) (b : AeadBufs) : Statement (.gcmEnc ks tlen b) := by
  exact ⟨rfl, mHeader_row _ _ _ _ _ _ 1 1 0 0xF (by rfl) (by rfl) (BitVec.and_zero) (by rfl)⟩

theorem gcmDec (ks : SlotIx) (tlen : BitVec 5) (b : AeadBufs) (res : Word) : Statement (.gcmDec ks tlen b res) := by
  exact ⟨rfl, mHeader_row _ _ _ _ _ _ 1 1 0 0xF (by rfl) (by rfl) (BitVec.and_zero) (by rfl)⟩

theorem ocbEnc (ks : SlotIx) (tlen : BitVec 5) (b : AeadBufs) : Statement (.ocbEnc ks tlen b) := by
  exact ⟨rfl, mHeader_row _ _ _ _ _ _ 1 1 0 0xF (by rfl) (by rfl) (BitVec.and_zero) (by rfl)⟩

theorem ocbDec (ks : SlotIx) (tlen : BitVec 5) (b : AeadBufs) (res : Word) : Statement (.ocbDec ks tlen b res) := by
  exact ⟨rfl, mHeader_row _ _ _ _ _ _ 1 1 0 0xF (by rfl) (by rfl) (BitVec.and_zero) (by rfl)⟩

theorem xtsEnc (ks : SlotIx) (kt : SlotIx) (b : XtsBufs) : Statement (.xtsEnc ks kt b) := by
  obtain ⟨src, dst, len, dul, iv⟩ := b
  cases iv <;> exact ⟨rfl, mHeader_row _ _ _ _ _ _ 1 0 0x1F 0 (by rfl) (BitVec.and_zero) (by rfl) (BitVec.and_zero)⟩

theorem xtsDec (ks : SlotIx) (kt : SlotIx) (b : XtsBufs) : Statement (.xtsDec ks kt b) := by
  obtain ⟨src, dst, len, dul, iv⟩ := b
  cases iv <;> exact ⟨rfl, mHeader_row _ _ _ _ _ _ 1 0 0x1F 0 (by rfl) (BitVec.and_zero) (by rfl) (BitVec.and_zero)⟩

end Sys2Proof.Laws.InItsRow
end

