-- ==== Sys2Proof/Laws/Step.lean ====
section
/-! SUPPORT. What a step can do, in the terms of Safety.lean, and the torn memory of a reset during a run. -/

namespace Sys2Proof.Machine

/-- A command whose conditions do not hold completes (R12). -/
theorem exec_completes {i : Instr} {s : State} (h : Completes i s) : exec i s = .next (advance (effectOf i s)) := by
  rw [exec_eq_command, command_ok ((firstError_none_iff i s).mpr h)]

/-- A command that raises an error stops with it (R360). -/
theorem exec_raises {i : Instr} {s : State} {e : ErrCode} (h : Raises i s e) : exec i s = .next (errorStop e s) := by
  rw [exec_eq_command, command_error ((firstError_some_iff i s e).mpr h)]

/-- All that a command can do. -/
theorem exec_cases (i : Instr) (s : State) :
    (Completes i s ∧ exec i s = .next (advance (effectOf i s))) ∨
    ∃ e, Raises i s e ∧ exec i s = .next (errorStop e s) := by
  rcases exec_next_cases i s with ⟨h, h2⟩ | ⟨e, h, h2⟩
  · exact .inl ⟨(firstError_none_iff i s).mp h, h2⟩
  · exact .inr ⟨e, (firstError_some_iff i s e).mp h, h2⟩

/-- An Engine step always answers a next state (R334). -/
theorem engineStep_total (s : State) : ∃ t, engineStep s = .next t := by
  unfold engineStep
  split
  · exact ⟨_, rfl⟩
  · split
    · rename_i i _
      rcases exec_cases i s with ⟨_, h⟩ | ⟨_, _, h⟩ <;> rw [h] <;> exact ⟨_, rfl⟩
    · exact ⟨_, rfl⟩

/-- Every listed address of a canonical memory is a 32-bit address (R70). -/
theorem key_lt_of_wf {m : Memory} (h : m.wf = true) {a : Nat} (ha : a ∈ m.map Prod.fst) : a < 2 ^ 32 := by
  simp only [Memory.wf, Bool.and_eq_true, List.all_eq_true, decide_eq_true_eq] at h
  obtain ⟨c, hc, rfl⟩ := List.mem_map.mp ha
  exact (h.2 c hc).1

/-- An unlisted address reads as `memFill`. -/
theorem read_of_not_mem {m : Memory} {a : Nat} (h : a ∉ m.map Prod.fst) : m.read a = memFill := by
  induction m with
  | nil => rfl
  | cons c m ih =>
    obtain ⟨k, b⟩ := c
    simp only [List.map_cons, List.mem_cons, not_or] at h
    rw [Memory.read, if_neg (Ne.symm h.1)]
    exact ih h.2

/-- Writing chosen bytes at a list of addresses keeps the canonical form, and each address reads as chosen. -/
theorem foldl_write_choice (g : Nat → Byte) (l : List Nat) (m : Memory) (h : m.wf = true) (hl : ∀ a ∈ l, a < 2 ^ 32) :
    (l.foldl (fun m a => m.write a (g a)) m).wf = true ∧
    ∀ a, (l.foldl (fun m a => m.write a (g a)) m).read a = if a ∈ l then g a else m.read a := by
  induction l generalizing m with
  | nil => exact ⟨h, fun a => by simp⟩
  | cons b l ih =>
    rw [List.foldl_cons]
    have h1 := ih (m.write b (g b)) (wf_write h (hl b (by simp)) _) fun a ha => hl a (by simp [ha])
    refine ⟨h1.1, fun a => ?_⟩
    rw [h1.2 a, read_write (risesFrom_of_wf h)]
    by_cases h2 : a ∈ l
    · simp [h2]
    · by_cases h3 : a = b
      · subst h3; simp
      · simp [h2, h3]

/-- The torn memory is canonical, and each of its bytes is the old or the new one (R402). -/
theorem tornMemory_spec (f : Nat → Bool) {m n : Memory} (hm : m.wf = true) (hn : n.wf = true) :
    (tornMemory f m n).wf = true ∧ ∀ a, (tornMemory f m n).read a = if f a then n.read a else m.read a := by
  have hl : ∀ a ∈ (m ++ n).map Prod.fst, a < 2 ^ 32 := by
    intro a ha
    rw [List.map_append, List.mem_append] at ha
    exact ha.elim (key_lt_of_wf hm) (key_lt_of_wf hn)
  obtain ⟨h1, h2⟩ := foldl_write_choice (fun a => if f a then n.read a else m.read a) _ m hm hl
  refine ⟨h1, fun a => (h2 a).trans ?_⟩
  split
  · rfl
  · rename_i h
    rw [List.map_append, List.mem_append, not_or] at h
    rw [read_of_not_mem h.1, read_of_not_mem h.2, ite_self]

/-- A CMD_PTR value is 64-byte aligned (R38, R44). -/
theorem alignCp_mod (x : Word) : (alignCp x).toNat % 64 = 0 := by
  have h : alignCp x = (x >>> 6) <<< 6 := by
    apply BitVec.eq_of_getLsbD_eq
    intro i hi
    rw [alignCp, show (0xFFFFFFC0 : Word) = BitVec.allOnes 32 <<< 6 by decide, BitVec.getLsbD_and,
      BitVec.getLsbD_shiftLeft, BitVec.getLsbD_shiftLeft, BitVec.getLsbD_ushiftRight, BitVec.getLsbD_allOnes]
    by_cases h6 : i < 6
    · simp [h6]
    · rw [show 6 + (i - 6) = i by omega]
      simp [h6, hi]; omega
  rw [h]
  simp [BitVec.toNat_shiftLeft, Nat.shiftLeft_eq]

end Sys2Proof.Machine
end

