-- ==== Sys2Proof/Laws/Run.lean ====
section
/-! SUPPORT. The rest of a run as an iterated Engine step, and the ranges that a run notes. -/

namespace Sys2Proof.Machine

theorem inRanges_iff {rs : List Range} {a : Nat} : inRanges rs a = true ↔ InRanges rs a := by
  simp [inRanges, InRanges]

/-- A step whose fetch succeeds (R332). -/
theorem engineStep_ok {s t : State} {i : Instr} (hp : s.phase = .running) (hf : fetch s = .ok i)
    (he : exec i s = .next t) : engineStep s = .next (noteFetch s (noteCommand i t)) := by
  simp only [engineStep, hp, hf, he]

/-- A step whose fetch fails (R332, R360). -/
theorem engineStep_error {s : State} {e : ErrCode} (hp : s.phase = .running) (hf : fetch s = .error e) :
    engineStep s = .next (noteFetch s (errorStop e s)) := by
  simp only [engineStep, hp, hf]

/-- No command touches the notes of the run. -/
theorem exec_notes {i : Instr} {s t : State} (h : exec i s = .next t) :
    t.runReads = s.runReads ∧ t.runWrites = s.runWrites := by
  rcases exec_cases i s with ⟨_, h2⟩ | ⟨_, _, h2⟩ <;> rw [h2] at h <;> cases h
  · rw [effectOf_eq]; exact ⟨rfl, rfl⟩
  · exact ⟨rfl, rfl⟩

/-- A command that leaves the Engine running completes. -/
theorem completes_of_running {i : Instr} {s t : State} (h : exec i s = .next t) (hp : t.phase = .running) :
    Completes i s := by
  rcases exec_cases i s with ⟨hc, _⟩ | ⟨_, _, h2⟩
  · exact hc
  · rw [h2] at h; cases h; cases hp

theorem runOne_of_next {s t : State} (h : engineStep s = .next t) : runOne s = t := by simp [runOne, h]

theorem engineStep_eq_runOne (s : State) : engineStep s = .next (runOne s) := by
  obtain ⟨t, h⟩ := engineStep_total s
  rw [runOne_of_next h, h]

theorem runOne_idle {s : State} (h : s.phase = .idle) : runOne s = s := runOne_of_next (engineStep_idle h)

theorem iterate_runOne_idle {s : State} (h : s.phase = .idle) (n : Nat) : runOne^[n] s = s :=
  Function.iterate_fixed (runOne_idle h) n

/-- `2^k` Engine steps. -/
theorem runPow_eq (k : Nat) (s : State) : runPow k s = runOne^[2 ^ k] s := by
  induction k generalizing s with
  | zero => rfl
  | succ k ih =>
    rw [runPow, pow_succ, Nat.mul_two, Function.iterate_add_apply, ih]
    split
    · rename_i h; exact (iterate_runOne_idle h _).symm
    · exact ih _

/-- At least as many Engine steps as levels are left. -/
theorem runFrom_eq (n k : Nat) (s : State) : ∃ m, 2 ^ (k + n) ≤ m + 2 ^ k ∧ runFrom n k s = runOne^[m] s := by
  induction n generalizing k s with
  | zero => exact ⟨0, by simp, rfl⟩
  | succ n ih =>
    rw [runFrom, runPow_eq]
    split
    · rename_i h
      refine ⟨2 ^ (k + (n + 1)) + 2 ^ k, by rw [Nat.add_assoc]; exact Nat.le_add_right _ _, ?_⟩
      rw [Function.iterate_add_apply, iterate_runOne_idle h]
    · obtain ⟨m, h1, h2⟩ := ih (k + 1) (runOne^[2 ^ k] s)
      refine ⟨m + 2 ^ k, ?_, ?_⟩
      · rw [show k + 1 + n = k + (n + 1) by omega] at h1
        rw [pow_succ] at h1; omega
      · rw [h2, ← Function.iterate_add_apply]

theorem iterate_of_runEndsIn {n : Nat} {s t : State} (h : RunEndsIn n s t) : runOne^[n] s = t ∧ t.phase = .idle := by
  induction n generalizing s with
  | zero => obtain ⟨h, rfl⟩ := h; exact ⟨rfl, h⟩
  | succ n ih =>
    obtain ⟨_, u, h1, h2⟩ := h
    rw [Function.iterate_succ_apply, runOne_of_next h1]; exact ih h2

theorem runFrom_of_runEndsIn {n k : Nat} {s t : State} (h : RunEndsIn n s t) (hn : n < 2 ^ k) :
    runFrom k 0 s = t := by
  obtain ⟨m, h1, h2⟩ := runFrom_eq k 0 s
  obtain ⟨h3, h4⟩ := iterate_of_runEndsIn h
  rw [Nat.zero_add, pow_zero] at h1
  rw [h2, show m = (m - n) + n by omega, Function.iterate_add_apply, h3, iterate_runOne_idle h4]

/-- The rest of a run that ends is the state in which it ends (R334). -/
theorem wholeRun_of_runEndsIn {n : Nat} {s t : State} (h : RunEndsIn n s t) (hn : n < 2 ^ 64) : wholeRun s = t := by
  have key : ∀ k, 64 ≤ k → runFrom k 0 s = t := fun k hk =>
    runFrom_of_runEndsIn h (hn.trans_le (Nat.pow_le_pow_right (by decide) hk))
  exact key runLevels (by decide)

end Sys2Proof.Machine
end

