-- ==== Sys2Proof/Tests/Slice0.lean ====
section
/-! SUPPORT. Tests: ill-formed terms, words written out from the encoding rules, one step per command on the spec's own
examples, and for every statement with hypotheses a state that meets them. -/

namespace Sys2Proof.Tests
open Sys2Proof.Machine Host

/-! Theorems are checked one after another: a thread for each kernel evaluation would be too many. -/

set_option Elab.async false

/-! ### WellFormed: one ill-formed term for each check (R107, R109 (d)) -/

theorem test_wf_aese2_va : (Instr.aese2 0 15 0).wellFormed = false := by decide
theorem test_wf_aese2_vd : (Instr.aese2 15 0 0).wellFormed = false := by decide
theorem test_wf_aese4_va : (Instr.aese4 0 13 0).wellFormed = false := by decide
theorem test_wf_aese4_vd : (Instr.aese4 13 0 0).wellFormed = false := by decide
theorem test_wf_aese8_va : (Instr.aese8 0 9 0).wellFormed = false := by decide
theorem test_wf_aese8_vd : (Instr.aese8 9 0 0).wellFormed = false := by decide
theorem test_wf_aesd2_va : (Instr.aesd2 0 15 0).wellFormed = false := by decide
theorem test_wf_aesd2_vd : (Instr.aesd2 15 0 0).wellFormed = false := by decide
theorem test_wf_aesd4_va : (Instr.aesd4 0 13 0).wellFormed = false := by decide
theorem test_wf_aesd4_vd : (Instr.aesd4 13 0 0).wellFormed = false := by decide
theorem test_wf_aesd8_va : (Instr.aesd8 0 9 0).wellFormed = false := by decide
theorem test_wf_aesd8_vd : (Instr.aesd8 9 0 0).wellFormed = false := by decide
theorem test_wf_gred4_va : (Instr.gred4 0 13 0).wellFormed = false := by decide
theorem test_wf_gred4_vb : (Instr.gred4 0 0 13).wellFormed = false := by decide
theorem test_wf_edges : ((Instr.aese8 8 8 0).wellFormed && (Instr.aesd2 14 14 0).wellFormed &&
    (Instr.gred4 15 12 12).wellFormed) = true := by decide

/-! ### Decode: a word of every constructor, written out from R102, R103, R106 and the examples of the families -/

theorem test_dec_nop : decodeTableWord 32 0x00000000 = some .nop := by decide
theorem test_dec_halt : decodeTableWord 32 0x00000001 = some .halt := by decide
theorem test_dec_kexp : decodeTableWord 96 0x00000010_00001000_00600308 = some (.kexp 3 true true 0x1000 16) := by decide
theorem test_dec_kexp_flags : decodeTableWord 32 0x00400F08 = some (.kexp 15 false true 0 0) := by decide
theorem test_dec_krk : decodeTableWord 64 0x00000101_00300609 = some (.krk 6 3 .inverse 1) := by decide
theorem test_dec_aese1 : decodeTableWord 32 0x00000110 = some (.aese1 1 0 0) := by decide
theorem test_dec_aese2 : decodeTableWord 32 0x01000210 = some (.aese2 2 0 0) := by decide
theorem test_dec_aese4 : decodeTableWord 32 0x02000410 = some (.aese4 4 0 0) := by decide
theorem test_dec_aese8 : decodeTableWord 32 0x03A80810 = none := by decide
theorem test_dec_aese8_ks : decodeTableWord 32 0x03A00810 = some (.aese8 8 0 10) := by decide
theorem test_dec_aesd1 : decodeTableWord 32 0x00001211 = some (.aesd1 2 1 0) := by decide
theorem test_dec_aesd2 : decodeTableWord 32 0x01000211 = some (.aesd2 2 0 0) := by decide
theorem test_dec_aesd4 : decodeTableWord 32 0x02000411 = some (.aesd4 4 0 0) := by decide
theorem test_dec_aesd8 : decodeTableWord 32 0x03000811 = some (.aesd8 8 0 0) := by decide
theorem test_dec_gmul : decodeTableWord 32 0x00021318 = some (.gmul 3 1 2) := by decide
theorem test_dec_gred4 : decodeTableWord 32 0x00040819 = some (.gred4 8 0 4) := by decide
theorem test_dec_dbl : decodeTableWord 32 0x0000011A = some (.dbl 1 0) := by decide
theorem test_dec_dblx : decodeTableWord 32 0x0000F11B = some (.dblx 1 15) := by decide
theorem test_dec_dblx8 : decodeTableWord 32 0x0000021C = some (.dblx8 2 0) := by decide
theorem test_dec_vinc32 : decodeTableWord 32 0x0000011D = some (.vinc32 1 0) := by decide
theorem test_dec_vld : decodeTableWord 64 0x00002000_00000020 = some (.vld 0 0x2000) := by decide
theorem test_dec_vst : decodeTableWord 64 0x00003000_00001021 = some (.vst 1 0x3000) := by decide
theorem test_dec_vxor : decodeTableWord 32 0x00010222 = some (.vxor 2 0 1) := by decide
theorem test_dec_gcm_enc : decodeTableWord 288
    0x00000008_00000007_00000006_00000005_00000004_00000003_00000002_00000001_00100030
    = some (.gcmEnc 0 16 ⟨1, 2, 3, 4, 5, 6, 7, 8⟩) := by decide
theorem test_dec_gcm_dec : decodeTableWord 320
    0x00000009_00000008_00000007_00000006_00000005_00000004_00000003_00000002_00000001_00040231
    = some (.gcmDec 2 4 ⟨1, 2, 3, 4, 5, 6, 7, 8⟩ 9) := by decide
theorem test_dec_ocb_enc : decodeTableWord 32 0x00100032 = some (.ocbEnc 0 16 ⟨0, 0, 0, 0, 0, 0, 0, 0⟩) := by decide
theorem test_dec_ocb_dec : decodeTableWord 32 0x00100033 = some (.ocbDec 0 16 ⟨0, 0, 0, 0, 0, 0, 0, 0⟩ 0) := by decide
theorem test_dec_xts_enc : decodeTableWord 384
    0x00000033_33333333_00000000_00000000_00000020_00000006_00000000_00000000_00000020_00002000_00001000_00202134
    = some (.xtsEnc 1 2 ⟨0x1000, 0x2000, 32, 32, .seq 0x3333333333⟩) := by decide
theorem test_dec_xts_dec : decodeTableWord 256
    0x00000011_00000006_00000000_00000000_00000011_00000002_00000001_00002135
    = some (.xtsDec 1 2 ⟨1, 2, 17, 17, .array 6⟩) := by decide

/-- What the decoder refuses, and why. -/
def refusal (x : Except DecodeError Instr) : Option DecodeError :=
  match x with
  | .ok _ => none
  | .error e => some e

theorem test_dec_opcode : refusal (decode (tableWordBytes 32 0x02)) = some .opcode := by decide
theorem test_dec_rsv_r : refusal (decode (tableWordBytes 32 0x80000010)) = some .reserved := by decide
theorem test_dec_fl2 : refusal (decode (tableWordBytes 32 0x00900030)) = some .reserved := by decide
theorem test_dec_unused_n : refusal (decode (tableWordBytes 32 0x01000018)) = some .unusedField := by decide
theorem test_dec_unused_ks2 : refusal (decode (tableWordBytes 32 0x00101030)) = some .unusedField := by decide
theorem test_dec_selector : refusal (decode (tableWordBytes 64 0x00000200_00000009)) = some .selector := by decide
theorem test_dec_short : refusal (decode []) = some .short := by decide

/-! ### Small states -/

/-- A block register of what a command leaves. -/
def outV (o : Outcome State Fault Refusal) (k : Nat) : Block :=
  match o with
  | .next s => s.vAt k
  | _ => 0

/-- `n` bytes of the memory that a command leaves. -/
def outMem (o : Outcome State Fault Refusal) (a n : Nat) : List Byte :=
  match o with
  | .next s => s.mem.readBytes a n
  | _ => []

/-- A word of the window after a command: `readReg` at `off`. -/
def outReg (o : Outcome State Fault Refusal) (off : BitVec 8) : Word :=
  match o with
  | .next s => readReg s off
  | _ => 0

/-- `n` bytes of a number, the most significant first. -/
def bytesOf (n x : Nat) : List Byte := (List.range n).map fun i => BitVec.ofNat 8 (x >>> (8 * (n - 1 - i)))

/-- The reset state, running at 0x1000. -/
def base : State := { State.reset with phase := .running, cp := 0x1000 }

/-- The key 000102 … 0f of the examples of R152 to R159. -/
def key0 : List Byte := bytesOf 16 0x000102030405060708090a0b0c0d0e0f

/-- `base` with slot 0 built from `key0`, both directions. -/
def keyed : State := base.setSlot 0 (buildSlot key0 true true)

/-- A slot that is valid in both directions, its round keys 0. -/
def plainSlot : KeySlot := { KeySlot.empty with ev := true, dv := true, nk := 4, nr := 10 }

/-- `base` with the slot `plainSlot` everywhere. -/
def plain : State := { base with ks := Vector.replicate 16 plainSlot }

/-! ### One step per command -/

theorem test_nop : (outReg (exec .nop base) 0x10, outReg (exec .nop base) 0x0C) = (0x1040, 1) := by decide
theorem test_halt : (outReg (exec .halt { base with cp := 0x1040 }) 0x10, outReg (exec .halt base) 0x0C) = (0x1080, 2) := by
  decide

/-- R186's example: KS3 from 2b7e…3c at 0x1000, then the round keys that R187's example reads. -/
def kexp3 : State :=
  { base with mem := Memory.writeBytes [] 0x1000 (bytesOf 16 0x2b7e151628aed2a6abf7158809cf4f3c) }

/-- The state after R186's example. -/
def afterKexp3 : State :=
  match exec (.kexp 3 true true 0x1000 16) kexp3 with
  | .next s => s
  | _ => base

theorem test_kexp : (((afterKexp3.slot 3).ev, (afterKexp3.slot 3).dv), (afterKexp3.slot 3).nk, (afterKexp3.slot 3).nr)
    = ((true, true), 4, 10) := by decide +kernel
theorem test_kexp_klen : outReg (exec (.kexp 0 true false 0 0) base) 0x0C = 0x00000304 := by decide
theorem test_krk_enc : outV (exec (.krk 5 3 .forward 10) afterKexp3) 5 = 0xd014f9a8c9ee2589e13f0cc8b6630ca6 := by
  decide +kernel
theorem test_krk_dec : outV (exec (.krk 6 3 .inverse 1) afterKexp3) 6 = 0x0c7b5a631319eafeb0398890664cfbb4 := by
  decide +kernel

/-- FIPS-197 C.1 (R152, R156). -/
theorem test_aese1 : outV (exec (.aese1 1 0 0) (keyed.setV 0 0x00112233445566778899aabbccddeeff)) 1
    = 0x69c4e0d86a7b0430d8cdb78070b4c55a := by decide +kernel
theorem test_aesd1 : outV (exec (.aesd1 2 1 0) (keyed.setV 1 0x69c4e0d86a7b0430d8cdb78070b4c55a)) 2
    = 0x00112233445566778899aabbccddeeff := by decide +kernel

/-- `keyed` with V0 .. V7 holding the bytes 0 .. 7 repeated (R153 to R155, R157 to R159). -/
def lanes : State :=
  keyed.setGroup 0 ((List.range 8).map fun i => BitVec.ofNat 128 (i * 0x01010101010101010101010101010101))

/-- R153's corner case: VD = VA + 1, the old V1 is encrypted. -/
theorem test_aese2 : outV (exec (.aese2 1 0 0) lanes) 2 = 0xc352805754237f311ac0fff4e3e03e78 := by decide +kernel
theorem test_aese4 : outV (exec (.aese4 4 0 0) lanes) 7 = 0xc1a7aba1a23a94065807a08cc8eed06e := by decide +kernel
theorem test_aese8 : outV (exec (.aese8 8 0 0) lanes) 15 = 0xf98ff1bc085e983a689e485bfacc7d1d := by decide +kernel
theorem test_aese8_illegal : outReg (exec (.aese8 9 0 0) lanes) 0x0C = 0x00000104 := by decide +kernel
theorem test_aesd2 : outV (exec (.aesd2 2 0 0) lanes) 3 = 0x7b53b0eeca59a4e5ac0ba4b26976b0c6 := by decide +kernel
theorem test_aesd4 : outV (exec (.aesd4 4 0 0) lanes) 7 = 0x749ed078e754ba4566967953d45c1add := by decide +kernel
theorem test_aesd8 : outV (exec (.aesd8 8 0 0) lanes) 15 = 0xfc7c20cb097593d204e09f50b8f9bbfa := by decide +kernel
theorem test_aesd_empty_slot : outReg (exec (.aesd1 2 1 1) keyed) 0x0C = 0x00000404 := by decide +kernel

theorem test_gmul : outV (exec (.gmul 3 1 2) ((base.setV 1 0x0388dace60b6a392f328c2b971b2fe78).setV 2
    0x66e94bd4ef8a2c3b884cfa59ca342b2e)) 3 = 0x5e2ec746917062882c85b0685353deb7 := by decide +kernel

/-- R211's example: four powers of H and the four ciphertext blocks of GCM test case 3. -/
theorem test_gred4 : outV (exec (.gred4 8 0 4) (base.setGroup 0
    [0x3c4b0daa91e6b35f9b9e89d8510dd431, 0xc414cb8f1152eb71563a5ca9ddcbddb5, 0x8a6ff5aca561c0d865805055eb728397,
     0xb83b533708bf535d0aa6e52980d53b78, 0x42831ec2217774244b7221b784d0d49c, 0xe3aa212f2c02a4e035c17e2329aca12e,
     0x21d514b25466931c7d8f6a5aac84aa05, 0x1ba30b396a0aac973d58e091473f5985])) 8
    = 0x4796cf49464704b5dd91f159bb1b7f95 := by decide +kernel
theorem test_dbl : outV (exec (.dbl 1 0) (base.setV 0 0xc6a13b37878f5b826f4f8162a1c8d879)) 1
    = 0x8d42766f0f1eb704de9f02c54391b075 := by decide +kernel
theorem test_dblx : outV (exec (.dblx 1 0) (base.setV 0 0x66e94bd4ef8a2c3b884cfa59ca342b2e)) 1
    = 0xccd297a8df1559761099f4b39469565c := by decide +kernel
theorem test_dblx8 : outV (exec (.dblx8 2 0) (base.setV 0 0x66e94bd4ef8a2c3b884cfa59ca342b2e)) 2
    = 0xca71e94bd4ef8a2c3b884cfa59ca342b := by decide +kernel
theorem test_vinc32 : outV (exec (.vinc32 1 1) (base.setV 1 0x0102030405060708090a0b0cffffffff)) 1
    = 0x0102030405060708090a0b0c00000000 := by decide +kernel

theorem test_vld : outV (exec (.vld 0 0x2000) { base with
    mem := Memory.writeBytes [] 0x2000 (bytesOf 16 0x00112233445566778899aabbccddeeff) }) 0
    = 0x00112233445566778899aabbccddeeff := by decide +kernel
theorem test_vld_top : outReg (exec (.vld 0 0xFFFFFFF1) base) 0x0C = 0x00000604 := by decide +kernel
theorem test_vst : outMem (exec (.vst 1 0x3000) (base.setV 1 0x69c4e0d86a7b0430d8cdb78070b4c55a)) 0x3000 16
    = bytesOf 16 0x69c4e0d86a7b0430d8cdb78070b4c55a := by decide +kernel
theorem test_vxor : outV (exec (.vxor 2 0 1) ((base.setV 0 0x00112233445566778899aabbccddeeff).setV 1
    0xffffffffffffffffffffffffffffffff)) 2 = 0xffeeddccbbaa99887766554433221100 := by decide +kernel

/-- The buffers of R238's second example: P at 0x2000, AAD at 0x2100, NONCE at 0x2200. -/
def gcmBufs : AeadBufs := ⟨0x2000, 0x3000, 17, 0x2100, 5, 0x2200, 12, 0x2300⟩

/-- `keyed` with `src`, the AAD and the nonce of R238's second example, and `tag` at TAG. -/
def gcmState (src tag : Nat) : State :=
  { keyed with mem :=
      (((Memory.writeBytes [] 0x2000 (bytesOf 17 src)).writeBytes 0x2100 (bytesOf 5 0x2021222324)).writeBytes 0x2200
        (bytesOf 12 0x000102030405060708090a0b)).writeBytes 0x2300 (bytesOf 16 tag) }

theorem test_gcm_enc :
    let o := exec (.gcmEnc 0 16 gcmBufs) (gcmState 0x404142434445464748494a4b4c4d4e4f50 0)
    (outMem o 0x3000 17, outMem o 0x2300 16) = (bytesOf 17 0xd32de58d225eb113039b2bc17aee3e47e3,
      bytesOf 16 0x1390d9ed9422bdae558854d4b33382a3) := by decide +kernel
theorem test_gcm_dec :
    let o := exec (.gcmDec 0 16 gcmBufs 0x4000)
      (gcmState 0xd32de58d225eb113039b2bc17aee3e47e3 0x1390d9ed9422bdae558854d4b33382a3)
    (outMem o 0x3000 17, outMem o 0x4000 4, outReg o 0x0C)
      = (bytesOf 17 0x404142434445464748494a4b4c4d4e4f50, [1, 0, 0, 0], 0x00000009) := by decide +kernel

/-- The tag's last byte changed, ZOF = 1 (R239): zeros, result word 0, AUTH = 0. -/
theorem test_gcm_dec_zof :
    let o := exec (.gcmDec 0 16 gcmBufs 0x4000)
      { gcmState 0xd32de58d225eb113039b2bc17aee3e47e3 0x1390d9ed9422bdae558854d4b33382a2 with zof := true }
    (outMem o 0x3000 17, outMem o 0x4000 4, outReg o 0x0C) = (bytesOf 17 0, [0, 0, 0, 0], 0x00000001) := by
  decide +kernel

/-- The buffers of the source's OCB vector (R270). -/
def ocbBufs : AeadBufs := ⟨0x2000, 0x3000, 8, 0x2100, 8, 0x2200, 12, 0x2300⟩

/-- `keyed` with the buffers of the source's OCB vector. -/
def ocbState (src tag : Nat) : State :=
  { keyed with mem :=
      (((Memory.writeBytes [] 0x2000 (bytesOf 8 src)).writeBytes 0x2100 (bytesOf 8 0x0001020304050607)).writeBytes 0x2200
        (bytesOf 12 0xBBAA99887766554433221101)).writeBytes 0x2300 (bytesOf 16 tag) }

theorem test_ocb_enc :
    let o := exec (.ocbEnc 0 16 ocbBufs) (ocbState 0x0001020304050607 0)
    (outMem o 0x3000 8, outMem o 0x2300 16)
      = (bytesOf 8 0x6820B3657B6F615A, bytesOf 16 0x5725BDA0D3B4EB3A257C9AF1F8F03009) := by decide +kernel
theorem test_ocb_dec :
    let o := exec (.ocbDec 0 16 ocbBufs 0x4000) (ocbState 0x6820B3657B6F615A 0x5725BDA0D3B4EB3A257C9AF1F8F03009)
    (outMem o 0x3000 8, outMem o 0x4000 4, outReg o 0x0C)
      = (bytesOf 8 0x0001020304050607, [1, 0, 0, 0], 0x00000009) := by decide +kernel

/-- IEEE P1619 vector 15 (R299): a 17-byte unit, its keys in slots 1 and 2. -/
def xtsBufs15 : XtsBufs := ⟨0x2000, 0x3000, 17, 17, .seq 0x123456789a⟩

/-- The slots of vector 15 and the 17 bytes at SRC. -/
def xtsState (src : Nat) : State :=
  { (base.setSlot 1 (buildSlot (bytesOf 16 0xfffefdfcfbfaf9f8f7f6f5f4f3f2f1f0) true true)).setSlot 2
      (buildSlot (bytesOf 16 0xbfbebdbcbbbab9b8b7b6b5b4b3b2b1b0) true false) with
    mem := Memory.writeBytes [] 0x2000 (bytesOf 17 src) }

theorem test_xts_enc : outMem (exec (.xtsEnc 1 2 xtsBufs15) (xtsState 0x000102030405060708090a0b0c0d0e0f10)) 0x3000 17
    = bytesOf 17 0x6c1625db4671522d3d7599601de7ca09ed := by decide +kernel
theorem test_xts_dec : outMem (exec (.xtsDec 1 2 xtsBufs15) (xtsState 0x6c1625db4671522d3d7599601de7ca09ed)) 0x3000 17
    = bytesOf 17 0x000102030405060708090a0b0c0d0e0f10 := by decide +kernel

/-! ### The Host's side -/

/-- The state after a turn. -/
def after (u : Turn) (s : State) : State :=
  match takeTurn u s with
  | .next t => t
  | _ => s

theorem test_id : (after (.regRead 0x00 .word) base).response = some (.reg 0x41455331) := by decide
theorem test_cap : (after (.regRead 0x04 .word) base).response = some (.reg 0x000810F3) := by decide
theorem test_bad_access : (after (.regRead 0x02 .word) base).response = some .busError := by decide
theorem test_start : (after (.regWrite 0x08 .word 0x31) State.reset).phase = .running := by decide
theorem test_soft_reset_clears_enables : ctrlWord (after (.regWrite 0x08 .word 0x133) State.reset) = 0 := by decide
theorem test_cmd_ptr_aligned : (after (.regWrite 0x10 .word 0x1234567F) State.reset).cp = 0x12345640 := by decide
/-- A run of VST v0, [0x2000] at 0x1000 and HALT at 0x1040. -/
def storeRun : State :=
  { base with mem := Memory.writeBytes (Memory.writeBytes [] 0x1000 (encodeBytes (.vst 0 0x2000))) 0x1040 [1] }

/-- Whether a Host write is refused. -/
def refusesWrite (a : Word) (s : State) : Bool :=
  match takeTurn (.memWrite a 1) s with
  | .refused r => r == .hostWriteDuringRun
  | _ => false

theorem test_host_write_to_output : refusesWrite 0x200F storeRun = true := by decide +kernel
theorem test_host_write_to_later_descriptor : refusesWrite 0x107F storeRun = true := by decide +kernel
theorem test_host_write_to_past_descriptor : refusesWrite 0x1000 (after .engine storeRun) = true := by decide +kernel
theorem test_host_write_elsewhere : (after (.memWrite 0x2010 1) storeRun).mem.read 0x2010 = 1 := by decide +kernel
theorem test_host_read_of_output : (after (.memRead 0x2000) storeRun).draws = 1 := by decide +kernel
theorem test_host_read_elsewhere : (after (.memRead 0x1040) storeRun).response = some (.byte 1) := by decide +kernel
theorem test_host_read_after_the_run :
    (after (.memRead 0x2000) (after .engine (after .engine storeRun))).response = some (.byte 0) := by decide +kernel
theorem test_with_fetch_word :
    (match step (State.reset.withFetchWord 32 0x00000001) with | .next t => statusWord t | _ => 0) = 2 := by
  decide +kernel

/-! ### A state and operands for the hypotheses of every statement -/

/-- `base` with the descriptor `d` at CP. -/
def atCp (d : List Byte) : State := { base with mem := Memory.writeBytes [] 0x1000 d }

/-- `base` about to run AESE.1 on an empty slot. -/
def emptySlotRun : State := atCp (encodeBytes (.aese1 1 0 2))

/-- `base` without the crypto unit. -/
def noCrypto : State := { base with cfg := { Config.atReset with hasCrypto := false } }

theorem witness_decoded : decodeWords (fun _ => 0) = .ok .nop := by rfl
theorem witness_unused_words : opcodeOf ((0 : Word).extractLsb' 0 8) = some .nop ∧ (∀ k ∈ usedWords .nop 0, k = 1) := by
  decide
theorem witness_step_runs : base.phase = .running ∧ admittedRead base.cfg base.cp.toNat 64 = true ∧
    decode (base.mem.readBytes base.cp.toNat 64) = .ok .nop := ⟨rfl, by decide +kernel, by rfl⟩
theorem witness_fetch_bus : ({ base with cp := 0x10000 } : State).turns = [] ∧
    admittedRead base.cfg 0x10000 64 = false ∧ admittedRead base.cfg 0xFFC0 64 = true := by decide +kernel
theorem witness_fetch_illegal : (atCp [2]).phase = .running ∧
    refusal (decode ((atCp [2]).mem.readBytes 0x1000 64)) = some .opcode := by decide +kernel
theorem witness_raises : Raises (.aese1 1 0 2) emptySlotRun .key ∧ fetch emptySlotRun = .ok (.aese1 1 0 2) :=
  ⟨⟨by decide, fun _ => rfl, by decide +kernel⟩, by rfl⟩
theorem witness_idle : State.reset.phase = .idle ∧ State.reset.turns = [] := by decide
/-- The header at CP. -/
def headerAt (s : State) : Word := wordAt (s.mem.readBytes s.cp.toNat 64) 0

theorem witness_nop_halt_headers : (atCp []).turns = [] ∧ (atCp [1, 1]).phase = .running ∧
    admittedRead (atCp [0, 1]).cfg (atCp [0, 1]).cp.toNat 64 = true ∧ headerAt (atCp []) = 0 ∧
    headerAt (atCp [0, 1]) = 0x100 ∧ headerAt (atCp [1]) = 1 ∧ headerAt (atCp [1, 1]) = 0x101 := by decide +kernel
theorem witness_soft_reset : State.reset.phase = .idle ∧ (2 : Word).getLsbD 1 = true := by decide
theorem witness_vld : admittedRead base.cfg (0xFFF0 : Word).toNat 16 = true := by decide +kernel
theorem witness_vst : base.mem.wf = true ∧ admittedWrite base.cfg (0 : Word).toNat 16 = true := by decide +kernel
theorem witness_aese : (8, Instr.aese8 8 8 3) ∈ [(1, Instr.aese1 8 8 3), (2, .aese2 8 8 3), (4, .aese4 8 8 3),
    (8, .aese8 8 8 3)] ∧ plain.cfg.hasCrypto = true ∧ plain.ks[(3 : SlotIx)].ev = true := by decide +kernel
theorem witness_aesd : (1, Instr.aesd1 15 15 3) ∈ [(1, Instr.aesd1 15 15 3), (2, .aesd2 15 15 3), (4, .aesd4 15 15 3),
    (8, .aesd8 15 15 3)] ∧ plain.cfg.hasCrypto = true ∧ plain.ks[(3 : SlotIx)].dv = true := by decide +kernel
theorem witness_key_length : KeyLenOk key0 := .inl rfl
theorem witness_kexp : base.cfg.hasCrypto = true ∧ admittedRead base.cfg (0xFFE0 : Word).toNat (32 : Word).toNat = true := by
  decide +kernel
theorem witness_kexp_completes : Completes (.kexp 3 true false 0xFFE0 32) base :=
  ⟨by decide, fun _ => rfl, by decide, by simp [ArgBad], by decide +kernel⟩
theorem witness_krk : plain.cfg.hasCrypto = true ∧ plain.ks[(0 : SlotIx)].dv = true ∧
    (10 : Fin 16).val ≤ plain.ks[(0 : SlotIx)].nr.toNat := by decide +kernel
theorem witness_gred4 : base.cfg.hasCrypto = true ∧ (12 : VReg).val + 4 ≤ 16 := by decide
theorem witness_ghash : ([] : List Byte).length % 16 = 0 ∧ (blockBytes 1).length = 16 := by decide
theorem witness_gctr : 16 < (List.replicate 17 (0 : Byte)).length := by decide
theorem witness_tag_length : (1 : BitVec 5).toNat ≤ 16 ∧ (16 : BitVec 5).toNat ≤ 16 := by decide
theorem witness_gcm_enc : plain.mem.wf = true ∧ plain.cfg.hasCrypto = true ∧ plain.ks[(0 : SlotIx)].ev = true ∧
    1 ≤ (1 : BitVec 5).toNat ∧ rangesAdmitted plain.cfg (.gcmEnc 0 1 gcmBufs) = true := by decide +kernel
theorem witness_gcm_dec : plain.mem.wf = true ∧ plain.cfg.hasCrypto = true ∧ plain.ks[(0 : SlotIx)].ev = true ∧
    (16 : BitVec 5).toNat ≤ 16 ∧ rangesAdmitted plain.cfg (.gcmDec 0 16 gcmBufs 0x4000) = true := by decide +kernel
theorem witness_gcm_round_trip :
    let b2 : AeadBufs := { gcmBufs with src := gcmBufs.dst, dst := 0x3100 }
    Completes (.gcmEnc 0 16 gcmBufs) plain ∧ Completes (.gcmDec 0 16 b2 0x4000) plain ∧
    RangesApart (rangeOf gcmBufs.aad gcmBufs.alen) (rangeOf gcmBufs.dst gcmBufs.len) ∧
    RangesApart (rangeOf gcmBufs.aad gcmBufs.alen) (gcmBufs.tag.toNat, 16) ∧
    RangesApart (rangeOf gcmBufs.nonce gcmBufs.nlen) (rangeOf gcmBufs.dst gcmBufs.len) ∧
    RangesApart (rangeOf gcmBufs.nonce gcmBufs.nlen) (gcmBufs.tag.toNat, 16) ∧
    RangesApart (rangeOf gcmBufs.dst gcmBufs.len) (gcmBufs.tag.toNat, 16) ∧
    RangesApart (rangeOf 0x3100 gcmBufs.len) ((0x4000 : Word).toNat, 4) := by
  have ht : ¬ TagLenBad 16 := by simp [TagLenBad]
  refine ⟨⟨by decide, fun _ => rfl, by decide +kernel, ht, by decide +kernel⟩,
    ⟨by decide, fun _ => rfl, by decide +kernel, ht, by decide +kernel⟩, ?_, ?_, ?_, ?_, ?_, ?_⟩ <;>
  · intro a; simp [rangeOf, gcmBufs]; omega
theorem witness_cipher_pair : ∀ x : Block, id (id x) = x := fun _ => rfl
theorem witness_ocb : plain.ks[(0 : SlotIx)].ev = true ∧ plain.ks[(0 : SlotIx)].dv = true ∧ ocbBufs.nlen.toNat ≤ 15 ∧
    rangesAdmitted plain.cfg (.ocbEnc 0 16 ocbBufs) = true ∧
    rangesAdmitted plain.cfg (.ocbDec 0 16 ocbBufs 0x4000) = true := by decide +kernel
theorem witness_xts_unit : 16 ≤ (blockBytes 0).length ∧ (List.replicate 32 (0 : Byte)).length = 2 * 16 := by decide
theorem witness_xts : ¬ XtsArgBad plain.ks[(1 : SlotIx)] plain.ks[(2 : SlotIx)] plain.cfg xtsBufs15 ∧
    rangesAdmitted plain.cfg (.xtsEnc 1 2 xtsBufs15) = true ∧ rangesAdmitted plain.cfg (.xtsDec 1 2 xtsBufs15) = true ∧
    plain.ks[(1 : SlotIx)].dv = true := by
  refine ⟨?_, by decide +kernel, by decide +kernel, by decide +kernel⟩
  rintro (h | h | h | h | ⟨h, -⟩) <;> revert h <;> decide +kernel
theorem witness_completes : Completes .nop base ∧ ∃ t, exec .nop base = .next t :=
  ⟨⟨rfl, fun _ => rfl, by decide, id, by decide⟩, _, rfl⟩
theorem witness_platform : noCrypto.cfg.hasCrypto = false ∧ isCrypto (.dbl 0 0) = true ∧ isCrypto .nop = false := by decide
theorem witness_agree : base.mem.wf = true ∧ Memory.wf [(0x3000, 1)] = true ∧
    AgreeOn (readRanges (.vld 0 0x2000)) base.mem [(0x3000, 1)] := by
  refine ⟨by decide, by decide, ?_⟩
  rintro a ⟨r, hr, h⟩
  simp only [readRanges, List.mem_cons, List.not_mem_nil, or_false] at hr
  subst hr
  rw [Memory.read, if_neg (by simp at h; omega)]; rfl
theorem witness_retry : emptySlotRun.turns = [] ∧ emptySlotRun.done = false ∧ emptySlotRun.err = false ∧
    (match step emptySlotRun with | .next t => t.err | _ => false) = true := by decide +kernel
theorem witness_inv : base.Inv ∧ ∃ t, step base = .next t := by
  refine ⟨⟨rfl, rfl, rfl, fun k => ⟨key0, false, false, .inl rfl, ?_⟩, fun _ => ⟨rfl, rfl⟩, by decide, by decide,
    by decide⟩, _, rfl⟩
  show (Vector.replicate 16 KeySlot.empty)[k] = KeySlot.empty
  simp
theorem witness_err_ptr : (after .engine emptySlotRun).errPtr ≠ emptySlotRun.errPtr := by decide +kernel
theorem witness_irq : irq { State.reset with done := true, doneIe := true } = true ∧
    irq (after (.regWrite 0x0C .word 2) { State.reset with done := true, doneIe := true }) = false := by decide
theorem witness_reserved : 0x18 ≤ (0x18 : BitVec 8).toNat ∧ (0xFC : BitVec 8).toNat % 4 = 0 ∧
    AccessWidth.half ≠ .word ∧ (0x11 : BitVec 8).toNat % 4 ≠ 0 := by decide
theorem witness_torn : (atCp (encodeBytes (.vst 0 0x2000))).mem.wf = true ∧
    fetch (atCp (encodeBytes (.vst 0 0x2000))) = .ok (.vst 0 0x2000) ∧
    (∃ t, engineStep (atCp (encodeBytes (.vst 0 0x2000))) = .next t) ∧ ∃ t, engineStep (atCp [2]) = .next t :=
  ⟨by decide +kernel, by rfl, engineStep_total _, engineStep_total _⟩
theorem witness_gray : (∀ x ∈ [blockBytes 0], x.length = 16) ∧ [blockBytes 0].length < 2 ^ 28 := by
  simp
theorem witness_run_ends : RunEndsIn 2 storeRun (runOne (runOne storeRun)) :=
  ⟨rfl, _, engineStep_eq_runOne _, by decide +kernel, _, engineStep_eq_runOne _, by decide +kernel, rfl⟩
theorem witness_idle_access : State.reset.phase = .idle ∧ ¬ InVisibleWindow State.reset.cfg (0x2000 : Word).toNat ∧
    Memory.wf [(0x3000, 1)] = true := by
  refine ⟨rfl, ?_, by decide⟩
  simp [InVisibleWindow, State.reset, Config.atReset]
theorem witness_window_access : InVisibleWindow { Config.atReset with windowVisible := true, mmioBase := 0x200 } 0x200 ∧
    InVisibleWindow { Config.atReset with windowVisible := true, mmioBase := 0x200 } 0x2FF := by
  simp [InVisibleWindow]
theorem witness_start_empties :
    let s : State := { State.reset with runReads := [(0, 64)], runWrites := [(0x2000, 16)] }
    (match takeTurn (.regWrite 0x08 .word 1) s with
      | .next t => t.phase == .running && t.runReads.isEmpty && t.runWrites.isEmpty | _ => false) = true ∧
    (match takeTurn (.regWrite 0x08 .word 0) s with
      | .next t => t.runReads == s.runReads | _ => false) = true := by decide
theorem witness_host_accesses : storeRun.mem.wf = true ∧ inWindow storeRun.cfg 0x2000 = false ∧
    inRanges (runOne (runOne storeRun)).runWrites 0x2000 = true ∧
    inRanges (runOne (runOne storeRun)).runWrites 0x2010 = false ∧
    inRanges (runOne (runOne storeRun)).runReads 0x107F = true ∧
    inRanges (runOne (runOne storeRun)).runReads 0x2010 = false ∧
    refusesWrite 0x2010 storeRun = false := by decide +kernel

/-- R34, R36: CTRL and STATUS words written out from their tables. -/
theorem test_ctrl_and_status_words :
    ctrlWord { State.reset with doneIe := true, errIe := true, zof := true } = 0x130 ∧
    statusWord { State.reset with done := true, auth := true } = 0x0A ∧
    statusWord { State.reset with err := true, errCode := 6 } = 0x0604 ∧
    statusWord { State.reset with phase := .running } = 1 := by decide
/-- The example of R291. -/
theorem test_xts_iv : xtsIv [] (.seq 0x000000123456789A) 0 = 0x9a785634120000000000000000000000 ∧
    xtsIv [] (.seq 0x000000123456789A) 1 = 0x9b785634120000000000000000000000 := by decide +kernel
theorem witness_may_write : EngineMayWrite base.cfg 0xFFFF ∧ ¬ EngineMayWrite base.cfg 0x10000 ∧
    EngineMayRead { base.cfg with windowVisible := true, mmioBase := 0x200 } 0x1FF ∧
    ¬ EngineMayRead { base.cfg with windowVisible := true, mmioBase := 0x200 } 0x200 ∧
    ¬ EngineMayRead { base.cfg with windowVisible := true, mmioBase := 0x200 } 0x2FF ∧
    EngineMayRead { base.cfg with windowVisible := true, mmioBase := 0x200 } 0x300 := by
  simp [EngineMayWrite, EngineMayRead, InVisibleWindow, base, Config.atReset, State.reset]
theorem witness_changed_byte : (match exec (.vst 0 0x2000) (base.setV 0 1) with
    | .next t => t.mem.read 0x200F != base.mem.read 0x200F && t.cp == base.cp + 64 | _ => false) = true := by
  decide +kernel
theorem witness_read_byte : (match exec (.vld 0 0x2000) base with
    | .next t => t.cp == base.cp + 64 | _ => false) = true ∧ InRanges (readRanges (.vld 0 0x2000)) 0x200F :=
  ⟨by decide +kernel, (0x2000, 16), by simp [readRanges], by simp⟩

end Sys2Proof.Tests
end

section
/-! PROOFS. The state of the machine (10_state.md): the invariant, who changes what, and the registers of the window. -/

namespace Sys2Proof.Machine

/-! ### What a command and an Engine step can do -/

@[simp] theorem effectOf_cp (i : Instr) (s : State) : (effectOf i s).cp = s.cp := by rw [effectOf_eq]
@[simp] theorem effectOf_errPtr (i : Instr) (s : State) : (effectOf i s).errPtr = s.errPtr := by rw [effectOf_eq]
@[simp] theorem effectOf_err (i : Instr) (s : State) : (effectOf i s).err = s.err := by rw [effectOf_eq]
@[simp] theorem effectOf_errCode (i : Instr) (s : State) : (effectOf i s).errCode = s.errCode := by rw [effectOf_eq]
@[simp] theorem effectOf_doneIe (i : Instr) (s : State) : (effectOf i s).doneIe = s.doneIe := by rw [effectOf_eq]
@[simp] theorem effectOf_errIe (i : Instr) (s : State) : (effectOf i s).errIe = s.errIe := by rw [effectOf_eq]
@[simp] theorem effectOf_cfg (i : Instr) (s : State) : (effectOf i s).cfg = s.cfg := by rw [effectOf_eq]

/-- A command lets the run go on as it was, or it is HALT and ends the run with DONE (R334, R335). -/
theorem effectOf_goesOn_or_ends (i : Instr) (s : State) :
    ((effectOf i s).phase = s.phase ∧ (effectOf i s).done = s.done) ∨
    ((effectOf i s).phase = .idle ∧ (effectOf i s).done = true) := by
  have h := effectOf_phase_done i s
  split at h
  · exact .inr (Prod.mk.injEq .. ▸ h)
  · exact .inl (Prod.mk.injEq .. ▸ h)

/-- A command leaves a slot as it was, or it is the KEXP of that slot (R45, R186). -/
theorem effectOf_slot (i : Instr) (s : State) (k : SlotIx) :
    (effectOf i s).slot k = s.slot k ∨
    ∃ we wd key klen, i = .kexp k we wd key klen ∧ (effectOf i s).slot k = buildSlot (s.load key klen) we wd := by
  have h := effectOf_ks i s
  split at h
  · rename_i ks we wd key klen
    have hs := slot_setSlot s ks k (buildSlot (s.load key klen) we wd)
    by_cases hk : ks = k
    · subst hk; exact .inr ⟨we, wd, key, klen, rfl, by rw [effectOf, hs, if_pos rfl]⟩
    · exact .inl (by rw [effectOf, hs, if_neg hk])
  · exact .inl (by rw [State.slot, h, State.slot])

/-- All that a command's answer can be (R12). -/
theorem exec_next {i : Instr} {s t : State} (h : exec i s = .next t) :
    (Completes i s ∧ t = advance (effectOf i s)) ∨ ∃ e, Raises i s e ∧ t = errorStop e s := by
  rcases exec_cases i s with ⟨hc, h2⟩ | ⟨e, hr, h2⟩ <;> rw [h2] at h <;> cases h
  · exact .inl ⟨hc, rfl⟩
  · exact .inr ⟨e, hr, rfl⟩

/-- All that an Engine step can do, but for its notes of the run: nothing in IDLE, otherwise a whole command or an
error stop (R42, R332). -/
theorem engineStep_outcome {s t : State} (h : engineStep s = .next t) :
    (s.phase = .idle ∧ t = s) ∨
    (s.phase = .running ∧ ∃ u reads writes, t = { u with runReads := reads, runWrites := writes } ∧
      ((∃ i, Completes i s ∧ u = advance (effectOf i s)) ∨ ∃ e, u = errorStop e s)) := by
  rcases engineStep_next h with hi | ⟨hp, i, u, -, hx, rfl⟩ | ⟨hp, e, -, rfl⟩
  · exact .inl hi
  · refine .inr ⟨hp, u, _, _, by rw [noteFetch_eq, noteCommand_eq], ?_⟩
    rcases exec_next hx with ⟨hc, hu⟩ | ⟨e, -, hu⟩
    · exact .inl ⟨i, hc, hu⟩
    · exact .inr ⟨e, hu⟩
  · exact .inr ⟨hp, errorStop e s, _, _, noteFetch_eq _ _, .inr ⟨e, rfl⟩⟩

/-! ### The window -/

@[simp] theorem readReg_id (s : State) : readReg s 0x00 = idWord := rfl
@[simp] theorem readReg_cap (s : State) : readReg s 0x04 = capWord s.cfg := rfl
@[simp] theorem readReg_ctrl (s : State) : readReg s 0x08 = ctrlWord s := rfl
@[simp] theorem readReg_status (s : State) : readReg s 0x0C = statusWord s := rfl
@[simp] theorem readReg_cmdPtr (s : State) : readReg s 0x10 = s.cp := rfl
@[simp] theorem readReg_errPtr (s : State) : readReg s 0x14 = s.errPtr := rfl

@[simp] theorem writeReg_id (x : Word) (s : State) : writeReg 0x00 x s = s := rfl
@[simp] theorem writeReg_cap (x : Word) (s : State) : writeReg 0x04 x s = s := rfl
@[simp] theorem writeReg_ctrl (x : Word) (s : State) : writeReg 0x08 x s = writeCtrl x s := rfl
@[simp] theorem writeReg_status (x : Word) (s : State) : writeReg 0x0C x s = writeStatus x s := rfl
@[simp] theorem writeReg_cmdPtr (x : Word) (s : State) : writeReg 0x10 x s = writeCmdPtr x s := rfl
@[simp] theorem writeReg_errPtr (x : Word) (s : State) : writeReg 0x14 x s = s := rfl

/-- A reserved offset is none of the registers (R40). -/
theorem ne_of_reserved {off c : BitVec 8} (h : 0x18 ≤ off.toNat) (hc : c.toNat < 0x18) : off ≠ c := by
  rintro rfl; omega

theorem readReg_reserved (s : State) {off : BitVec 8} (h : 0x18 ≤ off.toNat) : readReg s off = 0 := by
  simp only [readReg, ne_of_reserved h (c := 0x00) (by decide), ne_of_reserved h (c := 0x04) (by decide),
    ne_of_reserved h (c := 0x08) (by decide), ne_of_reserved h (c := 0x0C) (by decide),
    ne_of_reserved h (c := 0x10) (by decide), ne_of_reserved h (c := 0x14) (by decide), if_false]

theorem writeReg_reserved (x : Word) (s : State) {off : BitVec 8} (h : 0x18 ≤ off.toNat) : writeReg off x s = s := by
  simp only [writeReg, ne_of_reserved h (c := 0x08) (by decide), ne_of_reserved h (c := 0x0C) (by decide),
    ne_of_reserved h (c := 0x10) (by decide), if_false]

theorem goodAccess_iff (off : BitVec 8) (width : AccessWidth) :
    goodAccess off width = true ↔ width = .word ∧ off.toNat % 4 = 0 := by
  simp [goodAccess]

/-- A 32-bit aligned read of the window (R31). -/
theorem hostRegRead_word {off : BitVec 8} (h : off.toNat % 4 = 0) (s : State) :
    hostRegRead off .word s = { s with response := some (.reg (readReg s off)) } := by
  rw [hostRegRead, if_pos ((goodAccess_iff _ _).mpr ⟨rfl, h⟩)]

/-- A 32-bit aligned write of the window (R31). -/
theorem hostRegWrite_word {off : BitVec 8} (h : off.toNat % 4 = 0) (x : Word) (s : State) :
    hostRegWrite off .word x s = { writeReg off x s with response := some .done } := by
  rw [hostRegWrite, if_pos ((goodAccess_iff _ _).mpr ⟨rfl, h⟩)]

/-- Any other access than a 32-bit aligned one (R31, S6). -/
theorem not_goodAccess {off : BitVec 8} {width : AccessWidth} (h : width ≠ .word ∨ off.toNat % 4 ≠ 0) :
    ¬ goodAccess off width = true := by
  rw [goodAccess_iff]; rintro ⟨hw, ho⟩; exact h.elim (· hw) (· ho)

/-- All that a Host write to the window can do: nothing but the answer, or the write of CTRL, STATUS or CMD_PTR by a
32-bit access (R31 to R40). -/
theorem hostRegWrite_cases (off : BitVec 8) (width : AccessWidth) (x : Word) (s : State) :
    ∃ u r, hostRegWrite off width x s = { u with response := r } ∧
      (u = s ∨ (off = 0x08 ∧ width = .word ∧ u = writeCtrl x s) ∨
        (off = 0x0C ∧ width = .word ∧ u = writeStatus x s) ∨ u = writeCmdPtr x s) := by
  by_cases hg : goodAccess off width = true
  · refine ⟨writeReg off x s, some .done, by rw [hostRegWrite, if_pos hg], ?_⟩
    obtain ⟨hw, -⟩ := (goodAccess_iff _ _).mp hg
    unfold writeReg
    split
    · rename_i h; exact .inr (.inl ⟨h, hw, rfl⟩)
    · split
      · rename_i h; exact .inr (.inr (.inl ⟨h, hw, rfl⟩))
      · split
        · exact .inr (.inr (.inr rfl))
        · exact .inl rfl
  · exact ⟨s, some .busError, by rw [hostRegWrite, if_neg hg], .inl rfl⟩

@[simp] theorem busy_eq_true_iff (s : State) : s.busy = true ↔ s.phase = .running := by simp [State.busy]

theorem phase_idle_or_running (s : State) : s.phase = .idle ∨ s.phase = .running := by
  cases s.phase
  · exact .inl rfl
  · exact .inr rfl

theorem busy_of_running {s : State} (h : s.phase = .running) : s.busy = true := (busy_eq_true_iff s).mpr h

theorem busy_of_idle {s : State} (h : s.phase = .idle) : s.busy = false := by simp [State.busy, h]

/-- A CTRL write while BUSY = 1 only sets the enables (R35). -/
theorem writeCtrl_running {s : State} (h : s.phase = .running) (x : Word) : writeCtrl x s = setCtrlBits x s := by
  have hb : (setCtrlBits x s).busy = true := busy_of_running h
  simp [writeCtrl, startRun, hb]

/-- A CTRL write with SRST while BUSY = 0 is the soft reset (R35, R401). -/
theorem writeCtrl_softReset {s : State} (h : s.phase = .idle) {x : Word} (hx : x.getLsbD 1 = true) :
    writeCtrl x s = resetBlock s := by
  have hb : (setCtrlBits x s).busy = false := busy_of_idle h
  simp only [writeCtrl, hx, hb, Bool.not_false, Bool.and_self, if_true]
  rfl

/-- A CTRL write without SRST while BUSY = 0 sets the enables and starts a run when START asks for it (R35, R330). -/
theorem writeCtrl_idle (s : State) {x : Word} (hx : x.getLsbD 1 = false) :
    writeCtrl x s = if x.getLsbD 0 then startRun (setCtrlBits x s) else setCtrlBits x s := by
  simp only [writeCtrl, hx, Bool.false_and, Bool.false_eq_true, if_false]

/-- START while BUSY = 0 and ERR = 0 (R330). -/
theorem startRun_starts {s : State} (hp : s.phase = .idle) (he : s.err = false) :
    startRun s = { s with done := false, phase := .running, runReads := [], runWrites := [] } := by
  simp [startRun, busy_of_idle hp, he]

/-- START while ERR = 1 (R330). -/
theorem startRun_of_err {s : State} (he : s.err = true) : startRun s = s := by simp [startRun, he]

/-- All that a CTRL write can do (R35): the soft reset, the start of a run, or the enables alone. -/
theorem writeCtrl_cases (x : Word) (s : State) :
    (s.phase = .idle ∧ x.getLsbD 1 = true ∧ writeCtrl x s = resetBlock s) ∨
    (s.phase = .idle ∧ x.getLsbD 1 = false ∧ x.getLsbD 0 = true ∧ s.err = false ∧ writeCtrl x s =
      { setCtrlBits x s with done := false, phase := .running, runReads := [], runWrites := [] }) ∨
    (¬ (s.phase = .idle ∧ (x.getLsbD 1 = true ∨ (x.getLsbD 0 = true ∧ s.err = false))) ∧
      writeCtrl x s = setCtrlBits x s) := by
  rcases phase_idle_or_running s with hp | hp
  · cases h1 : x.getLsbD 1 with
    | true => exact .inl ⟨hp, rfl, writeCtrl_softReset hp h1⟩
    | false =>
      rw [writeCtrl_idle s h1]
      cases h0 : x.getLsbD 0 with
      | false => exact .inr (.inr ⟨by simp, rfl⟩)
      | true =>
        cases he : s.err with
        | false => exact .inr (.inl ⟨hp, rfl, rfl, rfl, startRun_starts (s := setCtrlBits x s) hp he⟩)
        | true => exact .inr (.inr ⟨by simp, startRun_of_err (s := setCtrlBits x s) he⟩)
  · exact .inr (.inr ⟨by simp [hp], writeCtrl_running hp x⟩)

/-- A STATUS write, field by field (R37). -/
theorem writeStatus_eq (x : Word) (s : State) :
    writeStatus x s = { s with
      done := if x.getLsbD 1 then false else s.done
      err := if x.getLsbD 2 then false else s.err
      errCode := if x.getLsbD 2 then 0 else s.errCode } := by
  unfold writeStatus clearError
  cases x.getLsbD 1 <;> cases x.getLsbD 2 <;> rfl

/-! ### The invariant under each operation -/

/-- The invariant says nothing of the block registers, AUTH, the enables, ZOF and the model's own fields. -/
theorem State.Inv.withUntracked {s : State} (h : s.Inv) {v : Vector Block 16} {auth doneIe errIe zof : Bool}
    {turns : List Turn} {response : Option HostResponse} {draws : Nat} {reads writes : List Range} :
    State.Inv { s with
      v := v, auth := auth, doneIe := doneIe, errIe := errIe, zof := zof, turns := turns, response := response
      draws := draws, runReads := reads, runWrites := writes } := { h with }

theorem State.Inv.withMemory {s : State} (h : s.Inv) {m : Memory} (hm : m.wf = true) :
    State.Inv { s with mem := m } := { h with memory := hm }

theorem State.Inv.withCp {s : State} (h : s.Inv) {cp : Word} (hcp : cp.toNat % 64 = 0) :
    State.Inv { s with cp := cp } := { h with cpAligned := hcp }

/-- While BUSY = 1, ERRCODE is 0 as well (R36, R37). -/
theorem State.Inv.errCode_of_running {s : State} (h : s.Inv) (hp : s.phase = .running) : s.errCode = 0 := by
  have hc := h.code
  rwa [(h.running hp).2, if_neg Bool.false_ne_true] at hc

/-- The slot that reset leaves (R46, R50). -/
theorem slotOk_empty : SlotOk KeySlot.empty := ⟨List.replicate 16 0, false, false, .inl rfl, rfl⟩

/-- The reset of the block (R50). -/
theorem resetBlock_inv {s : State} (hm : s.mem.wf = true) (hc : s.cfg.wf = true) : (resetBlock s).Inv where
  memory := hm
  cpAligned := rfl
  errPtrAligned := rfl
  slots k := by rw [resetBlock_slot]; exact slotOk_empty
  running h := nomatch h
  oneEnd h := nomatch h.1
  code := rfl
  config := hc

theorem ErrCode.code_range (e : ErrCode) : 1 ≤ e.code.toNat ∧ e.code.toNat ≤ 6 := by cases e <;> decide

/-- The error stop of a running Engine: DONE is 0 there, so that ERR alone is 1 (R360, R362). -/
theorem State.Inv.errorStop {s : State} (h : s.Inv) (hp : s.phase = .running) (e : ErrCode) :
    (errorStop e s).Inv :=
  { h with
    errPtrAligned := h.cpAligned
    running := fun hr => nomatch hr
    oneEnd := by rw [errorStop_done, (h.running hp).1]; exact fun hd => nomatch hd.1
    code := e.code_range }

/-- The key that KEXP reads has a legal length (R186, R354). -/
theorem keyLenOk_load {ks : SlotIx} {we wd : Bool} {key klen : Word} {s : State}
    (h : Completes (.kexp ks we wd key klen) s) : KeyLenOk (s.load key klen) := by
  obtain ⟨-, -, -, harg, -⟩ := h
  rw [KeyLenOk, length_load]
  by_cases h16 : klen = 16
  · exact .inl (by rw [h16]; rfl)
  · by_cases h24 : klen = 24
    · exact .inr (.inl (by rw [h24]; rfl))
    · by_cases h32 : klen = 32
      · exact .inr (.inr (by rw [h32]; rfl))
      · exact absurd ⟨h16, h24, h32⟩ harg

/-- A command that completes leaves every slot empty or built from one key (R46). -/
theorem effectOf_slotOk {i : Instr} {s : State} (hc : Completes i s) (h : ∀ k, SlotOk (s.slot k)) (k : SlotIx) :
    SlotOk ((effectOf i s).slot k) := by
  rcases effectOf_slot i s k with hk | ⟨we, wd, key, klen, rfl, hk⟩ <;> rw [hk]
  · exact h k
  · exact ⟨_, we, wd, keyLenOk_load hc, rfl⟩

/-- CP stays aligned when it advances, also past the end of the address space (R44, R331). -/
theorem add_64_aligned {cp : Word} (h : cp.toNat % 64 = 0) : (cp + 64).toNat % 64 = 0 := by
  rw [BitVec.toNat_add, show (64 : Word).toNat = 64 from rfl]; omega

/-- A whole command of a running Engine (R332). -/
theorem State.Inv.advance_effectOf {s : State} {i : Instr} (h : s.Inv) (hp : s.phase = .running)
    (hc : Completes i s) : (advance (effectOf i s)).Inv := by
  obtain ⟨hd, he⟩ := h.running hp
  exact {
    memory := effectOf_wf hc h.memory
    cpAligned := by rw [advance_cp, effectOf_cp]; exact add_64_aligned h.cpAligned
    errPtrAligned := by rw [advance_errPtr, effectOf_errPtr]; exact h.errPtrAligned
    slots := fun k => by rw [advance_slot]; exact effectOf_slotOk hc h.slots k
    running := fun hr => by
      rw [advance_phase] at hr
      rw [advance_done, advance_err, effectOf_err]
      rcases effectOf_goesOn_or_ends i s with ⟨-, hd'⟩ | ⟨hi, -⟩
      · exact ⟨hd'.trans hd, he⟩
      · rw [hi] at hr; cases hr
    oneEnd := by rw [advance_err, effectOf_err, he]; exact fun hb => nomatch hb.2
    code := by rw [advance_err, advance_errCode, effectOf_err, effectOf_errCode]; exact h.code
    config := by rw [advance_cfg, effectOf_cfg]; exact h.config }

/-- The Engine's turn (R332). -/
theorem State.Inv.engineStep {s t : State} (h : s.Inv) (hs : engineStep s = .next t) : t.Inv := by
  rcases engineStep_outcome hs with ⟨-, rfl⟩ | ⟨hp, u, _, _, rfl, ⟨i, hc, rfl⟩ | ⟨e, rfl⟩⟩
  · exact h
  · exact (h.advance_effectOf hp hc).withUntracked
  · exact (h.errorStop hp e).withUntracked

/-- START with ERR = 0 (R330): DONE is cleared, so that neither status bit is 1 while the run goes on. -/
theorem State.Inv.startedRun {s : State} (h : s.Inv) (he : s.err = false) :
    State.Inv { s with done := false, phase := .running } :=
  { h with
    running := fun _ => ⟨rfl, he⟩
    oneEnd := fun hb => nomatch hb.1 }

/-- A CTRL write (R35). -/
theorem State.Inv.writeCtrl {s : State} (h : s.Inv) (x : Word) : (writeCtrl x s).Inv := by
  rcases writeCtrl_cases x s with ⟨-, -, hw⟩ | ⟨-, -, -, he, hw⟩ | ⟨-, hw⟩ <;> rw [hw]
  · exact resetBlock_inv h.memory h.config
  · exact (h.startedRun he).withUntracked
  · exact h.withUntracked

/-- A STATUS write only clears bits, and ERRCODE with ERR (R37). -/
theorem State.Inv.writeStatus {s : State} (h : s.Inv) (x : Word) : (writeStatus x s).Inv := by
  have hdone : (if x.getLsbD 1 then false else s.done) = true → s.done = true := by split <;> simp
  have herr : (if x.getLsbD 2 then false else s.err) = true → s.err = true := by split <;> simp
  rw [writeStatus_eq]
  exact { h with
    running := fun hp => by
      obtain ⟨hd, he⟩ := h.running hp
      simp [hd, he]
    oneEnd := fun hb => h.oneEnd ⟨hdone hb.1, herr hb.2⟩
    code := by
      cases x.getLsbD 2 with
      | true => rfl
      | false => exact h.code }

/-- A CMD_PTR write (R38). -/
theorem State.Inv.writeCmdPtr {s : State} (h : s.Inv) (x : Word) : (writeCmdPtr x s).Inv := by
  unfold Machine.writeCmdPtr
  split
  · exact h
  · exact h.withCp (alignCp_mod x)

/-- A Host write to the window (R31 to R40). -/
theorem State.Inv.hostRegWrite {s : State} (h : s.Inv) (off : BitVec 8) (width : AccessWidth) (x : Word) :
    (hostRegWrite off width x s).Inv := by
  obtain ⟨u, r, hw, hu⟩ := hostRegWrite_cases off width x s
  rw [hw]
  suffices hI : u.Inv from hI.withUntracked
  rcases hu with rfl | ⟨-, -, rfl⟩ | ⟨-, -, rfl⟩ | rfl
  · exact h
  · exact h.writeCtrl x
  · exact h.writeStatus x
  · exact h.writeCmdPtr x

/-- A Host read of memory changes the answer and the count of free draws only (R82). -/
theorem State.Inv.hostMemRead {s : State} (h : s.Inv) (a : Word) : (hostMemRead a s).Inv := by
  unfold Machine.hostMemRead
  split
  · exact h.withUntracked
  · split <;> exact h.withUntracked

/-- A Host write to memory, inside the address space as every word is (R70). -/
theorem State.Inv.hostMemWrite {s : State} (h : s.Inv) (a : Word) (b : Byte) : (hostMemWrite a b s).Inv := by
  unfold Machine.hostMemWrite
  split
  · exact h.withUntracked
  · exact (h.withMemory (wf_write h.memory a.isLt b)).withUntracked

/-- The memory that the reset input leaves is canonical, also in the middle of a command (R402). -/
theorem State.Inv.memoryAtPowerOn {s : State} (h : s.Inv) : (memoryAtPowerOn s).wf = true := by
  unfold Machine.memoryAtPowerOn
  split
  · exact h.memory
  · split
    · rename_i t ht
      exact (tornMemory_spec _ h.memory (h.engineStep ht).memory).1
    · exact h.memory
    · exact h.memory

/-- The reset input (R400, R402). -/
theorem State.Inv.powerOnReset {s : State} (h : s.Inv) : (powerOnReset s).Inv :=
  ((resetBlock_inv h.memory h.config).withMemory h.memoryAtPowerOn).withUntracked

/-- Every turn (R333). -/
theorem State.Inv.takeTurn {s t : State} {u : Turn} (h : s.Inv) (ht : takeTurn u s = .next t) : t.Inv := by
  rcases takeTurn_next ht with ⟨-, he⟩ | ⟨_, _, -, rfl⟩ | ⟨off, width, x, -, rfl⟩ | ⟨a, -, rfl⟩ | ⟨a, b, -, -, rfl⟩ |
    ⟨-, rfl⟩
  · exact h.engineStep he
  · exact h.withUntracked
  · exact h.hostRegWrite off width x
  · exact h.hostMemRead a
  · exact h.hostMemWrite a b
  · exact h.powerOnReset

/-- Every step (R333). -/
theorem State.Inv.step {s t : State} (h : s.Inv) (hs : step s = .next t) : t.Inv := by
  rcases step_next hs with ⟨-, he⟩ | ⟨u, us, -, ht⟩
  · exact h.engineStep he
  · exact State.Inv.takeTurn (s := { s with turns := us }) h.withUntracked ht

/-- Settles O49: an Engine step is a whole command, an error stop or nothing, and each Host access and the reset input
keeps the invariant too. -/
theorem stepKeepsTheInvariant : Obligations.StepKeepsTheInvariant := by
  unfold Obligations.StepKeepsTheInvariant
  exact fun _ _ h hs => h.step hs

/-- Settles O50: the reset state is the reset of its own block, with an empty memory and parameters in the ranges of
R6. -/
theorem resetMeetsTheInvariant : Obligations.ResetMeetsTheInvariant := by
  unfold Obligations.ResetMeetsTheInvariant
  exact resetBlock_inv (s := State.reset) rfl (by decide)

/-! ### The slot that KEXP builds -/

theorem roundKey_slotKeys {ks : List Block} (h : ks.length ≤ 15) (r : Nat) :
    roundKey (slotKeys ks) r = ks.getD r 0 := by
  by_cases hr : r < 15
  · simp [roundKey, slotKeys, hr]
  · rw [List.getD_eq_default _ _ (by omega)]
    simp [roundKey, slotKeys, hr]

theorem roundKey_replicate_zero (r : Nat) : roundKey (Vector.replicate 15 0) r = 0 := by
  by_cases hr : r < 15 <;> simp [roundKey, hr]

@[simp] theorem length_forwardSchedule (key : List Byte) : (forwardSchedule key).length = keyNr key + 1 := by
  simp [forwardSchedule]

@[simp] theorem length_inverseSchedule (key : List Byte) : (inverseSchedule key).length = keyNr key + 1 := by
  simp [inverseSchedule]

/-- A key of a legal length has a whole number of words, and its schedule fits into a slot (R180). -/
theorem KeyLenOk.sizes {key : List Byte} (h : KeyLenOk key) : key.length = 4 * keyNk key ∧ keyNr key ≤ 14 := by
  rw [keyNr, keyNk]
  rcases h with h | h | h <;> rw [h] <;> decide

section BuildSlot
variable (key : List Byte) (we wd : Bool)

@[simp] theorem buildSlot_ev : (buildSlot key we wd).ev = we := by cases we <;> cases wd <;> rfl

@[simp] theorem buildSlot_dv : (buildSlot key we wd).dv = wd := by cases we <;> cases wd <;> rfl

theorem buildSlot_erk : (buildSlot key we wd).erk =
    if we then slotKeys (forwardSchedule key) else Vector.replicate 15 0 := by
  cases we <;> cases wd <;> rfl

theorem buildSlot_drk : (buildSlot key we wd).drk =
    if wd then slotKeys (inverseSchedule key) else Vector.replicate 15 0 := by
  cases we <;> cases wd <;> rfl

variable {key we wd}

/-- The key length of a slot with a valid direction (R180, R186). -/
theorem buildSlot_nk (hk : KeyLenOk key) (h : we = true ∨ wd = true) :
    (buildSlot key we wd).nk.toNat = keyNk key := by
  have hn : (BitVec.ofNat 4 (keyNk key)).toNat = keyNk key := by
    have := hk.sizes; rw [keyNr] at this
    rw [BitVec.toNat_ofNat]; omega
  rcases h with rfl | rfl
  · exact hn
  · cases we <;> exact hn

/-- The rounds of a slot with a valid direction (R180, R186). -/
theorem buildSlot_nr (hk : KeyLenOk key) (h : we = true ∨ wd = true) :
    (buildSlot key we wd).nr.toNat = keyNr key := by
  have hn : (BitVec.ofNat 4 (keyNr key)).toNat = keyNr key := by
    have := hk.sizes
    rw [BitVec.toNat_ofNat]; omega
  rcases h with rfl | rfl
  · exact hn
  · cases we <;> exact hn

theorem roundKey_buildSlot_erk (hk : KeyLenOk key) (r : Nat) :
    roundKey (buildSlot key we wd).erk r = if we then (forwardSchedule key).getD r 0 else 0 := by
  have hl : (forwardSchedule key).length ≤ 15 := by rw [length_forwardSchedule]; have := hk.sizes; omega
  rw [buildSlot_erk]
  cases we with
  | true => exact roundKey_slotKeys hl r
  | false => exact roundKey_replicate_zero r

theorem roundKey_buildSlot_drk (hk : KeyLenOk key) (r : Nat) :
    roundKey (buildSlot key we wd).drk r = if wd then (inverseSchedule key).getD r 0 else 0 := by
  have hl : (inverseSchedule key).length ≤ 15 := by rw [length_inverseSchedule]; have := hk.sizes; omega
  rw [buildSlot_drk]
  cases wd with
  | true => exact roundKey_slotKeys hl r
  | false => exact roundKey_replicate_zero r

/-- The entries of a built slot past its last round key are 0 (R45). -/
theorem roundKey_buildSlot_past (hk : KeyLenOk key) {r : Nat} (hr : (buildSlot key we wd).nr.toNat < r) :
    roundKey (buildSlot key we wd).erk r = 0 ∧ roundKey (buildSlot key we wd).drk r = 0 := by
  rw [roundKey_buildSlot_erk hk, roundKey_buildSlot_drk hk]
  constructor
  · split
    · rename_i h
      rw [buildSlot_nr hk (.inl h)] at hr
      exact List.getD_eq_default _ _ (by rw [length_forwardSchedule]; omega)
    · rfl
  · split
    · rename_i h
      rw [buildSlot_nr hk (.inr h)] at hr
      exact List.getD_eq_default _ _ (by rw [length_inverseSchedule]; omega)
    · rfl

/-- R46 for the slot that KEXP builds. -/
theorem slotMatchesKey_buildSlot (hk : KeyLenOk key) : SlotMatchesKey (buildSlot key we wd) key := by
  simp only [SlotMatchesKey, buildSlot_ev, buildSlot_dv]
  refine ⟨fun hv => ?_, ?_, ?_, ?_, ?_, fun r hr => roundKey_buildSlot_past hk hr⟩
  · rw [buildSlot_nk hk hv, buildSlot_nr hk hv]
    exact ⟨hk.sizes.1, rfl⟩
  · rintro rfl r -; exact roundKey_buildSlot_erk hk r
  · rintro rfl r -; exact roundKey_buildSlot_drk hk r
  · rintro rfl r; exact roundKey_buildSlot_erk hk r
  · rintro rfl r; exact roundKey_buildSlot_drk hk r

end BuildSlot

/-- A slot as KEXP or reset leaves it holds the schedules of one key (R46). -/
theorem SlotOk.matches_key {k : KeySlot} (h : SlotOk k) : ∃ kb, KeyLenOk kb ∧ SlotMatchesKey k kb := by
  obtain ⟨key, we, wd, hk, rfl⟩ := h
  exact ⟨key, hk, slotMatchesKey_buildSlot hk⟩

/-- Settles O21: every slot is `SlotOk` at reset, in every invariant state and after a KEXP, and such a slot holds the
schedules of the key that it was built from. -/
theorem everySlotHoldsTheSchedulesOfOneKey : Obligations.EverySlotHoldsTheSchedulesOfOneKey := by
  unfold Obligations.EverySlotHoldsTheSchedulesOfOneKey
  refine ⟨fun k => (resetMeetsTheInvariant.slots k).matches_key, fun s hs => ⟨fun k => (hs.slots k).matches_key, ?_⟩⟩
  intro ks we wd key klen hc
  exact ⟨_, exec_completes hc, fun k => (effectOf_slotOk hc hs.slots k).matches_key⟩

/-! ### Who changes what -/

/-- Only GCM_DEC and OCB_DEC change AUTH (R47). -/
theorem auth_changed_by {i : Instr} {s : State} (h : (effectOf i s).auth ≠ s.auth) :
    ∃ ks tlen b res, i = .gcmDec ks tlen b res ∨ i = .ocbDec ks tlen b res := by
  rw [effectOf_auth] at h
  split at h
  · exact ⟨_, _, _, _, .inl rfl⟩
  · exact ⟨_, _, _, _, .inr rfl⟩
  · exact absurd rfl h

/-- Only KEXP changes a slot, and only its own (R45). -/
theorem slot_changed_by {i : Instr} {s : State} {k : SlotIx} (h : (effectOf i s).slot k ≠ s.slot k) :
    ∃ we wd key klen, i = .kexp k we wd key klen := by
  rcases effectOf_slot i s k with hk | ⟨we, wd, key, klen, hi, -⟩
  · exact absurd hk h
  · exact ⟨we, wd, key, klen, hi⟩

/-- Settles O45: an error stop changes none of these, and the effects of the commands are read off one by one. -/
theorem onlyTheNamedCommandsWriteSlotsAuthAndRegisters :
    Obligations.OnlyTheNamedCommandsWriteSlotsAuthAndRegisters := by
  unfold Obligations.OnlyTheNamedCommandsWriteSlotsAuthAndRegisters
  intro i s t h
  rcases exec_next h with ⟨-, rfl⟩ | ⟨e, -, rfl⟩
  · rw [advance_ks, advance_auth, advance_v, advance_cfg]
    refine ⟨fun k hk => slot_changed_by hk, auth_changed_by, fun hv => ?_, effectOf_cfg i s⟩
    have ne_of_keeps {j : Instr} (hj : (effectOf j s).v = s.v) : i ≠ j := by
      rintro rfl; exact hv hj
    exact ⟨fun _ _ _ _ _ => ne_of_keeps (setSlot_v ..), fun _ _ => ne_of_keeps (store_v ..), ne_of_keeps rfl,
      ne_of_keeps (endRunDone_v s),
      fun _ _ _ => ⟨ne_of_keeps (writeSealed_v ..), ne_of_keeps (writeSealed_v ..)⟩,
      fun _ _ _ _ => ⟨ne_of_keeps (writeOpened_v ..), ne_of_keeps (writeOpened_v ..)⟩,
      fun _ _ _ => ⟨ne_of_keeps (xtsApply_v ..), ne_of_keeps (xtsApply_v ..)⟩⟩
  · exact ⟨fun _ hk => absurd rfl hk, fun ha => absurd rfl ha, fun hv => absurd rfl hv, rfl⟩

/-- A CTRL write changes ERR_PTR only by a soft reset (R39, R401). -/
theorem writeCtrl_errPtr (x : Word) (s : State) :
    (writeCtrl x s).errPtr = s.errPtr ∨ (x.getLsbD 1 = true ∧ writeCtrl x s = resetBlock s) := by
  rcases writeCtrl_cases x s with ⟨-, h1, hw⟩ | ⟨-, -, -, -, hw⟩ | ⟨-, hw⟩
  · exact .inr ⟨h1, hw⟩
  · exact .inl (by rw [hw]; rfl)
  · exact .inl (by rw [hw]; rfl)

@[simp] theorem writeStatus_errPtr (x : Word) (s : State) : (writeStatus x s).errPtr = s.errPtr := by
  rw [writeStatus_eq]

/-- Everything a CMD_PTR write changes (R38). -/
theorem writeCmdPtr_eq (x : Word) (s : State) : writeCmdPtr x s = { s with cp := (writeCmdPtr x s).cp } := by
  unfold writeCmdPtr; split <;> rfl

/-- Everything a Host read of memory changes. -/
theorem hostMemRead_eq (a : Word) (s : State) :
    hostMemRead a s = { s with response := (hostMemRead a s).response, draws := (hostMemRead a s).draws } := by
  unfold hostMemRead
  split
  · rfl
  · split <;> rfl

/-- Everything a Host write of memory changes. -/
theorem hostMemWrite_eq (a : Word) (b : Byte) (s : State) :
    hostMemWrite a b s = { s with mem := (hostMemWrite a b s).mem, response := (hostMemWrite a b s).response } := by
  unfold hostMemWrite; split <;> rfl

/-- A Host write to the window changes ERR_PTR only by a soft reset (R39). -/
theorem hostRegWrite_errPtr {off : BitVec 8} {width : AccessWidth} {x : Word} {s : State}
    (h : (hostRegWrite off width x s).errPtr ≠ s.errPtr) :
    off = 0x08 ∧ width = .word ∧ x.getLsbD 1 = true ∧
      (hostRegWrite off width x s).errPtr = 0 ∧ (hostRegWrite off width x s).phase = .idle := by
  obtain ⟨u, r, hw, hu⟩ := hostRegWrite_cases off width x s
  rw [hw] at h ⊢
  rcases hu with rfl | ⟨ho, hwd, rfl⟩ | ⟨-, -, rfl⟩ | rfl
  · exact absurd rfl h
  · rcases writeCtrl_errPtr x s with he | ⟨h1, hr⟩
    · exact absurd he h
    · rw [hr]; exact ⟨ho, hwd, h1, rfl, rfl⟩
  · exact absurd (writeStatus_errPtr x s) h
  · exact absurd (by rw [writeCmdPtr_eq]) h

/-- Settles O54: of the turns only an error stop, a soft reset and the reset input write ERR_PTR. -/
theorem errPtrChangesOnlyAtAnErrorStop : Obligations.ErrPtrChangesOnlyAtAnErrorStop := by
  unfold Obligations.ErrPtrChangesOnlyAtAnErrorStop
  refine ⟨fun s x => ⟨?_, ?_⟩, fun u s t ht hne => ?_, rfl⟩
  · rw [hostRegRead_word (by decide), readReg_errPtr]
  · rw [hostRegWrite_word (by decide), writeReg_errPtr]
  · rcases takeTurn_next ht with ⟨rfl, he⟩ | ⟨_, _, rfl, rfl⟩ | ⟨off, width, x, rfl, rfl⟩ | ⟨a, rfl, rfl⟩ |
      ⟨a, b, rfl, -, rfl⟩ | ⟨rfl, rfl⟩
    · rcases engineStep_outcome he with ⟨-, rfl⟩ | ⟨hp, w, _, _, rfl, ⟨i, -, rfl⟩ | ⟨e, rfl⟩⟩
      · exact absurd rfl hne
      · exact absurd (effectOf_errPtr i s) hne
      · exact .inl ⟨rfl, hp, rfl, rfl, rfl, rfl⟩
    · exact absurd rfl hne
    · obtain ⟨rfl, rfl, h1, h0, hi⟩ := hostRegWrite_errPtr hne
      exact .inr ⟨h0, hi, .inr ⟨x, rfl, h1⟩⟩
    · exact absurd (by rw [hostMemRead_eq]) hne
    · exact absurd (by rw [hostMemWrite_eq]) hne
    · exact .inr ⟨rfl, rfl, .inl rfl⟩

/-! ### Bits of the register words -/

section Words
variable (s : State) (c : Config)

@[simp] theorem ctrlWord_doneIe : (ctrlWord s).getLsbD 4 = s.doneIe := by
  simp only [ctrlWord, BitVec.getLsbD_append]; simp
@[simp] theorem ctrlWord_errIe : (ctrlWord s).getLsbD 5 = s.errIe := by
  simp only [ctrlWord, BitVec.getLsbD_append]; simp
@[simp] theorem ctrlWord_zof : (ctrlWord s).getLsbD 8 = s.zof := by
  simp only [ctrlWord, BitVec.getLsbD_append]; simp

/-- START, SRST and the reserved bits of CTRL read 0 (R34). -/
theorem ctrlWord_zeros : (ctrlWord s).extractLsb' 0 4 = 0 ∧ (ctrlWord s).extractLsb' 6 2 = 0 ∧
    (ctrlWord s).extractLsb' 9 23 = 0 := by
  unfold ctrlWord
  cases s.doneIe <;> cases s.errIe <;> cases s.zof <;> decide

@[simp] theorem statusWord_busy : (statusWord s).getLsbD 0 = s.busy := by
  simp only [statusWord, BitVec.getLsbD_append]; simp
@[simp] theorem statusWord_done : (statusWord s).getLsbD 1 = s.done := by
  simp only [statusWord, BitVec.getLsbD_append]; simp
@[simp] theorem statusWord_err : (statusWord s).getLsbD 2 = s.err := by
  simp only [statusWord, BitVec.getLsbD_append]; simp
@[simp] theorem statusWord_auth : (statusWord s).getLsbD 3 = s.auth := by
  simp only [statusWord, BitVec.getLsbD_append]; simp

theorem statusWord_low_zeros : (statusWord s).extractLsb' 4 4 = 0 :=
  show (statusWord s).extractLsb' (1 + (1 + (1 + (1 + 0)))) 4 = 0 by
    simp only [statusWord, extract_append_high, extract_append_low]; rfl

theorem statusWord_errCode : (statusWord s).extractLsb' 8 8 = s.errCode :=
  show (statusWord s).extractLsb' (1 + (1 + (1 + (1 + (4 + 0))))) 8 = s.errCode by
    simp only [statusWord, extract_append_high, extract_append_low]

theorem statusWord_high_zeros : (statusWord s).extractLsb' 16 16 = 0 :=
  show (statusWord s).extractLsb' (1 + (1 + (1 + (1 + (4 + (8 + 0)))))) 16 = 0 by
    simp only [statusWord, extract_append_high]; rfl

theorem capWord_hasCrypto : (capWord c).getLsbD 0 = c.hasCrypto ∧ (capWord c).getLsbD 1 = c.hasCrypto := by
  simp only [capWord, BitVec.getLsbD_append]; simp

/-- The constant fields of CAP (R33). -/
theorem capWord_constants : (capWord c).extractLsb' 2 2 = 0 ∧ (capWord c).extractLsb' 4 4 = 0xF ∧
    (capWord c).extractLsb' 8 8 = 16 :=
  show (capWord c).extractLsb' (1 + (1 + 0)) 2 = 0 ∧ (capWord c).extractLsb' (1 + (1 + (2 + 0))) 4 = 0xF ∧
      (capWord c).extractLsb' (1 + (1 + (2 + (4 + 0)))) 8 = 16 by
    simp only [capWord, extract_append_high, extract_append_low]; decide

theorem capWord_xtsMaxUnits : (capWord c).extractLsb' 16 16 = c.xtsMaxUnits :=
  show (capWord c).extractLsb' (1 + (1 + (2 + (4 + (8 + 0))))) 16 = c.xtsMaxUnits by
    simp only [capWord, extract_append_high, BitVec.extractLsb'_eq_self]

end Words

/-! ### IRQ -/

/-- No turn of the Engine lowers IRQ: a command keeps DONE or sets it, an error stop sets ERR, and the enables stay
(R41). -/
theorem irq_engineStep {s t : State} (h : engineStep s = .next t) (hs : irq s = true) : irq t = true := by
  simp only [irq, Bool.or_eq_true, Bool.and_eq_true] at hs ⊢
  rcases engineStep_outcome h with ⟨-, rfl⟩ | ⟨-, u, _, _, rfl, ⟨i, -, rfl⟩ | ⟨e, rfl⟩⟩
  · exact hs
  · have hd : s.done = true → (effectOf i s).done = true := fun hd =>
      (effectOf_goesOn_or_ends i s).elim (fun h => h.2.trans hd) And.right
    change ((effectOf i s).done = true ∧ (effectOf i s).doneIe = true) ∨
      ((effectOf i s).err = true ∧ (effectOf i s).errIe = true)
    rw [effectOf_doneIe, effectOf_err, effectOf_errIe]
    exact hs.imp_left (And.imp_left hd)
  · exact hs.imp_right fun he => ⟨rfl, he.2⟩

/-- A Host write to the window changes IRQ only through CTRL and STATUS (R41). -/
theorem hostRegWrite_irq {off : BitVec 8} {width : AccessWidth} {x : Word} {s : State}
    (h : irq (hostRegWrite off width x s) ≠ irq s) : width = .word ∧ (off = 0x08 ∨ off = 0x0C) := by
  obtain ⟨u, r, hw, hu⟩ := hostRegWrite_cases off width x s
  rw [hw] at h
  rcases hu with rfl | ⟨ho, hwd, -⟩ | ⟨ho, hwd, -⟩ | rfl
  · exact absurd rfl h
  · exact ⟨hwd, .inl ho⟩
  · exact ⟨hwd, .inr ho⟩
  · exact absurd (by rw [writeCmdPtr_eq]; rfl) h

/-- Settles O56: of the turns that can change IRQ at all the Engine's never lowers it, which leaves the writes of CTRL
and STATUS and the reset input. -/
theorem irqStaysUntilTheHostClearsIt : Obligations.IrqStaysUntilTheHostClearsIt := by
  unfold Obligations.IrqStaysUntilTheHostClearsIt
  refine ⟨fun s => by rw [statusWord_done, ctrlWord_doneIe, statusWord_err, ctrlWord_errIe, irq], ?_⟩
  intro u s t ht hs hf
  have hne : irq t ≠ irq s := by rw [hs, hf]; exact Bool.false_ne_true
  rcases takeTurn_next ht with ⟨rfl, he⟩ | ⟨_, _, rfl, rfl⟩ | ⟨off, width, x, rfl, rfl⟩ | ⟨a, rfl, rfl⟩ |
    ⟨a, b, rfl, -, rfl⟩ | ⟨rfl, rfl⟩
  · exact absurd ((irq_engineStep he hs).trans hs.symm) hne
  · exact absurd rfl hne
  · obtain ⟨rfl, rfl | rfl⟩ := hostRegWrite_irq hne
    · exact .inl ⟨x, rfl⟩
    · exact .inr (.inl ⟨x, rfl⟩)
  · exact absurd (by rw [hostMemRead_eq]; rfl) hne
  · exact absurd (by rw [hostMemWrite_eq]; rfl) hne
  · exact .inr (.inr rfl)

/-! ### The phases, and the registers one by one -/

/-- Settles O8: BUSY is the phase's own bit, and the Engine step of an IDLE block is the identity. -/
theorem idleEngineFetchesAndExecutesNothing : Obligations.IdleEngineFetchesAndExecutesNothing := by
  unfold Obligations.IdleEngineFetchesAndExecutesNothing
  refine ⟨fun s => ⟨phase_idle_or_running s, by rw [statusWord_busy, busy_eq_true_iff]⟩, fun s hi => ?_, rfl⟩
  exact ⟨engineStep_idle hi, fun ht => by rw [step, ht]; exact engineStep_idle hi⟩

/-- Settles O51: a CTRL write is a soft reset, a START or neither, and each reads as the one matching branch of the
statement. -/
theorem ctrlWriteTakesEffectInOrder : Obligations.CtrlWriteTakesEffectInOrder := by
  unfold Obligations.CtrlWriteTakesEffectInOrder
  intro s x
  refine ⟨?_, ctrlWord s, by rw [hostRegRead_word (by decide), readReg_ctrl], ctrlWord_doneIe s, ctrlWord_errIe s,
    ctrlWord_zof s, ctrlWord_zeros s⟩
  rw [hostRegWrite_word (by decide), writeReg_ctrl]
  rcases writeCtrl_cases x s with ⟨hp, h1, hw⟩ | ⟨hp, h1, h0, he, hw⟩ | ⟨hn, hw⟩ <;> rw [hw]
  · rw [if_pos ⟨h1, hp⟩]; rfl
  · rw [if_neg fun h => Bool.false_ne_true (h1.symm.trans h.1), if_pos ⟨h0, hp, he⟩, setCtrlBits, busy_of_idle hp, hp]
    rfl
  · rw [if_neg fun h => hn ⟨h.2, .inl h.1⟩, if_neg fun h => hn ⟨h.2.1, .inr ⟨h.1, h.2.2⟩⟩, setCtrlBits]
    simp only [busy_eq_true_iff]

/-- Settles O52: the write is `writeStatus_eq`, and while BUSY = 1 the bits that it clears are 0 already. -/
theorem statusWriteClearsDoneAndErr : Obligations.StatusWriteClearsDoneAndErr := by
  unfold Obligations.StatusWriteClearsDoneAndErr
  intro s x
  refine ⟨?_, fun hs hp => ?_, statusWord s, by rw [hostRegRead_word (by decide), readReg_status], statusWord_busy s,
    statusWord_done s, statusWord_err s, statusWord_auth s, statusWord_low_zeros s, statusWord_errCode s,
    statusWord_high_zeros s⟩
  · rw [hostRegWrite_word (by decide), writeReg_status, writeStatus_eq]
  · obtain ⟨hd, he⟩ := hs.running hp
    rw [hostRegWrite_word (by decide), writeReg_status, writeStatus_eq]
    simp only [hd, he, hs.errCode_of_running hp, ite_self]

/-- The low six bits of an aligned pointer (R44). -/
theorem extract_low_of_aligned {a : Word} (h : a.toNat % 64 = 0) : a.extractLsb' 0 6 = 0 := by
  apply BitVec.eq_of_toNat_eq
  rw [BitVec.extractLsb'_toNat, Nat.shiftRight_zero]; exact h

/-- Settles O53: CMD_PTR reads and, in IDLE, writes CP, whose alignment is the invariant's. -/
theorem cmdPtrReadsAndWritesCp : Obligations.CmdPtrReadsAndWritesCp := by
  unfold Obligations.CmdPtrReadsAndWritesCp
  refine ⟨fun s x => ⟨?_, fun hs => extract_low_of_aligned hs.cpAligned, fun hp => ?_, fun hp => ?_⟩, rfl⟩
  · rw [hostRegRead_word (by decide), readReg_cmdPtr]
  · rw [hostRegWrite_word (by decide), writeReg_cmdPtr, writeCmdPtr, busy_of_idle hp]; rfl
  · rw [hostRegWrite_word (by decide), writeReg_cmdPtr, writeCmdPtr, busy_of_running hp]; rfl

/-- Settles O55: reads and writes of these offsets by `readReg` and `writeReg`, and the bus error of any other
access. -/
theorem constantAndReservedRegistersAndBadAccesses : Obligations.ConstantAndReservedRegistersAndBadAccesses := by
  unfold Obligations.ConstantAndReservedRegistersAndBadAccesses
  intro s off width x
  obtain ⟨h0, h1⟩ := capWord_hasCrypto s.cfg
  obtain ⟨h2, h4, h8⟩ := capWord_constants s.cfg
  refine ⟨capWord s.cfg, ⟨?_, ?_⟩, ⟨?_, ?_, h0, h1, h2, h4, h8, capWord_xtsMaxUnits s.cfg⟩, fun hr ha => ⟨?_, ?_⟩,
    fun hb => ⟨?_, ?_⟩⟩
  · rw [hostRegRead_word (by decide), readReg_id, idWord]
  · rw [hostRegWrite_word (by decide), writeReg_id]
  · rw [hostRegRead_word (by decide), readReg_cap]
  · rw [hostRegWrite_word (by decide), writeReg_cap]
  · rw [hostRegRead_word ha, readReg_reserved s hr]
  · rw [hostRegWrite_word ha, writeReg_reserved x s hr]
  · rw [hostRegRead, if_neg (not_goodAccess hb)]
  · rw [hostRegWrite, if_neg (not_goodAccess hb)]

/-! ### Reset -/

/-- Every register and slot entry is 0 at reset (R50). -/
theorem reset_values (k : VReg) (j : SlotIx) : State.reset.v[k] = 0 ∧ State.reset.ks[j] = KeySlot.empty := by
  simp [State.reset]

/-- The entries of the empty slot are 0 (R50). -/
theorem empty_entry (j : Fin 15) : KeySlot.empty.erk[j] = 0 ∧ KeySlot.empty.drk[j] = 0 := by
  simp [KeySlot.empty]

theorem memoryAtPowerOn_idle {s : State} (h : s.phase = .idle) : memoryAtPowerOn s = s.mem := by
  simp only [memoryAtPowerOn, h]

/-- Settles O57: both resets are `resetBlock`, but for the memory that a power-on reset tears during a run. -/
theorem resetPutsEveryRegisterToItsValue : Obligations.ResetPutsEveryRegisterToItsValue := by
  unfold Obligations.ResetPutsEveryRegisterToItsValue
  refine ⟨⟨rfl, by decide, by decide, rfl, rfl, rfl, fun k => (reset_values k 0).1, fun k => ?_⟩, fun s => ?_,
    fun s x hp hx => ?_⟩
  · rw [(reset_values 0 k).2]
    exact ⟨rfl, rfl, rfl, rfl, fun j => (empty_entry j).1, fun j => (empty_entry j).2⟩
  · exact ⟨powerOnReset s, rfl, rfl, rfl, fun hp => memoryAtPowerOn_idle hp, rfl⟩
  · have hw : hostRegWrite 0x08 .word x s = { resetBlock s with response := some .done } := by
      rw [hostRegWrite_word (by decide), writeReg_ctrl, writeCtrl_softReset hp hx]
    refine ⟨hostRegWrite 0x08 .word x s, rfl, ?_⟩
    rw [hw]
    exact ⟨rfl, rfl, rfl⟩

end Sys2Proof.Machine
end

section
/-! PROOFS. The engine memory (20_memory.md): what a command reads and writes there, and the Host's accesses. -/

namespace Sys2Proof.Machine

/-! ### Admission, byte by byte -/

theorem inRegions_iff (rs : List Region) (a : Nat) :
    inRegions rs a = true ↔ ∃ r ∈ rs, r.base ≤ a ∧ a < r.base + r.size := by simp [inRegions]

theorem inWindow_iff (c : Config) (a : Nat) : inWindow c a = true ↔ InVisibleWindow c a := by
  simp [inWindow, InVisibleWindow, and_assoc]

theorem not_inWindow_iff (c : Config) (a : Nat) : inWindow c a = false ↔ ¬ InVisibleWindow c a := by
  rw [← inWindow_iff, Bool.not_eq_true]

theorem engineMayRead_iff (c : Config) (a : Nat) : EngineMayRead c a ↔ a < 2 ^ 32 ∧ mayRead c a = true := by
  rw [EngineMayRead, mayRead, Bool.and_eq_true, Bool.not_eq_true', inRegions_iff, not_inWindow_iff]

theorem engineMayWrite_iff (c : Config) (a : Nat) : EngineMayWrite c a ↔ a < 2 ^ 32 ∧ mayWrite c a = true := by
  rw [EngineMayWrite, mayWrite, Bool.and_eq_true, Bool.not_eq_true', inRegions_iff, not_inWindow_iff]

/-- What admission asks of a range, for each of its bytes (R71). -/
theorem admitted_iff (p : Nat → Bool) (a n : Nat) :
    (n == 0 || (decide (a + n ≤ 2 ^ 32) && allFrom p a n)) = true ↔
      ∀ x, a ≤ x → x < a + n → x < 2 ^ 32 ∧ p x = true := by
  rw [Bool.or_eq_true, Bool.and_eq_true, beq_iff_eq, decide_eq_true_iff, allFrom_iff]
  constructor
  · rintro h x hx hn
    obtain ⟨d, rfl⟩ := Nat.exists_eq_add_of_le hx
    rcases h with h | ⟨hle, hp⟩
    · omega
    · exact ⟨by omega, hp d (by omega)⟩
  · intro h
    by_cases hn : n = 0
    · exact .inl hn
    · have hlast := (h (a + n - 1) (by omega) (by omega)).1
      exact .inr ⟨by omega, fun i hi => (h (a + i) (by omega) (by omega)).2⟩

theorem admittedRead_iff (c : Config) (a n : Nat) :
    admittedRead c a n = true ↔ ∀ x, a ≤ x → x < a + n → EngineMayRead c x := by
  simp only [engineMayRead_iff]; exact admitted_iff (mayRead c) a n

theorem admittedWrite_iff (c : Config) (a n : Nat) :
    admittedWrite c a n = true ↔ ∀ x, a ≤ x → x < a + n → EngineMayWrite c x := by
  simp only [engineMayWrite_iff]; exact admitted_iff (mayWrite c) a n

/-- A command that completes names only bytes that the Engine may read and write (R71, R78). -/
theorem Completes.mayAccess {i : Instr} {s : State} (h : Completes i s) :
    (∀ a, InRanges (readRanges i) a → EngineMayRead s.cfg a) ∧
    ∀ a, InRanges (writeRanges i) a → EngineMayWrite s.cfg a := by
  obtain ⟨-, -, -, -, hadm⟩ := h
  simp only [rangesAdmitted, Bool.and_eq_true, List.all_eq_true] at hadm
  exact ⟨fun a ⟨r, hr, hlo, hhi⟩ => (admittedRead_iff _ _ _).mp (hadm.1 r hr) a hlo hhi,
    fun a ⟨r, hr, hlo, hhi⟩ => (admittedWrite_iff _ _ _).mp (hadm.2 r hr) a hlo hhi⟩

/-- Settles O46: an error stop writes nothing, and a command that completes writes its admitted ranges. -/
theorem memoryChangesOnlyInTheWriteRanges : Obligations.MemoryChangesOnlyInTheWriteRanges := by
  unfold Obligations.MemoryChangesOnlyInTheWriteRanges
  refine ⟨fun i s t hm h a hne => ?_, fun c a n => ⟨admittedRead_iff c a n, admittedWrite_iff c a n⟩⟩
  rcases exec_next h with ⟨hc, rfl⟩ | ⟨e, -, rfl⟩
  · have hin : InRanges (writeRanges i) a := by
      by_contra hout; exact hne (effectOf_mem_outside hc hm hout)
    exact ⟨hin, hc.mayAccess.2 a hin⟩
  · exact absurd rfl hne

/-! ### A command on another memory -/

/-- Bytes read from two memories that agree on their range. -/
theorem AgreeOn.readBytes {rs : List Range} {m m' : Memory} (h : AgreeOn rs m m') {a n : Nat} {r : Range}
    (hr : r ∈ rs) (hlo : r.1 ≤ a) (hhi : a + n ≤ r.1 + r.2) : m'.readBytes a n = m.readBytes a n := by
  induction n generalizing a with
  | zero => rfl
  | succ n ih =>
    rw [Memory.readBytes, Memory.readBytes, ih (by omega) (by omega), h a ⟨r, hr, hlo, by omega⟩]

section OtherMemory
variable {s : State} {m : Memory} {r : Option HostResponse}

theorem slot_withMemory (k : SlotIx) : State.slot { s with mem := m, response := r } k = s.slot k := rfl

theorem AgreeOn.load {rs : List Range} (h : AgreeOn rs s.mem m) {a n : Word} (hr : rangeOf a n ∈ rs) :
    State.load { s with mem := m, response := r } a n = s.load a n :=
  h.readBytes hr (Nat.le_refl _) (Nat.le_refl _)

/-- The inputs of a GCM or OCB command, in either direction. -/
theorem AgreeOn.aeadLoads {b : AeadBufs} {rs : List Range} (h : AgreeOn rs s.mem m) (hr : aeadReads b ⊆ rs) :
    State.load { s with mem := m, response := r } b.src b.len = s.load b.src b.len ∧
    State.load { s with mem := m, response := r } b.aad b.alen = s.load b.aad b.alen ∧
    State.load { s with mem := m, response := r } b.nonce b.nlen = s.load b.nonce b.nlen :=
  ⟨h.load (hr (by simp [aeadReads])), h.load (hr (by simp [aeadReads])), h.load (hr (by simp [aeadReads]))⟩

theorem AgreeOn.receivedTag {b : AeadBufs} {tlen : BitVec 5} {rs : List Range}
    (h : AgreeOn rs s.mem m) (hr : (b.tag.toNat, tlen.toNat) ∈ rs) :
    receivedTag b tlen { s with mem := m, response := r } = receivedTag b tlen s :=
  h.readBytes hr (Nat.le_refl _) (Nat.le_refl _)

/-- What an encryption computes depends on its read ranges only (R76). -/
theorem sealedOf_withMemory {i : Instr} (h : AgreeOn (readRanges i) s.mem m) :
    sealedOf i { s with mem := m, response := r } = sealedOf i s := by
  cases i with
  | gcmEnc ks tlen b | ocbEnc ks tlen b =>
    obtain ⟨hsrc, haad, hnonce⟩ := h.aeadLoads (r := r) (b := b) (List.Subset.refl _)
    simp only [sealedOf, hsrc, haad, hnonce, slot_withMemory]
  | _ => rfl

/-- What a decryption computes depends on its read ranges only (R76). -/
theorem openedOf_withMemory {i : Instr} (h : AgreeOn (readRanges i) s.mem m) :
    openedOf i { s with mem := m, response := r } = openedOf i s := by
  cases i with
  | gcmDec ks tlen b res | ocbDec ks tlen b res =>
    obtain ⟨hsrc, haad, hnonce⟩ := h.aeadLoads (r := r) (b := b) (List.subset_append_left _ _)
    have htag := h.receivedTag (r := r) (b := b) (tlen := tlen) (by simp [readRanges])
    simp only [openedOf, hsrc, haad, hnonce, htag, slot_withMemory]
  | _ => rfl

/-- The IV of a data unit of the command depends on the IV array only, in SEQ = 1 on nothing (R291). -/
theorem xtsIv_congr {b : XtsBufs} (h : AgreeOn (xtsReads b) s.mem m) {u : Nat} (hu : u < xtsUnits b) :
    xtsIv m b.iv u = xtsIv s.mem b.iv u := by
  unfold xtsReads at h
  cases hiv : b.iv with
  | array a =>
    rw [hiv] at h
    rw [xtsIv, xtsIv, h.readBytes (r := (a.toNat, 16 * xtsUnits b)) (by simp) (by simp) (by simp; omega)]
  | seq n => rfl

/-- What an XTS command computes depends on its read ranges only (R76). -/
theorem xtsBuffer_withMemory (unit : List Block → List Byte → List Byte) (e : Block → Block) {b : XtsBufs}
    (h : AgreeOn (xtsReads b) s.mem m) :
    xtsBuffer unit (fun u => e (xtsIv m b.iv u)) b.dul.toNat (xtsUnits b)
        (State.load { s with mem := m, response := r } b.src b.len) =
      xtsBuffer unit (fun u => e (xtsIv s.mem b.iv u)) b.dul.toNat (xtsUnits b) (s.load b.src b.len) := by
  have hsrc : rangeOf b.src b.len ∈ xtsReads b := by unfold xtsReads; split <;> simp
  rw [h.load hsrc, xtsBuffer, xtsBuffer, List.flatMap_congr]
  intro u hu
  rw [xtsIv_congr h (List.mem_range.mp hu)]

theorem setGroup_withMemory (k : Nat) (xs : List Block) :
    State.setGroup { s with mem := m, response := r } k xs = { s.setGroup k xs with mem := m, response := r } := by
  induction xs generalizing s k with
  | nil => rfl
  | cons x xs ih => exact ih (s := s.setV k x) (k + 1)

/-- A command writes the same bytes and does the same to everything else on any memory that agrees on its read ranges
(R76); that the Host's last answer plays no part is what `RunEndsIn.withMemory` needs of it besides. -/
theorem effectOf_withMemory {i : Instr} (h : AgreeOn (readRanges i) s.mem m) :
    effectOf i { s with mem := m, response := r } =
      { effectOf i s with mem := writeAll (outputsOf i s) m, response := r } := by
  cases i with
  | kexp ks we wd key klen =>
    rw [effectOf, h.load (r := r) (a := key) (n := klen) (by simp [readRanges])]; rfl
  | vld vd addr =>
    rw [effectOf, h.load (r := r) (a := addr) (n := 16) (by simp [readRanges, rangeOf])]; rfl
  | aese1 | aese2 | aese4 | aese8 | aesd1 | aesd2 | aesd4 | aesd8 => exact setGroup_withMemory ..
  | gcmEnc | ocbEnc => rw [effectOf, sealedOf_withMemory h]; rfl
  | gcmDec | ocbDec => rw [effectOf, openedOf_withMemory h]; rfl
  | xtsEnc | xtsDec => simp only [effectOf, xtsApply, xtsBuffer_withMemory _ _ h]; rfl
  | nop | halt | krk | gmul | gred4 | dbl | dblx | dblx8 | vinc32 | vst | vxor => rfl

theorem checksOf_withMemory (i : Instr) : checksOf i { s with mem := m, response := r } = checksOf i s := by
  cases i <;> rfl

/-- Memory does not decide whether a command completes (R361). -/
theorem completes_withMemory (i : Instr) : Completes i { s with mem := m, response := r } ↔ Completes i s := by
  rw [← firstError_none_iff, ← firstError_none_iff, checksOf_withMemory]

/-- Memory does not decide which error a command raises (R361). -/
theorem raises_withMemory (i : Instr) (e : ErrCode) :
    Raises i { s with mem := m, response := r } e ↔ Raises i s e := by
  rw [← firstError_some_iff, ← firstError_some_iff, checksOf_withMemory]

end OtherMemory

/-- The same writes to two memories leave the same byte at an address that a write covers or where the two agreed. -/
theorem read_writeAll_congr {outs : List (Nat × List Byte)} {m m' : Memory} {lo lo' : Nat}
    (h : m.risesFrom lo = true) (h' : m'.risesFrom lo' = true) {a : Nat}
    (ha : m.read a = m'.read a ∨ ∃ o ∈ outs, o.1 ≤ a ∧ a < o.1 + o.2.length) :
    (writeAll outs m).read a = (writeAll outs m').read a := by
  induction outs generalizing m m' lo lo' with
  | nil => simpa [writeAll] using ha
  | cons o outs ih =>
    refine ih (risesFrom_writeBytes h o.1 o.2) (risesFrom_writeBytes h' o.1 o.2) ?_
    rw [read_writeBytes h, read_writeBytes h']
    by_cases ho : o.1 ≤ a ∧ a < o.1 + o.2.length
    · exact .inl (by rw [if_pos ho, if_pos ho])
    · rw [if_neg ho, if_neg ho]
      refine ha.imp_right ?_
      rintro ⟨q, hq, hqa⟩
      rcases List.mem_cons.mp hq with rfl | hq
      · exact absurd hqa ho
      · exact ⟨q, hq, hqa⟩

/-- The byte of a write range of a command that completes is one that the command writes (R76). -/
theorem Completes.exists_output {i : Instr} {s : State} (hc : Completes i s) {a : Nat}
    (ha : InRanges (writeRanges i) a) :
    ∃ o ∈ outputsOf i s, o.1 ≤ a ∧ a < o.1 + o.2.length := by
  obtain ⟨q, hq, hqa⟩ := ha
  rw [← outputsOf_ranges hc] at hq
  obtain ⟨o, ho, rfl⟩ := List.mem_map.mp hq
  exact ⟨o, ho, hqa⟩

/-- The advance moves CP, also past the end of the address space (R331), so that CP tells a command that completes from
an error stop. -/
theorem cp_ne_advanced (s : State) : s.cp ≠ s.cp + 64 := by simp

/-- A command that raises an error does not complete (R361). -/
theorem Raises.not_completes {i : Instr} {s : State} {e : ErrCode} (hr : Raises i s e) : ¬ Completes i s := by
  intro hc
  have h := (exec_raises hr).symm.trans (exec_completes hc)
  have hcp : s.cp = (effectOf i s).cp + 64 := congrArg State.cp (Host.Outcome.next.inj h)
  rw [effectOf_cp] at hcp
  exact cp_ne_advanced s hcp

/-- Settles O47: the checks of a command do not look at memory, and its effect on a memory that agrees on the read
ranges is the same list of writes. -/
theorem resultsDependOnlyOnTheReadRanges : Obligations.ResultsDependOnlyOnTheReadRanges := by
  unfold Obligations.ResultsDependOnlyOnTheReadRanges
  intro i s t m' hm hm' hagree ht
  rcases exec_next ht with ⟨hc, rfl⟩ | ⟨e, hr, rfl⟩
  · have hc' := (completes_withMemory (m := m') (r := s.response) i).mpr hc
    have heff := effectOf_withMemory (r := s.response) hagree
    refine ⟨_, exec_completes hc', ?_, fun _ a ha => ?_, fun _ => hc.mayAccess.1,
      fun a ha => effectOf_mem_outside hc' hm' ha⟩
    · rw [heff, effectOf_eq]; rfl
    · rw [heff]
      show (effectOf i s).mem.read a = (writeAll (outputsOf i s) m').read a
      rw [effectOf_mem]
      exact read_writeAll_congr (risesFrom_of_wf hm) (risesFrom_of_wf hm') (.inr (hc.exists_output ha))
  · have hr' := (raises_withMemory (m := m') (r := s.response) i e).mpr hr
    exact ⟨_, exec_raises hr', rfl, fun hc => absurd hc hr.not_completes,
      fun hcp => absurd hcp (cp_ne_advanced s), fun _ _ => rfl⟩

/-! ### A run on another memory -/

theorem InRanges.append_left {rs qs : List Range} {a : Nat} (h : InRanges rs a) : InRanges (rs ++ qs) a := by
  obtain ⟨r, hr, ha⟩ := h; exact ⟨r, List.mem_append_left _ hr, ha⟩

theorem InRanges.append_right {rs qs : List Range} {a : Nat} (h : InRanges qs a) : InRanges (rs ++ qs) a := by
  obtain ⟨r, hr, ha⟩ := h; exact ⟨r, List.mem_append_right _ hr, ha⟩

/-- From memories `m` and `m'` the same writes, all inside the ranges `ws`, led to `n` and `n'`: bytes that agreed still
do, and a byte outside `ws` is as it was in `m'`. -/
def SameWrites (ws : List Range) (m m' n n' : Memory) : Prop :=
  ∀ a, (m.read a = m'.read a → n.read a = n'.read a) ∧ (¬ InRanges ws a → n'.read a = m'.read a)

theorem SameWrites.refl (ws : List Range) (m m' : Memory) : SameWrites ws m m' m m' :=
  fun _ => ⟨id, fun _ => rfl⟩

theorem SameWrites.mono {us ws : List Range} {m m' n n' : Memory} (h : SameWrites us m m' n n')
    (hsub : ∀ a, InRanges us a → InRanges ws a) : SameWrites ws m m' n n' :=
  fun a => (h a).imp_right fun hkeep ha => hkeep fun hu => ha (hsub a hu)

theorem SameWrites.trans {ws : List Range} {m m' n n' k k' : Memory} (h : SameWrites ws m m' n n')
    (h' : SameWrites ws n n' k k') : SameWrites ws m m' k k' :=
  fun a => ⟨fun he => (h' a).1 ((h a).1 he), fun ha => ((h' a).2 ha).trans ((h a).2 ha)⟩

theorem SameWrites.agreeOn {ws rs : List Range} {m m' n n' : Memory} (h : SameWrites ws m m' n n')
    (ha : AgreeOn rs m m') : AgreeOn rs n n' := fun a hr => (h a).1 (ha a hr)

/-- A command that completes, on two memories (R76). -/
theorem sameWrites_writeAll {i : Instr} {s : State} {m m' : Memory} (hc : Completes i s) (hm : m.wf = true)
    (hm' : m'.wf = true) :
    SameWrites (writeRanges i) m m' (writeAll (outputsOf i s) m) (writeAll (outputsOf i s) m') := by
  refine fun a => ⟨fun he => read_writeAll_congr (risesFrom_of_wf hm) (risesFrom_of_wf hm') (.inl he), fun ha => ?_⟩
  refine read_writeAll_outside (risesFrom_of_wf hm') fun o ho hoa => ha ?_
  rw [← outputsOf_ranges hc]
  exact ⟨_, List.mem_map.mpr ⟨o, ho, rfl⟩, hoa⟩

/-- An Engine step keeps the memory's canonical form. -/
theorem engineStep_wf {s t : State} (h : engineStep s = .next t) (hm : s.mem.wf = true) : t.mem.wf = true := by
  rcases engineStep_outcome h with ⟨-, rfl⟩ | ⟨-, u, _, _, rfl, ⟨i, hc, rfl⟩ | ⟨e, rfl⟩⟩
  · exact hm
  · exact effectOf_wf hc hm
  · exact hm

/-- An Engine step only adds to the record of the run (log entry 18). -/
theorem engineStep_keeps_record {s t : State} (h : engineStep s = .next t) {a : Nat} :
    (InRanges s.runReads a → InRanges t.runReads a) ∧ (InRanges s.runWrites a → InRanges t.runWrites a) := by
  rcases engineStep_next h with ⟨-, rfl⟩ | ⟨-, i, u, -, hx, rfl⟩ | ⟨-, e, -, rfl⟩
  · exact ⟨id, id⟩
  · obtain ⟨hr, hw⟩ := exec_notes hx
    rw [← hr, ← hw]
    unfold noteCommand
    split
    · exact ⟨.append_right, id⟩
    · exact ⟨fun h => h.append_right.append_right, .append_right⟩
  · exact ⟨.append_right, id⟩

/-- A run only adds to its record. -/
theorem RunEndsIn.keeps_record {n : Nat} {s t : State} (h : RunEndsIn n s t) {a : Nat} :
    (InRanges s.runReads a → InRanges t.runReads a) ∧ (InRanges s.runWrites a → InRanges t.runWrites a) := by
  induction n generalizing s with
  | zero => obtain ⟨-, rfl⟩ := h; exact ⟨id, id⟩
  | succ n ih =>
    obtain ⟨-, u, hs, hu⟩ := h
    have hstep := engineStep_keeps_record hs (a := a)
    exact ⟨(ih hu).1 ∘ hstep.1, (ih hu).2 ∘ hstep.2⟩

/-- What a step notes of a command that completes: its ranges of R76.  HALT, which ends the run, has none. -/
theorem noteCommand_completes {s : State} (hp : s.phase = .running) (i : Instr) :
    (noteCommand i (advance (effectOf i s))).runReads = readRanges i ++ s.runReads ∧
    (noteCommand i (advance (effectOf i s))).runWrites = writeRanges i ++ s.runWrites := by
  have hphase := effectOf_phase_done i s
  split at hphase
  · exact ⟨rfl, rfl⟩
  · have hrun : (advance (effectOf i s)).phase = .running := (congrArg Prod.fst hphase).trans hp
    rw [noteCommand, hrun, effectOf_eq]; exact ⟨rfl, rfl⟩

section OtherMemory
variable {s : State} {m : Memory} {r : Option HostResponse}

/-- The fetch depends on the descriptor's bytes only, and on none when it is not admitted (R332). -/
theorem fetch_withMemory (h : AgreeOn (fetchRanges s) s.mem m) :
    fetch { s with mem := m, response := r } = fetch s := by
  unfold fetch
  cases hadm : admittedRead s.cfg s.cp.toNat 64 with
  | false => rfl
  | true =>
    have hr : (s.cp.toNat, 64) ∈ fetchRanges s := by simp [fetchRanges, hadm]
    simp only [h.readBytes hr (Nat.le_refl _) (Nat.le_refl _)]

/-- The notes of a step depend on no byte of memory. -/
theorem notes_withMemory (i : Instr) (u : State) (m' : Memory) :
    noteFetch { s with mem := m, response := r } (noteCommand i { u with mem := m', response := r }) =
      { noteFetch s (noteCommand i u) with mem := m', response := r } := by
  unfold noteCommand
  dsimp only
  split <;> rfl

end OtherMemory

/-- An Engine step on a memory that agrees on all that the run has read by then (R76). -/
theorem engineStep_withMemory {s t : State} {m : Memory} (r : Option HostResponse) (hm : s.mem.wf = true)
    (hm' : m.wf = true) (hs : engineStep s = .next t) (hread : AgreeOn t.runReads s.mem m) :
    ∃ m', engineStep { s with mem := m, response := r } = .next { t with mem := m', response := r } ∧
      SameWrites t.runWrites s.mem m t.mem m' := by
  rcases engineStep_next hs with ⟨hi, rfl⟩ | ⟨hp, i, u, hf, hx, rfl⟩ | ⟨hp, e, hf, rfl⟩
  · exact ⟨m, engineStep_idle hi, .refl _ _ _⟩
  · have hfetch : fetch { s with mem := m, response := r } = .ok i :=
      (fetch_withMemory fun a ha => hread a ha.append_left).trans hf
    rcases exec_next hx with ⟨hc, rfl⟩ | ⟨e, hr, rfl⟩
    · obtain ⟨hnr, hnw⟩ := noteCommand_completes hp i
      rw [noteFetch_runReads, hnr] at hread
      have heff := effectOf_withMemory (r := r) fun a ha => hread a ha.append_left.append_right
      have hx' := exec_completes ((completes_withMemory (m := m) (r := r) i).mpr hc)
      rw [heff] at hx'
      refine ⟨writeAll (outputsOf i s) m, ?_, ?_⟩
      · rw [engineStep_ok (s := { s with mem := m, response := r }) hp hfetch hx']
        exact congrArg _ (notes_withMemory i (advance (effectOf i s)) _)
      · rw [noteFetch_runWrites, hnw, noteFetch_mem, noteCommand_mem, advance_mem, effectOf_mem]
        exact (sameWrites_writeAll hc hm hm').mono fun _ => InRanges.append_left
    · have hx' := exec_raises ((raises_withMemory (m := m) (r := r) i e).mpr hr)
      exact ⟨m, engineStep_ok (s := { s with mem := m, response := r }) hp hfetch hx', .refl _ _ _⟩
  · have hfetch : fetch { s with mem := m, response := r } = .error e :=
      (fetch_withMemory fun a ha => hread a ha.append_left).trans hf
    exact ⟨m, engineStep_error (s := { s with mem := m, response := r }) hp hfetch, .refl _ _ _⟩

/-- A run on a memory that agrees on all that the run reads (R76, R80). -/
theorem RunEndsIn.withMemory {n : Nat} {s t : State} {m : Memory} (r : Option HostResponse) (h : RunEndsIn n s t)
    (hm : s.mem.wf = true) (hm' : m.wf = true) (hread : AgreeOn t.runReads s.mem m) :
    ∃ m', RunEndsIn n { s with mem := m, response := r } { t with mem := m', response := r } ∧
      SameWrites t.runWrites s.mem m t.mem m' := by
  induction n generalizing s m with
  | zero => obtain ⟨hi, rfl⟩ := h; exact ⟨m, ⟨hi, rfl⟩, .refl _ _ _⟩
  | succ n ih =>
    obtain ⟨hp, u, hs, hu⟩ := h
    obtain ⟨k, hs', hk⟩ := engineStep_withMemory r hm hm' hs fun a ha => hread a (hu.keeps_record.1 ha)
    obtain ⟨m', hu', hw⟩ := ih hu (engineStep_wf hs hm) (engineStep_wf hs' hm') (hk.agreeOn hread)
    exact ⟨m', ⟨hp, _, hs', hu'⟩, (hk.mono fun _ => hu.keeps_record.2).trans hw⟩

/-! ### The Host's accesses -/

/-- A Host read or write of a byte of a visible window (R31, R78). -/
theorem hostAccess_window {s : State} {a : Word} (h : inWindow s.cfg a.toNat = true) (b : Byte) :
    takeTurn (.memRead a) s = .next { s with response := some .busError } ∧
    takeTurn (.memWrite a b) s = .next { s with response := some .busError } := by
  simp [takeTurn, breaksHostDuty, hostMemRead, hostMemWrite, h]

/-- A Host read outside the window (R82). -/
theorem takeTurn_memRead {s : State} {a : Word} (h : inWindow s.cfg a.toNat = false) :
    takeTurn (.memRead a) s = .next (if s.busy = true ∧ writtenByRun s a.toNat = true then
      { s with response := some (.byte (Config.freeByte s.draws)), draws := s.draws + 1 }
      else { s with response := some (.byte (s.mem.read a.toNat)) }) := by
  simp only [takeTurn, hostMemRead, h, Bool.and_eq_true, Bool.false_eq_true, if_false]

/-- A Host write outside the window (R83). -/
theorem takeTurn_memWrite {s : State} {a : Word} (h : inWindow s.cfg a.toNat = false) (b : Byte) :
    takeTurn (.memWrite a b) s =
      if s.busy = true ∧ usedByRun s a.toNat = true then .refused .hostWriteDuringRun
      else .next { s with mem := s.mem.write a.toNat b, response := some .done } := by
  simp only [takeTurn, breaksHostDuty, hostMemWrite, h, Bool.not_false, Bool.and_true, Bool.and_eq_true,
    Bool.false_eq_true, if_false]

/-- The bytes that a run which ends in `t` writes (R82). -/
theorem writtenByRun_iff {n : Nat} {s t : State} (hrun : RunEndsIn n s t) (hn : n < 2 ^ 64) (a : Nat) :
    writtenByRun s a = true ↔ InRanges t.runWrites a := by
  rw [writtenByRun, wholeRun_of_runEndsIn hrun hn, inRanges_iff]

/-- The bytes that a run which ends in `t` reads or writes (R83). -/
theorem usedByRun_iff {n : Nat} {s t : State} (hrun : RunEndsIn n s t) (hn : n < 2 ^ 64) (a : Nat) :
    usedByRun s a = true ↔ InRanges t.runReads a ∨ InRanges t.runWrites a := by
  rw [usedByRun, wholeRun_of_runEndsIn hrun hn, Bool.or_eq_true, inRanges_iff, inRanges_iff]

/-- The CTRL writes that empty the record of the run: a soft reset and a START that begins a run (R330, R401). -/
theorem writeCtrl_record (x : Word) (s : State) :
    if s.phase = .idle ∧ (x.getLsbD 1 = true ∨ x.getLsbD 0 = true ∧ s.err = false) then
      (writeCtrl x s).runReads = [] ∧ (writeCtrl x s).runWrites = []
    else (writeCtrl x s).runReads = s.runReads ∧ (writeCtrl x s).runWrites = s.runWrites := by
  rcases writeCtrl_cases x s with ⟨hp, h1, hw⟩ | ⟨hp, -, h0, he, hw⟩ | ⟨hn, hw⟩ <;> rw [hw]
  · rw [if_pos ⟨hp, .inl h1⟩]; exact ⟨rfl, rfl⟩
  · rw [if_pos ⟨hp, .inr ⟨h0, he⟩⟩]; exact ⟨rfl, rfl⟩
  · rw [if_neg hn]; exact ⟨rfl, rfl⟩

/-- Settles O59: each Host access by its one equation, the whole of a run that ends being the state in which it ends. -/
theorem hostMemoryAccesses : Obligations.HostMemoryAccesses := by
  unfold Obligations.HostMemoryAccesses
  refine ⟨fun s a b hi hw => ?_, fun m a x b hm => read_write (risesFrom_of_wf hm) a x b, fun s a b hw => ?_,
    fun off width x s t ht => ?_, fun n s t a b hp hw hrun hn => ?_⟩
  · rw [← not_inWindow_iff] at hw
    rw [takeTurn_memRead hw, takeTurn_memWrite hw, busy_of_idle hi]
    simp
  · exact hostAccess_window ((inWindow_iff _ _).mpr hw) b
  · obtain rfl : hostRegWrite off width x s = t := Host.Outcome.next.inj ht
    refine ⟨?_, fun hn => ?_⟩
    · rintro ⟨rfl, rfl, he⟩
      have h := writeCtrl_record x s
      rw [if_pos he] at h
      rw [hostRegWrite_word (by decide), writeReg_ctrl]; exact h
    · obtain ⟨u, r, hu, hc⟩ := hostRegWrite_cases off width x s
      rw [hu]
      rcases hc with rfl | ⟨ho, hwd, rfl⟩ | ⟨-, -, rfl⟩ | rfl
      · exact ⟨rfl, rfl⟩
      · have h := writeCtrl_record x s
        rw [if_neg fun he => hn ⟨ho, hwd, he⟩] at h
        exact h
      · rw [writeStatus_eq]; exact ⟨rfl, rfl⟩
      · rw [writeCmdPtr_eq]; exact ⟨rfl, rfl⟩
  · rw [← not_inWindow_iff] at hw
    have hwritten := writtenByRun_iff hrun hn a.toNat
    have hused := usedByRun_iff hrun hn a.toNat
    rw [takeTurn_memRead hw, takeTurn_memWrite hw, busy_of_running hp]
    refine ⟨fun h => ?_, fun h => ?_, fun h => ?_, fun hr hwr => ?_⟩
    · rw [if_pos ⟨rfl, hwritten.mpr h⟩]
    · rw [if_neg fun hb => h (hwritten.mp hb.2)]
    · rw [if_pos ⟨rfl, hused.mpr h⟩]
    · rw [if_neg fun hb => (hused.mp hb.2).elim hr hwr]

/-- All that a Host write during a run that ends in `t` can do when it is not refused: a bus error at the window, or the
write of a byte that the run does not use (R83). -/
theorem memWrite_next {n : Nat} {s s' t : State} {a : Word} {b : Byte} (hp : s.phase = .running)
    (hrun : RunEndsIn n s t) (hn : n < 2 ^ 64) (h : takeTurn (.memWrite a b) s = .next s') :
    (inWindow s.cfg a.toNat = true ∧ s' = { s with response := some .busError }) ∨
    (inWindow s.cfg a.toNat = false ∧ ¬ InRanges t.runReads a.toNat ∧ ¬ InRanges t.runWrites a.toNat ∧
      s' = { s with mem := s.mem.write a.toNat b, response := some .done }) := by
  cases hw : inWindow s.cfg a.toNat with
  | true =>
    rw [(hostAccess_window hw b).2] at h
    exact .inl ⟨rfl, (Host.Outcome.next.inj h).symm⟩
  | false =>
    rw [takeTurn_memWrite hw] at h
    split at h
    · cases h
    · rename_i hno
      rw [not_and, usedByRun_iff hrun hn, not_or] at hno
      obtain ⟨hr, hwr⟩ := hno (busy_of_running hp)
      exact .inr ⟨rfl, hr, hwr, (Host.Outcome.next.inj h).symm⟩

/-- Settles O60: the written byte is none that the run reads or writes, so the run goes on to the same state, and that
byte stays as the Host wrote it. -/
theorem admittedHostWriteLeavesTheRun : Obligations.AdmittedHostWriteLeavesTheRun := by
  unfold Obligations.AdmittedHostWriteLeavesTheRun
  intro n s s' t a b hm hp hrun hn ht
  rcases memWrite_next hp hrun hn ht with ⟨hw, rfl⟩ | ⟨hw, hr, hwr, rfl⟩
  · obtain ⟨m', hrun', hsame⟩ := hrun.withMemory (some .busError) hm hm fun _ _ => rfl
    refine ⟨_, hrun', rfl, fun x => ?_⟩
    rw [if_neg fun h => Bool.false_ne_true (h.2.symm.trans hw)]
    exact ((hsame x).1 rfl).symm
  · have hread : ∀ x, (s.mem.write a.toNat b).read x = if x = a.toNat then b else s.mem.read x :=
      fun x => read_write (risesFrom_of_wf hm) _ x b
    have hagree : ∀ x, x ≠ a.toNat → s.mem.read x = (s.mem.write a.toNat b).read x :=
      fun x hx => by rw [hread, if_neg hx]
    obtain ⟨m', hrun', hsame⟩ := hrun.withMemory (some .done) hm (wf_write hm a.isLt b) fun x hx =>
      hagree x fun he => hr (he ▸ hx)
    refine ⟨_, hrun', rfl, fun x => ?_⟩
    by_cases hx : x = a.toNat
    · subst hx
      rw [if_pos ⟨rfl, hw⟩]
      exact ((hsame _).2 hwr).trans (by rw [hread, if_pos rfl])
    · rw [if_neg fun h => hx h.1]
      exact ((hsame x).1 (hagree x hx)).symm

end Sys2Proof.Machine
end

section
/-! PROOFS. The encoding of descriptors (30_encoding.md): the headers of an opcode, the decoder and the encoder. -/

namespace Sys2Proof

/-! ### The headers of an opcode -/

/-- The header `h` has the opcode `o` and no bit but those of the fields that `o` uses (R104, R105). -/
def Opcode.Admits (o : Opcode) (h : Word) : Prop := h &&& ~~~o.usedBits = o.code.setWidth 32

theorem opcodeOf_eq_some_iff (b : Byte) (o : Opcode) : opcodeOf b = some o ↔ b = o.code := by
  constructor
  · intro h
    have hcode : (o.code == b) = true := List.find?_some (p := fun o : Opcode => o.code == b) h
    exact (eq_of_beq hcode).symm
  · rintro rfl
    cases o <;> rfl

/-- The OPC field as header bits (R101). -/
theorem and_opc (h : Word) : h &&& 0xFF#32 = (h.extractLsb' 0 8).setWidth 32 := by
  apply BitVec.eq_of_getLsbD_eq
  intro j hj
  have hopc : (0xFF#32).getLsbD j = decide (j < 8) := by
    rw [show 0xFF#32 = (BitVec.allOnes 8).setWidth 32 from rfl, BitVec.getLsbD_setWidth, BitVec.getLsbD_allOnes]
    simp [hj]
  rw [BitVec.getLsbD_and, hopc, BitVec.getLsbD_setWidth, BitVec.getLsbD_extractLsb', Nat.zero_add]
  simp [hj, Bool.and_comm]

theorem extract_one (h : Word) (k : Nat) : h.extractLsb' k 1 = BitVec.ofBool (h.getLsbD k) := by
  apply BitVec.eq_of_getLsbD_eq
  intro j hj
  obtain rfl : j = 0 := by omega
  simp

namespace Opcode.Admits
variable {o : Opcode} {h : Word}

/-- What a mask without the used fields keeps of a header is what it keeps of the opcode. -/
theorem and_mask (hh : o.Admits h) {m : Word} (hm : ~~~o.usedBits &&& m = m) : h &&& m = o.code.setWidth 32 &&& m := by
  rw [← hm, ← BitVec.and_assoc, hh, hm]

theorem opc (hh : o.Admits h) : h.extractLsb' 0 8 = o.code := by
  have hlow := congrArg (BitVec.extractLsb' 0 8) (hh.and_mask (m := 0xFF#32) (by cases o <;> rfl))
  have hones : (0xFF#32).extractLsb' 0 8 = BitVec.allOnes 8 := rfl
  rw [BitVec.extractLsb'_and, BitVec.extractLsb'_and, hones, BitVec.and_allOnes, BitVec.and_allOnes] at hlow
  exact hlow.trans (by cases o <;> rfl)

/-- A field that the command does not use is 0 (R105). -/
theorem unused (hh : o.Admits h) {lo n : Nat} (hu : o.usedBits.extractLsb' lo n = 0) (hlo : 8 ≤ lo := by decide) :
    h.extractLsb' lo n = 0 := by
  apply BitVec.eq_of_getLsbD_eq
  intro j hj
  have hbit := congrArg (·.getLsbD (lo + j)) hh
  have hfree := congrArg (·.getLsbD j) hu
  have hcode : (o.code.setWidth 32).getLsbD (lo + j) = false := by
    rw [BitVec.getLsbD_setWidth, BitVec.getLsbD_of_ge _ _ (by omega), Bool.and_false]
  simp only [BitVec.getLsbD_extractLsb', hj, decide_true, Bool.true_and, BitVec.ofNat_eq_ofNat, BitVec.getLsbD_zero]
    at hfree ⊢
  by_cases hw : lo + j < 32
  · simpa only [BitVec.getLsbD_and, BitVec.getLsbD_not, hw, hfree, hcode, decide_true, Bool.not_false, Bool.and_true]
      using hbit
  · exact BitVec.getLsbD_of_ge _ _ (by omega)

theorem unused_nib (hh : o.Admits h) {lo : Nat} (hu : o.usedBits.extractLsb' lo 4 = 0) (hlo : 8 ≤ lo := by decide) :
    nib h lo = 0 :=
  congrArg BitVec.toFin (hh.unused hu hlo)

theorem unused_bit (hh : o.Admits h) {lo : Nat} (hu : o.usedBits.extractLsb' lo 1 = 0) (hlo : 8 ≤ lo := by decide) :
    h.getLsbD lo = false := by
  simpa using congrArg (·.getLsbD 0) (hh.unused hu hlo)

/-- A format R header is made of its fields (R102). -/
theorem eq_rHeader (hh : o.Admits h) {vd va vb ks : Fin 16} {n : BitVec 2} (hrsv : o.usedBits.extractLsb' 26 6 = 0)
    (hvd : nib h 8 = vd) (hva : nib h 12 = va) (hvb : nib h 16 = vb) (hks : nib h 20 = ks)
    (hn : h.extractLsb' 24 2 = n) : rHeader o vd va vb ks n = h := by
  subst hvd hva hvb hks hn
  have hfields : h.extractLsb' 26 6 ++ h.extractLsb' 24 2 ++ h.extractLsb' 20 4 ++ h.extractLsb' 16 4
      ++ h.extractLsb' 12 4 ++ h.extractLsb' 8 4 ++ h.extractLsb' 0 8 = h := by
    simp only [BitVec.extractLsb'_append_extractLsb'_eq_extractLsb']
    exact BitVec.extractLsb'_eq_self
  rwa [hh.unused hrsv, hh.opc] at hfields

/-- A format M header is made of its fields (R103). -/
theorem eq_mHeader (hh : o.Admits h) {ks ks2 : Fin 16} {tlen : BitVec 5} {fl0 fl1 : Bool}
    (hrsv : o.usedBits.extractLsb' 24 8 = 0) (hfl2 : o.usedBits.extractLsb' 23 1 = 0)
    (hks : nib h 8 = ks) (hks2 : nib h 12 = ks2) (ht : tlenOf h = tlen)
    (h0 : h.getLsbD 21 = fl0) (h1 : h.getLsbD 22 = fl1) : mHeader o ks ks2 tlen fl0 fl1 = h := by
  subst hks hks2 ht h0 h1
  have hfields : h.extractLsb' 24 8 ++ h.extractLsb' 23 1 ++ h.extractLsb' 22 1 ++ h.extractLsb' 21 1
      ++ h.extractLsb' 16 5 ++ h.extractLsb' 12 4 ++ h.extractLsb' 8 4 ++ h.extractLsb' 0 8 = h := by
    simp only [BitVec.extractLsb'_append_extractLsb'_eq_extractLsb']
    exact BitVec.extractLsb'_eq_self
  rwa [hh.unused hrsv, hh.unused hfl2, hh.opc, extract_one, extract_one] at hfields

end Opcode.Admits

/-- The decoder's own test of a header (R101, R105, R109). -/
theorem admits_iff (o : Opcode) (h : Word) : o.Admits h ↔
    opcodeOf (h.extractLsb' 0 8) = some o ∧ h &&& o.reservedBits = 0 ∧ h &&& ~~~(o.usedBits ||| 0xFF) = 0 := by
  constructor
  · intro hh
    refine ⟨(opcodeOf_eq_some_iff _ _).mpr hh.opc, ?_, ?_⟩
    · exact (hh.and_mask (by cases o <;> rfl)).trans (by cases o <;> rfl)
    · exact (hh.and_mask (by cases o <;> rfl)).trans (by cases o <;> rfl)
  · rintro ⟨hopc, -, hunused⟩
    have hmask : ~~~o.usedBits = ~~~(o.usedBits ||| 0xFF) ||| 0xFF#32 := by cases o <;> rfl
    rw [Opcode.Admits, hmask, BitVec.and_or_distrib_left, hunused, and_opc, (opcodeOf_eq_some_iff _ _).mp hopc,
      BitVec.ofNat_eq_ofNat, BitVec.zero_or]

/-! ### The decoder -/

/-- The opcode of a command (R104). -/
def Instr.opcode : Instr → Opcode
  | .nop => .nop
  | .halt => .halt
  | .kexp .. => .kexp
  | .krk .. => .krk
  | .aese1 .. | .aese2 .. | .aese4 .. | .aese8 .. => .aese
  | .aesd1 .. | .aesd2 .. | .aesd4 .. | .aesd8 .. => .aesd
  | .gmul .. => .gmul
  | .gred4 .. => .gred4
  | .dbl .. => .dbl
  | .dblx .. => .dblx
  | .dblx8 .. => .dblx8
  | .vinc32 .. => .vinc32
  | .vld .. => .vld
  | .vst .. => .vst
  | .vxor .. => .vxor
  | .gcmEnc .. => .gcmEnc
  | .gcmDec .. => .gcmDec
  | .ocbEnc .. => .ocbEnc
  | .ocbDec .. => .ocbDec
  | .xtsEnc .. => .xtsEnc
  | .xtsDec .. => .xtsDec

/-- A descriptor whose header an opcode admits is built as a command of that opcode. -/
theorem decodeWords_of_admits {o : Opcode} {w : Nat → Word} (hh : o.Admits (w 0)) :
    decodeWords w = buildInstr o w := by
  obtain ⟨hopc, hres, hunused⟩ := (admits_iff o (w 0)).mp hh
  simp only [decodeWords, hopc, hres, hunused, ne_eq, not_true_eq_false, if_false]

/-- A descriptor that decodes has a header that some opcode admits, and is built as a command of that opcode. -/
theorem admits_of_decodeWords {w : Nat → Word} {i : Instr} (h : decodeWords w = .ok i) :
    ∃ o : Opcode, o.Admits (w 0) ∧ buildInstr o w = .ok i := by
  simp only [decodeWords] at h
  split at h
  · cases h
  · rename_i o hopc
    split at h
    · cases h
    · rename_i hres
      split at h
      · cases h
      · rename_i hunused
        exact ⟨o, (admits_iff o (w 0)).mpr ⟨hopc, not_not.mp hres, not_not.mp hunused⟩, h⟩

/-- The decoder builds a command exactly when a KRK selector has no bit but [3:0] and 8 (R109 (e)). -/
theorem buildInstr_isOk_iff (o : Opcode) (w : Nat → Word) :
    (∃ i, buildInstr o w = .ok i) ↔ (o = .krk → w 1 &&& ~~~0x10F#32 = 0) := by
  cases o with
  | krk =>
    by_cases hsel : w 1 &&& ~~~0x10F#32 = 0
    · exact iff_of_true ⟨_, if_pos hsel⟩ fun _ => hsel
    · simp only [buildInstr, if_neg hsel]
      simpa using hsel
  | _ => simp [buildInstr]

/-- A command is built of the operand words that it uses, and of no other (R106, R109). -/
theorem buildInstr_congr (o : Opcode) {w w' : Nat → Word} (h0 : w' 0 = w 0)
    (hused : ∀ k ∈ usedWords o (w 0), w' k = w k) : buildInstr o w' = buildInstr o w := by
  cases o with
  | xtsEnc | xtsDec =>
    have hbufs : xtsBufs w' = xtsBufs w := by
      simp only [usedWords] at hused
      cases hseq : (w 0).getLsbD 21 with
      | true =>
        rw [hseq, if_pos rfl] at hused
        simp only [List.forall_mem_cons] at hused
        simp only [xtsBufs, h0, hseq, hused, if_true]
      | false =>
        rw [hseq, if_neg Bool.false_ne_true] at hused
        simp only [List.forall_mem_cons] at hused
        simp only [xtsBufs, h0, hseq, hused, Bool.false_eq_true, if_false]
    simp only [buildInstr, h0, hbufs]
  | gcmEnc | gcmDec | ocbEnc | ocbDec =>
    simp only [usedWords, List.forall_mem_cons] at hused
    simp only [buildInstr, aeadBufs, h0, hused]
  | _ =>
    simp only [usedWords, List.forall_mem_cons] at hused
    simp only [buildInstr, h0, hused]

/-! ### The header of a decoded command -/

theorem laneCode_cases (n : BitVec 2) : n = 0 ∨ n = 1 ∨ n = 2 ∨ n = 3 := by decide +revert

/-- The four AESE commands have one header, with their lane code in N (R102). -/
theorem header_aeseOf (n : BitVec 2) (vd va : VReg) (ks : SlotIx) :
    (encode (aeseOf n vd va ks)).headD 0 = rHeader .aese vd va 0 ks n := by
  rcases laneCode_cases n with rfl | rfl | rfl | rfl <;> rfl

theorem header_aesdOf (n : BitVec 2) (vd va : VReg) (ks : SlotIx) :
    (encode (aesdOf n vd va ks)).headD 0 = rHeader .aesd vd va 0 ks n := by
  rcases laneCode_cases n with rfl | rfl | rfl | rfl <;> rfl

/-- An XTS header has SEQ as its FL0 (R103). -/
theorem header_xtsWords (o : Opcode) (ks kt : SlotIx) (w : Nat → Word) :
    (xtsWords o ks kt (xtsBufs w)).headD 0 = mHeader o ks kt 0 ((w 0).getLsbD 21) false := by
  cases h : (w 0).getLsbD 21 <;> simp only [xtsWords, xtsBufs, h] <;> rfl

/-- The fields of a decoded command make its header again, the fields it does not use being 0 (R102, R103, R105). -/
theorem header_of_buildInstr {o : Opcode} {w : Nat → Word} {i : Instr} (hh : o.Admits (w 0))
    (hi : buildInstr o w = .ok i) : (encode i).headD 0 = w 0 := by
  cases o with
  | krk =>
    simp only [buildInstr] at hi
    split at hi
    · obtain rfl := Except.ok.inj hi
      exact hh.eq_rHeader rfl rfl (hh.unused_nib rfl) (hh.unused_nib rfl) rfl (hh.unused rfl)
    · cases hi
  | aese =>
    obtain rfl := Except.ok.inj hi
    exact (header_aeseOf _ _ _ _).trans (hh.eq_rHeader rfl rfl rfl (hh.unused_nib rfl) rfl rfl)
  | aesd =>
    obtain rfl := Except.ok.inj hi
    exact (header_aesdOf _ _ _ _).trans (hh.eq_rHeader rfl rfl rfl (hh.unused_nib rfl) rfl rfl)
  | xtsEnc | xtsDec =>
    obtain rfl := Except.ok.inj hi
    exact (header_xtsWords _ _ _ _).trans
      (hh.eq_mHeader rfl rfl rfl rfl (hh.unused rfl) rfl (hh.unused_bit rfl))
  | gcmEnc | gcmDec | ocbEnc | ocbDec =>
    obtain rfl := Except.ok.inj hi
    exact hh.eq_mHeader rfl rfl rfl (hh.unused_nib rfl) rfl (hh.unused_bit rfl) (hh.unused_bit rfl)
  | kexp =>
    obtain rfl := Except.ok.inj hi
    exact hh.eq_mHeader rfl rfl rfl (hh.unused_nib rfl) (hh.unused rfl) rfl rfl
  | gmul | gred4 | vxor =>
    obtain rfl := Except.ok.inj hi
    exact hh.eq_rHeader rfl rfl rfl rfl (hh.unused_nib rfl) (hh.unused rfl)
  | dbl | dblx | dblx8 | vinc32 =>
    obtain rfl := Except.ok.inj hi
    exact hh.eq_rHeader rfl rfl rfl (hh.unused_nib rfl) (hh.unused_nib rfl) (hh.unused rfl)
  | vld =>
    obtain rfl := Except.ok.inj hi
    exact hh.eq_rHeader rfl rfl (hh.unused_nib rfl) (hh.unused_nib rfl) (hh.unused_nib rfl) (hh.unused rfl)
  | vst =>
    obtain rfl := Except.ok.inj hi
    exact hh.eq_rHeader rfl (hh.unused_nib rfl) rfl (hh.unused_nib rfl) (hh.unused_nib rfl) (hh.unused rfl)
  | nop | halt =>
    obtain rfl := Except.ok.inj hi
    exact hh.eq_rHeader rfl (hh.unused_nib rfl) (hh.unused_nib rfl)
      (hh.unused_nib rfl) (hh.unused_nib rfl) (hh.unused rfl)

/-! ### The opcode table -/

/-- Every command is sixteen words, and its header is in its own row (R104, R105). -/
theorem inItsRow (i : Instr) : Laws.InItsRow.Statement i := by
  cases i with
  | nop => exact Laws.InItsRow.nop
  | halt => exact Laws.InItsRow.halt
  | kexp ks we wd key klen => exact Laws.InItsRow.kexp ks we wd key klen
  | krk vd ks dir j => exact Laws.InItsRow.krk vd ks dir j
  | aese1 vd va ks => exact Laws.InItsRow.aese1 vd va ks
  | aese2 vd va ks => exact Laws.InItsRow.aese2 vd va ks
  | aese4 vd va ks => exact Laws.InItsRow.aese4 vd va ks
  | aese8 vd va ks => exact Laws.InItsRow.aese8 vd va ks
  | aesd1 vd va ks => exact Laws.InItsRow.aesd1 vd va ks
  | aesd2 vd va ks => exact Laws.InItsRow.aesd2 vd va ks
  | aesd4 vd va ks => exact Laws.InItsRow.aesd4 vd va ks
  | aesd8 vd va ks => exact Laws.InItsRow.aesd8 vd va ks
  | gmul vd va vb => exact Laws.InItsRow.gmul vd va vb
  | gred4 vd va vb => exact Laws.InItsRow.gred4 vd va vb
  | dbl vd va => exact Laws.InItsRow.dbl vd va
  | dblx vd va => exact Laws.InItsRow.dblx vd va
  | dblx8 vd va => exact Laws.InItsRow.dblx8 vd va
  | vinc32 vd va => exact Laws.InItsRow.vinc32 vd va
  | vld vd addr => exact Laws.InItsRow.vld vd addr
  | vst va addr => exact Laws.InItsRow.vst va addr
  | vxor vd va vb => exact Laws.InItsRow.vxor vd va vb
  | gcmEnc ks tlen b => exact Laws.InItsRow.gcmEnc ks tlen b
  | gcmDec ks tlen b res => exact Laws.InItsRow.gcmDec ks tlen b res
  | ocbEnc ks tlen b => exact Laws.InItsRow.ocbEnc ks tlen b
  | ocbDec ks tlen b res => exact Laws.InItsRow.ocbDec ks tlen b res
  | xtsEnc ks kt b => exact Laws.InItsRow.xtsEnc ks kt b
  | xtsDec ks kt b => exact Laws.InItsRow.xtsDec ks kt b

/-- The row `r` fixes the opcode `o` and every header bit that `o` does not use. -/
def TableRow.Fixes (r : TableRow) (o : Opcode) : Prop :=
  r.mask &&& ~~~o.usedBits = ~~~o.usedBits ∧ r.bits &&& ~~~o.usedBits = o.code.setWidth 32

theorem TableRow.Fixes.admits {r : TableRow} {o : Opcode} (hr : r.Fixes o) {h : Word} (hh : h &&& r.mask = r.bits) :
    o.Admits h := by
  obtain ⟨hmask, hbits⟩ := hr
  rw [Opcode.Admits, ← hmask, ← BitVec.and_assoc, hh, hbits]

theorem row_fixes_opcode (i : Instr) : i.row.Fixes i.opcode := by
  cases i <;> dsimp only [Instr.row, Instr.opcode] <;> exact ⟨rfl, rfl⟩

theorem row_mem_opcodeRows (i : Instr) : i.row ∈ opcodeRows := by
  cases i <;> simp [opcodeRows, Instr.row]

/-- KRK is the one row of its name. -/
theorem row_mnemonic_krk (i : Instr) : i.row.mnemonic = "KRK" ↔ i.opcode = .krk := by
  cases i <;> simp [Instr.row, Instr.opcode]

/-! ### The words of an encoded command -/

/-- Word `k` of an encoded command. -/
def Instr.word (i : Instr) (k : Nat) : Word := (encode i).getD k 0

theorem word_zero (i : Instr) : i.word 0 = (encode i).headD 0 := by
  rw [Instr.word]
  cases encode i <;> rfl

/-- The words of a list of words that stands in memory (R100). -/
theorem wordAt_flatMap_wordBytes (ws : List Word) (k : Nat) : wordAt (ws.flatMap wordBytes) k = ws.getD k 0 := by
  induction ws generalizing k with
  | nil => simp [wordAt, leWord]
  | cons w ws ih =>
    rw [List.flatMap_cons]
    cases k with
    | zero => exact wordAt_wordBytes w _
    | succ k => rw [wordAt_append, ih, List.getD_cons_succ]

theorem decode_encodeBytes (i : Instr) : decode (encodeBytes i) = decodeWords i.word := by
  have hlen : (encodeBytes i).length = 64 := by
    simp [encodeBytes, List.length_flatMap, (inItsRow i).1]
  rw [decode, if_neg (by omega)]
  exact congrArg decodeWords (funext (wordAt_flatMap_wordBytes _))

/-! ### The fields of an encoded command -/

theorem mHeader_fl0 (o : Opcode) (ks ks2 : SlotIx) (tlen : BitVec 5) (fl0 fl1 : Bool) :
    (mHeader o ks ks2 tlen fl0 fl1).getLsbD 21 = fl0 := by
  have h : (mHeader o ks ks2 tlen fl0 fl1).extractLsb' (8 + (4 + (4 + (5 + 0)))) 1 = BitVec.ofBool fl0 := by
    rw [mHeader, extract_append_high, extract_append_high, extract_append_high, extract_append_high,
      extract_append_low]
  simpa using congrArg (·.getLsbD 0) h

theorem mHeader_fl1 (o : Opcode) (ks ks2 : SlotIx) (tlen : BitVec 5) (fl0 fl1 : Bool) :
    (mHeader o ks ks2 tlen fl0 fl1).getLsbD 22 = fl1 := by
  have h : (mHeader o ks ks2 tlen fl0 fl1).extractLsb' (8 + (4 + (4 + (5 + (1 + 0))))) 1 = BitVec.ofBool fl1 := by
    rw [mHeader, extract_append_high, extract_append_high, extract_append_high, extract_append_high,
      extract_append_high, extract_append_low]
  simpa using congrArg (·.getLsbD 0) h

/-- The fields of a KRK selector, and no other bit (R106). -/
theorem selWord_fields (dir : Dir) (j : Fin 16) : selWord dir j &&& ~~~0x10F#32 = 0 ∧
    (if (selWord dir j).getLsbD 8 then .inverse else .forward) = dir ∧ nib (selWord dir j) 0 = j := by
  cases dir <;> decide +revert

/-- The slots and the operand words of an XTS command, whatever its SEQ flag is (R103, R106). -/
theorem xtsWords_fields (o : Opcode) (ks kt : SlotIx) (b : XtsBufs) :
    nib ((xtsWords o ks kt b).getD 0 0) 8 = ks ∧ nib ((xtsWords o ks kt b).getD 0 0) 12 = kt ∧
    xtsBufs (fun k => (xtsWords o ks kt b).getD k 0) = b := by
  obtain ⟨src, dst, len, dul, iv⟩ := b
  cases iv with
  | array a =>
    refine ⟨mHeader_ks .., mHeader_ks2 .., ?_⟩
    simp only [xtsBufs, xtsWords, List.getD_cons_zero, List.getD_cons_succ, mHeader_fl0, Bool.false_eq_true, if_false]
  | seq n =>
    refine ⟨mHeader_ks .., mHeader_ks2 .., ?_⟩
    have hn : n.extractLsb' 32 32 ++ n.extractLsb' 0 32 = n :=
      (BitVec.extractLsb'_append_extractLsb'_eq_extractLsb' rfl).trans BitVec.extractLsb'_eq_self
    simp only [xtsBufs, xtsWords, List.getD_cons_zero, List.getD_cons_succ, mHeader_fl0, if_true, hn]

/-- The fields and operand words of an encoded command read back (R102, R103, R106). -/
theorem buildInstr_word (i : Instr) : buildInstr i.opcode i.word = .ok i := by
  cases i with
  | krk vd ks dir j =>
    obtain ⟨hrsv, hdir, hj⟩ := selWord_fields dir j
    simp only [Instr.opcode, buildInstr, Instr.word, encode, shortWords, List.getD_cons_zero, List.getD_cons_succ,
      rHeader_vd, rHeader_ks, hrsv, hdir, hj, if_true]
  | kexp ks we wd key klen =>
    simp only [Instr.opcode, buildInstr, Instr.word, encode, shortWords, List.getD_cons_zero, List.getD_cons_succ,
      mHeader_ks, mHeader_fl0, mHeader_fl1]
  | gcmEnc ks tlen b | gcmDec ks tlen b res | ocbEnc ks tlen b | ocbDec ks tlen b res =>
    simp only [Instr.opcode, buildInstr, Instr.word, encode, aeadBufs, aeadWords, List.getD_cons_zero,
      List.getD_cons_succ, mHeader_ks, mHeader_tlen]
  | xtsEnc ks kt b => exact congrArg Except.ok ((Instr.xtsEnc.injEq ..).mpr (xtsWords_fields .xtsEnc ks kt b))
  | xtsDec ks kt b => exact congrArg Except.ok ((Instr.xtsDec.injEq ..).mpr (xtsWords_fields .xtsDec ks kt b))
  | aese1 vd va ks | aese2 vd va ks | aese4 vd va ks | aese8 vd va ks | aesd1 vd va ks | aesd2 vd va ks | aesd4 vd va ks
  | aesd8 vd va ks =>
    simp only [Instr.opcode, buildInstr, Instr.word, encode, shortWords, List.getD_cons_zero, rHeader_vd, rHeader_va,
      rHeader_ks, rHeader_n]
    rfl
  | _ =>
    simp only [Instr.opcode, buildInstr, Instr.word, encode, shortWords, List.getD_cons_zero, List.getD_cons_succ,
      rHeader_vd, rHeader_va, rHeader_vb]

/-! ### The statements -/

/-- Settles O2: the words of an encoded command are its own, its header is in its row and so one of its opcode's, and
the fields and operand words read back. -/
theorem decodeEncode : Obligations.DecodeEncode := by
  unfold Obligations.DecodeEncode
  intro i
  have hhead : i.opcode.Admits (i.word 0) :=
    (row_fixes_opcode i).admits ((congrArg (· &&& i.row.mask) (word_zero i)).trans (inItsRow i).2)
  exact (decode_encodeBytes i).trans ((decodeWords_of_admits hhead).trans (buildInstr_word i))

/-- Settles O3: the header of every opcode is rebuilt from the fields that the command holds, the others being 0. -/
theorem headerIsDeterminedByTheCommand : Obligations.HeaderIsDeterminedByTheCommand := by
  unfold Obligations.HeaderIsDeterminedByTheCommand
  intro w i h
  obtain ⟨o, hh, hi⟩ := admits_of_decodeWords h
  exact header_of_buildInstr hh hi

/-- Settles O4: a decoded command's own row is the one its header is in (O3), and a row fixes all that the decoder tests
of a header. -/
theorem decodeAcceptsExactlyTheOpcodeTable : Obligations.DecodeAcceptsExactlyTheOpcodeTable := by
  unfold Obligations.DecodeAcceptsExactlyTheOpcodeTable
  intro w
  constructor
  · rintro ⟨i, h⟩
    have hrow : w 0 &&& i.row.mask = i.row.bits := headerIsDeterminedByTheCommand w i h ▸ (inItsRow i).2
    have hdec := decodeWords_of_admits ((row_fixes_opcode i).admits hrow)
    have hsel := (buildInstr_isOk_iff i.opcode w).mp ⟨i, hdec ▸ h⟩
    exact ⟨i.row, row_mem_opcodeRows i, hrow, fun hkrk => hsel ((row_mnemonic_krk i).mp hkrk)⟩
  · rintro ⟨r, hr, hbits, hsel⟩
    obtain ⟨i, -, rfl⟩ := List.mem_map.mp hr
    rw [decodeWords_of_admits ((row_fixes_opcode i).admits hbits), buildInstr_isOk_iff, ← row_mnemonic_krk]
    exact hsel

/-- Settles O5: the tests of a header are the same, and the command is built of the same fields and operand words. -/
theorem unusedOperandWordsAreIgnored : Obligations.UnusedOperandWordsAreIgnored := by
  unfold Obligations.UnusedOperandWordsAreIgnored
  intro w w' o ho h0 hused
  simp only [decodeWords, h0, ho, buildInstr_congr o h0 hused]

/-- Settles O1: each word is decoded by evaluation. -/
theorem decodeSampleWords : Obligations.DecodeSampleWords := by
  unfold Obligations.DecodeSampleWords
  decide

end Sys2Proof
end

section
/-! PROOFS. The AES core (R140 to R159): the inverse round functions, the inverse cipher, and the lanes of AESE.n and
AESD.n. -/

namespace Sys2Proof.Machine

/-! ### Multiplication in GF(2^8) -/

theorem byte_xor_left_comm (a b c : Byte) : a ^^^ (b ^^^ c) = b ^^^ (a ^^^ c) := by
  rw [← BitVec.xor_assoc, BitVec.xor_comm a, BitVec.xor_assoc]

/-- `xtime` is additive: the reduction by 0x1B is asked for by one bit (R141). -/
theorem xtime_xor (a b : Byte) : xtime (a ^^^ b) = xtime a ^^^ xtime b := by
  simp only [xtime, BitVec.shiftLeft_xor_distrib, BitVec.getLsbD_xor]
  cases a.getLsbD 7 <;> cases b.getLsbD 7 <;> simp [BitVec.xor_assoc, BitVec.xor_comm, byte_xor_left_comm]

theorem xtimeN_xor (n : Nat) (a b : Byte) : xtimeN n (a ^^^ b) = xtimeN n a ^^^ xtimeN n b := by
  induction n with
  | zero => rfl
  | succ n ih => rw [xtimeN, ih, xtime_xor]; rfl

/-- `•` is additive in its first factor (R141). -/
theorem gmul8_xor (a b m : Byte) : gmul8 (a ^^^ b) m = gmul8 a m ^^^ gmul8 b m := by
  suffices h : ∀ (is : List Nat) (x y : Byte),
      is.foldl (fun acc i => if m.getLsbD i then acc ^^^ xtimeN i (a ^^^ b) else acc) (x ^^^ y) =
        is.foldl (fun acc i => if m.getLsbD i then acc ^^^ xtimeN i a else acc) x ^^^
          is.foldl (fun acc i => if m.getLsbD i then acc ^^^ xtimeN i b else acc) y from
    h (List.range 8) 0 0
  intro is
  induction is with
  | nil => exact fun _ _ => rfl
  | cons i is ih =>
    intro x y
    rw [List.foldl_cons, List.foldl_cons, List.foldl_cons, ← ih]
    cases m.getLsbD i with
    | false => rfl
    | true => rw [if_pos rfl, if_pos rfl, if_pos rfl, xtimeN_xor]; congr 1; ac_rfl

/-- The factors of MixColumns as powers of `xtime` (R146). -/
theorem gmul8_mixFactors (a : Byte) :
    gmul8 a 0x01 = a ∧ gmul8 a 0x02 = xtime a ∧ gmul8 a 0x03 = a ^^^ xtime a := by
  simp [gmul8, List.range, List.range.loop, xtimeN]

/-- The factors of InvMixColumns as sums of powers of `xtime` (R147). -/
theorem gmul8_invMixFactors (a : Byte) :
    gmul8 a 0x09 = a ^^^ xtime (xtime (xtime a)) ∧
    gmul8 a 0x0b = a ^^^ xtime a ^^^ xtime (xtime (xtime a)) ∧
    gmul8 a 0x0d = a ^^^ xtime (xtime a) ^^^ xtime (xtime (xtime a)) ∧
    gmul8 a 0x0e = xtime a ^^^ xtime (xtime a) ^^^ xtime (xtime (xtime a)) := by
  simp [gmul8, List.range, List.range.loop, xtimeN]

/-! ### The column transforms -/

/-- One row of a column transform: the sum of the products of four factors and the four bytes of a column, from that
row on (R146, R147). -/
def mixRow (m0 m1 m2 m3 a0 a1 a2 a3 : Byte) : Byte := gmul8 a0 m0 ^^^ gmul8 a1 m1 ^^^ gmul8 a2 m2 ^^^ gmul8 a3 m3

/-- Byte `r`, mod 4, of column `c` of a block (R140). -/
def colByte (s : Block) (c r : Nat) : Byte := byteOf s (r % 4 + 4 * c)

theorem colByte_add_four (s : Block) (c r : Nat) : colByte s c (r + 4) = colByte s c r := by
  rw [colByte, Nat.add_mod_right, colByte]

/-- Two blocks with the same columns are equal (R140). -/
theorem block_ext_columns {s t : Block} (h : ∀ c < 4, ∀ r, colByte s c r = colByte t c r) : s = t := by
  refine block_ext fun i hi => ?_
  have hb := h (i / 4) (by omega) i
  rwa [colByte, colByte, Nat.mod_add_div] at hb

theorem mixByte_eq_mixRow (m0 m1 m2 m3 : Byte) (s : Block) (c r : Nat) :
    mixByte m0 m1 m2 m3 s (r % 4 + 4 * c) =
      mixRow m0 m1 m2 m3 (colByte s c r) (colByte s c (r + 1)) (colByte s c (r + 2)) (colByte s c (r + 3)) := by
  have hc : (r % 4 + 4 * c) / 4 = c := by omega
  have hr : (r % 4 + 4 * c) % 4 = r % 4 := by omega
  simp only [mixByte, mixRow, colByte, hc, hr, Nat.mod_add_mod]

/-- A column that MixColumns puts out (R146). -/
theorem colByte_mixColumns (s : Block) {c : Nat} (hc : c < 4) (r : Nat) :
    colByte (mixColumns s) c r =
      mixRow 0x02 0x03 0x01 0x01 (colByte s c r) (colByte s c (r + 1)) (colByte s c (r + 2)) (colByte s c (r + 3)) :=
  (byteOf_blockOfFn _ _ (by omega)).trans (mixByte_eq_mixRow ..)

/-- A column that InvMixColumns puts out (R147). -/
theorem colByte_invMixColumns (s : Block) {c : Nat} (hc : c < 4) (r : Nat) :
    colByte (invMixColumns s) c r =
      mixRow 0x0e 0x0b 0x0d 0x09 (colByte s c r) (colByte s c (r + 1)) (colByte s c (r + 2)) (colByte s c (r + 3)) :=
  (byteOf_blockOfFn _ _ (by omega)).trans (mixByte_eq_mixRow ..)

/-- The product of the two matrices has ones on its diagonal (R146, R147). -/
theorem mix_coeff_same (a : Byte) :
    gmul8 (gmul8 a 0x02) 0x0e ^^^ gmul8 (gmul8 a 0x01) 0x0b ^^^ gmul8 (gmul8 a 0x01) 0x0d
      ^^^ gmul8 (gmul8 a 0x03) 0x09 = a := by
  simp only [gmul8_mixFactors, gmul8_invMixFactors, xtime_xor]
  simp [BitVec.xor_assoc, BitVec.xor_comm, byte_xor_left_comm]

/-- The product of the two matrices has zeros off its diagonal (R146, R147). -/
theorem mix_coeff_other (a : Byte) :
    gmul8 (gmul8 a 0x03) 0x0e ^^^ gmul8 (gmul8 a 0x02) 0x0b ^^^ gmul8 (gmul8 a 0x01) 0x0d
      ^^^ gmul8 (gmul8 a 0x01) 0x09 = 0 ∧
    gmul8 (gmul8 a 0x01) 0x0e ^^^ gmul8 (gmul8 a 0x03) 0x0b ^^^ gmul8 (gmul8 a 0x02) 0x0d
      ^^^ gmul8 (gmul8 a 0x01) 0x09 = 0 ∧
    gmul8 (gmul8 a 0x01) 0x0e ^^^ gmul8 (gmul8 a 0x01) 0x0b ^^^ gmul8 (gmul8 a 0x03) 0x0d
      ^^^ gmul8 (gmul8 a 0x02) 0x09 = 0 := by
  simp only [gmul8_mixFactors, gmul8_invMixFactors, xtime_xor]
  simp [BitVec.xor_assoc, BitVec.xor_comm, byte_xor_left_comm]

/-- A row of the inverse transform on a column of the forward one: gathered by the four bytes of the old column, only
the row's own byte is left (R146, R147). -/
theorem mixRow_inverse (a0 a1 a2 a3 : Byte) :
    mixRow 0x0e 0x0b 0x0d 0x09 (mixRow 0x02 0x03 0x01 0x01 a0 a1 a2 a3) (mixRow 0x02 0x03 0x01 0x01 a1 a2 a3 a0)
      (mixRow 0x02 0x03 0x01 0x01 a2 a3 a0 a1) (mixRow 0x02 0x03 0x01 0x01 a3 a0 a1 a2) = a0 := by
  obtain ⟨h1, -, -⟩ := mix_coeff_other a1
  obtain ⟨-, h2, -⟩ := mix_coeff_other a2
  obtain ⟨-, -, h3⟩ := mix_coeff_other a3
  calc _ = (gmul8 (gmul8 a0 0x02) 0x0e ^^^ gmul8 (gmul8 a0 0x01) 0x0b ^^^ gmul8 (gmul8 a0 0x01) 0x0d
            ^^^ gmul8 (gmul8 a0 0x03) 0x09)
        ^^^ (gmul8 (gmul8 a1 0x03) 0x0e ^^^ gmul8 (gmul8 a1 0x02) 0x0b ^^^ gmul8 (gmul8 a1 0x01) 0x0d
            ^^^ gmul8 (gmul8 a1 0x01) 0x09)
        ^^^ (gmul8 (gmul8 a2 0x01) 0x0e ^^^ gmul8 (gmul8 a2 0x03) 0x0b ^^^ gmul8 (gmul8 a2 0x02) 0x0d
            ^^^ gmul8 (gmul8 a2 0x01) 0x09)
        ^^^ (gmul8 (gmul8 a3 0x01) 0x0e ^^^ gmul8 (gmul8 a3 0x01) 0x0b ^^^ gmul8 (gmul8 a3 0x03) 0x0d
            ^^^ gmul8 (gmul8 a3 0x02) 0x09) := by simp only [mixRow, gmul8_xor]; ac_rfl
    _ = a0 := by rw [mix_coeff_same, h1, h2, h3]; simp

theorem invMixColumns_mixColumns (s : Block) : invMixColumns (mixColumns s) = s := by
  refine block_ext_columns fun c hc r => ?_
  rw [colByte_invMixColumns _ hc, colByte_mixColumns s hc, colByte_mixColumns s hc, colByte_mixColumns s hc,
    colByte_mixColumns s hc]
  simp only [Nat.add_assoc, Nat.reduceAdd]
  rw [colByte_add_four, show r + 5 = r + 1 + 4 from rfl, show r + 6 = r + 2 + 4 from rfl, colByte_add_four,
    colByte_add_four, mixRow_inverse]

theorem colByte_xor (s t : Block) (c r : Nat) : colByte (s ^^^ t) c r = colByte s c r ^^^ colByte t c r :=
  byteOf_xor ..

/-- InvMixColumns is additive, so that it passes through AddRoundKey (R147, R148). -/
theorem invMixColumns_xor (s t : Block) : invMixColumns (s ^^^ t) = invMixColumns s ^^^ invMixColumns t := by
  refine block_ext_columns fun c hc r => ?_
  simp only [colByte_xor, colByte_invMixColumns _ hc, mixRow, gmul8_xor]
  ac_rfl

/-! ### SubBytes and ShiftRows -/

/-- INV_SBOX is the inverse permutation of SBOX (R142, R143). -/
theorem invSbox_sbox : ∀ x : Byte, invSbox (sbox x) = x := by decide +kernel

theorem byteOf_subBytes (s : Block) {i : Nat} (hi : i < 16) : byteOf (subBytes s) i = sbox (byteOf s i) :=
  byteOf_blockOfFn _ i hi

theorem byteOf_invSubBytes (s : Block) {i : Nat} (hi : i < 16) : byteOf (invSubBytes s) i = invSbox (byteOf s i) :=
  byteOf_blockOfFn _ i hi

theorem byteOf_shiftRows (s : Block) {i : Nat} (hi : i < 16) :
    byteOf (shiftRows s) i = byteOf s (i % 4 + 4 * ((i / 4 + i % 4) % 4)) :=
  byteOf_blockOfFn _ i hi

theorem byteOf_invShiftRows (s : Block) {i : Nat} (hi : i < 16) :
    byteOf (invShiftRows s) i = byteOf s (i % 4 + 4 * ((i / 4 + 4 - i % 4) % 4)) :=
  byteOf_blockOfFn _ i hi

theorem invSubBytes_subBytes (s : Block) : invSubBytes (subBytes s) = s :=
  block_ext fun i hi => by rw [byteOf_invSubBytes _ hi, byteOf_subBytes s hi, invSbox_sbox]

/-- The rotations of a row to the right and to the left by its number cancel (R144, R145). -/
theorem invShiftRows_shiftRows (s : Block) : invShiftRows (shiftRows s) = s :=
  block_ext fun i hi => by
    rw [byteOf_invShiftRows _ hi, byteOf_shiftRows s (by omega)]
    congr 1; omega

/-- A substitution of every byte does not depend on the place of the byte (R143, R144). -/
theorem invSubBytes_shiftRows (s : Block) : invSubBytes (shiftRows s) = shiftRows (invSubBytes s) :=
  block_ext fun i hi => by
    rw [byteOf_invSubBytes _ hi, byteOf_shiftRows s hi, byteOf_shiftRows _ hi, byteOf_invSubBytes s (by omega)]

/-- The inverse substitution and rotation, in the order of the inverse cipher, undo those of a forward round (R150). -/
theorem invShiftRows_invSubBytes_shiftRows_subBytes (s : Block) :
    invShiftRows (invSubBytes (shiftRows (subBytes s))) = s := by
  rw [invSubBytes_shiftRows, invShiftRows_shiftRows, invSubBytes_subBytes]

/-- Settles O16: byte by byte for SubBytes and ShiftRows, column by column for MixColumns. -/
theorem inverseRoundFunctionsUndoTheForwardOnes : Obligations.InverseRoundFunctionsUndoTheForwardOnes := by
  unfold Obligations.InverseRoundFunctionsUndoTheForwardOnes
  exact fun s => ⟨invSubBytes_subBytes s, invShiftRows_shiftRows s, invMixColumns_mixColumns s⟩

/-! ### The inverse cipher -/

/-- `drk` is the inverse schedule of the forward schedule `erk` with `nr` rounds: reversed, the interior keys passed
through InvMixColumns (R184). -/
structure InverseKeys (erk drk : Vector Block 15) (nr : Nat) : Prop where
  /-- the first key -/
  first : roundKey drk 0 = roundKey erk nr
  /-- the last key -/
  last : roundKey drk nr = roundKey erk 0
  /-- the key of inverse round `r`, which undoes forward round `m` -/
  interior : ∀ {r m}, r + m = nr → 0 < r → 0 < m → roundKey drk r = invMixColumns (roundKey erk m)

/-- The inverse cipher retraces the forward one: after `r` rounds it holds the block that the forward cipher had before
its last AddRoundKey but `r`, where `r + m + 1` is the number of rounds (R149, R150). -/
theorem InverseKeys.decRounds_aesEnc {erk drk : Vector Block 15} {nr : Nat} (h : InverseKeys erk drk nr) (b : Block)
    {r m : Nat} (hr : r + m + 1 = nr) :
    decRounds drk (aesEnc erk nr b) r = shiftRows (subBytes (encRounds erk b m)) := by
  induction r generalizing m with
  | zero =>
    have hm : nr - 1 = m := by omega
    rw [decRounds, aesEnc, hm, h.first, BitVec.xor_assoc, BitVec.xor_self, BitVec.xor_zero]
  | succ r ih =>
    rw [decRounds, ih (m := m + 1) (by omega), invShiftRows_invSubBytes_shiftRows_subBytes,
      h.interior (m := m + 1) (by omega) (by omega) (by omega), encRounds, invMixColumns_xor, invMixColumns_mixColumns,
      BitVec.xor_assoc, BitVec.xor_self, BitVec.xor_zero]

/-- The inverse cipher under the inverse of a schedule undoes the forward cipher, whatever the round keys are (R150). -/
theorem InverseKeys.aesDec_aesEnc {erk drk : Vector Block 15} {nr : Nat} (h : InverseKeys erk drk nr) (hnr : 0 < nr)
    (b : Block) : aesDec drk nr (aesEnc erk nr b) = b := by
  rw [aesDec, h.decRounds_aesEnc b (m := 0) (by omega), invShiftRows_invSubBytes_shiftRows_subBytes, h.last, encRounds,
    BitVec.xor_assoc, BitVec.xor_self, BitVec.xor_zero]

/-- Round key `i` of the inverse schedule (R184). -/
theorem inverseSchedule_getD (key : List Byte) {i : Nat} (hi : i ≤ keyNr key) :
    (inverseSchedule key).getD i 0 =
      if i = 0 then (forwardSchedule key).getD (keyNr key) 0
      else if i = keyNr key then (forwardSchedule key).getD 0 0
      else invMixColumns ((forwardSchedule key).getD (keyNr key - i) 0) := by
  rw [List.getD_eq_getElem _ _ (by rw [length_inverseSchedule]; omega)]
  simp [inverseSchedule]

/-- The two schedules of a key, in the slot's entries, are inverse to each other (R184). -/
theorem inverseKeys_schedules {key : List Byte} (hk : KeyLenOk key) :
    InverseKeys (slotKeys (forwardSchedule key)) (slotKeys (inverseSchedule key)) (keyNr key) := by
  have hnr := hk.sizes.2
  have hpos : 0 < keyNr key := by rw [keyNr]; omega
  have he (r : Nat) := roundKey_slotKeys (ks := forwardSchedule key) (by rw [length_forwardSchedule]; omega) r
  have hd (r : Nat) := roundKey_slotKeys (ks := inverseSchedule key) (by rw [length_inverseSchedule]; omega) r
  constructor
  case first => rw [hd, he, inverseSchedule_getD key (Nat.zero_le _), if_pos rfl]
  case last => rw [hd, he, inverseSchedule_getD key (Nat.le_refl _), if_neg (by omega), if_pos rfl]
  case interior =>
    intro r m hrm hr hm
    rw [hd, he, inverseSchedule_getD key (by omega), if_neg (by omega), if_neg (by omega),
      show keyNr key - r = m by omega]

/-- Settles O17: the schedules of a key are inverse to each other, and the ciphers are so under any such schedules. -/
theorem inverseCipherUndoesForwardCipher : Obligations.InverseCipherUndoesForwardCipher := by
  unfold Obligations.InverseCipherUndoesForwardCipher
  exact fun key b hk => (inverseKeys_schedules hk).aesDec_aesEnc (by rw [keyNr]; omega) b

/-! ### The lanes -/

section Lanes
variable {n : Nat} {vd va : VReg} {s : State} {f : State → Block → Block} {valid : Bool}

/-- No check of a lane command fails (R151, R361). -/
theorem lanes_checks (hva : va.val + n ≤ 16) (hvd : vd.val + n ≤ 16) (hc : s.cfg.hasCrypto = true)
    (hv : valid = true) :
    firstError [groupCheck [(va, n), (vd, n)], platformCheck s, keyCheck [valid]] = none := by
  simp [firstError_eq_none, pastV15, hva, hvd, hc, hv]

/-- A register after the group `VD` was written with `f` of the old group `VA` (R151). -/
theorem vAt_setGroup_map_vGroup (g : Block → Block) {r : Nat} (hr : r < 16) :
    (s.setGroup vd ((s.vGroup va n).map g)).vAt r =
      if vd.val ≤ r ∧ r < vd.val + n then g (s.vAt (va.val + (r - vd.val))) else s.vAt r := by
  rw [vAt_setGroup _ _ _ _ hr, List.length_map, vGroup_length]
  split
  · have hi : r - vd.val < n := by omega
    simp [State.vGroup, hi]
  · rfl

/-- A lane command whose checks pass: every lane at once, from the old registers, and nothing else (R151). -/
theorem lanes_result (hva : va.val + n ≤ 16) (hvd : vd.val + n ≤ 16) (hc : s.cfg.hasCrypto = true)
    (hv : valid = true) :
    ∃ t, command [groupCheck [(va, n), (vd, n)], platformCheck s, keyCheck [valid]]
        (fun s => s.setGroup vd ((s.vGroup va n).map (f s))) s = .next t ∧ RegistersOnly s t ∧
      ∀ r < 16, t.vAt r =
        if vd.val ≤ r ∧ r < vd.val + n then f s (s.vAt (va.val + (r - vd.val))) else s.vAt r := by
  refine ⟨_, command_ok (lanes_checks hva hvd hc hv) _ _, ?_, fun r hr => ?_⟩
  · rw [RegistersOnly, setGroup_eq]; rfl
  · rw [advance_vAt, vAt_setGroup_map_vGroup _ hr]

end Lanes

/-- The four AESE commands by their lane count (R152 to R155). -/
theorem exec_aese {n : Nat} {i : Instr} {vd va : VReg} {ks : SlotIx}
    (h : (n, i) ∈ [(1, Instr.aese1 vd va ks), (2, .aese2 vd va ks), (4, .aese4 vd va ks), (8, .aese8 vd va ks)])
    (s : State) : exec i s = encLanes n vd va ks s := by
  simp only [List.mem_cons, Prod.mk.injEq, List.not_mem_nil, or_false] at h
  rcases h with ⟨rfl, rfl⟩ | ⟨rfl, rfl⟩ | ⟨rfl, rfl⟩ | ⟨rfl, rfl⟩ <;> rfl

/-- The four AESD commands by their lane count (R156 to R159). -/
theorem exec_aesd {n : Nat} {i : Instr} {vd va : VReg} {ks : SlotIx}
    (h : (n, i) ∈ [(1, Instr.aesd1 vd va ks), (2, .aesd2 vd va ks), (4, .aesd4 vd va ks), (8, .aesd8 vd va ks)])
    (s : State) : exec i s = decLanes n vd va ks s := by
  simp only [List.mem_cons, Prod.mk.injEq, List.not_mem_nil, or_false] at h
  rcases h with ⟨rfl, rfl⟩ | ⟨rfl, rfl⟩ | ⟨rfl, rfl⟩ | ⟨rfl, rfl⟩ <;> rfl

/-- Settles O14: each lane count is one lane command, with the slot's forward cipher. -/
theorem aeseEncryptsEveryLane : Obligations.AeseEncryptsEveryLane := by
  unfold Obligations.AeseEncryptsEveryLane
  intro vd va ks s n i hi hva hvd hc hv
  rw [exec_aese hi]
  exact lanes_result (f := fun s => (s.slot ks).enc) hva hvd hc hv

/-- Settles O15: each lane count is one lane command, with the slot's inverse cipher. -/
theorem aesdDecryptsEveryLane : Obligations.AesdDecryptsEveryLane := by
  unfold Obligations.AesdDecryptsEveryLane
  intro vd va ks s n i hi hva hvd hc hv
  rw [exec_aesd hi]
  exact lanes_result (f := fun s => (s.slot ks).dec) hva hvd hc hv

end Sys2Proof.Machine
end

section
/-! PROOFS. The key schedules (R180 to R187): the recurrence, the inverse schedule, and the commands KEXP and KRK. -/

namespace Sys2Proof.Machine

/-! ### The recurrence -/

/-- The right side of the recurrence for word `i`, from the schedule `w` (R183). -/
def recurrence (nk i : Nat) (w : Nat → Word) : Word :=
  w (i - nk) ^^^
    (if i % nk = 0 then subWord (rotWord (w (i - 1))) ^^^ rcon (i / nk)
     else if nk = 8 ∧ i % nk = 4 then subWord (w (i - 1)) else w (i - 1))

theorem nextWord_eq_recurrence (nk : Nat) (ws : List Word) :
    nextWord nk ws = recurrence nk ws.length fun i => ws.getD i 0 := rfl

/-- The recurrence reads earlier words only (R183). -/
theorem recurrence_congr {nk i : Nat} {w w' : Nat → Word} (hnk : 0 < nk) (hi : nk ≤ i) (h : ∀ j < i, w j = w' j) :
    recurrence nk i w = recurrence nk i w' := by
  rw [recurrence, recurrence, h (i - nk) (by omega), h (i - 1) (by omega)]

@[simp] theorem length_expandWords (nk n : Nat) (ws : List Word) : (expandWords nk n ws).length = ws.length + n := by
  induction n generalizing ws with
  | zero => rfl
  | succ n ih => rw [expandWords, ih, List.length_append, List.length_singleton, Nat.add_assoc, Nat.add_comm 1]

/-- The expansion keeps the words that it starts from. -/
theorem expandWords_getD_old (nk n : Nat) {ws : List Word} {i : Nat} (hi : i < ws.length) :
    (expandWords nk n ws).getD i 0 = ws.getD i 0 := by
  induction n generalizing ws with
  | zero => rfl
  | succ n ih =>
    rw [expandWords, ih (by rw [List.length_append]; omega), List.getD_append _ _ _ _ hi]

/-- Every word that the expansion adds satisfies the recurrence (R183). -/
theorem expandWords_getD_new {nk n : Nat} {ws : List Word} {i : Nat} (hnk : 0 < nk) (hws : nk ≤ ws.length)
    (hlo : ws.length ≤ i) (hhi : i < ws.length + n) :
    (expandWords nk n ws).getD i 0 = recurrence nk i fun j => (expandWords nk n ws).getD j 0 := by
  induction n generalizing ws with
  | zero => omega
  | succ n ih =>
    have hlen : (ws ++ [nextWord nk ws]).length = ws.length + 1 := List.length_append
    rw [expandWords]
    rcases Nat.eq_or_lt_of_le hlo with rfl | hlt
    · calc (expandWords nk n (ws ++ [nextWord nk ws])).getD ws.length 0
        _ = (ws ++ [nextWord nk ws]).getD ws.length 0 := expandWords_getD_old nk n (by omega)
        _ = nextWord nk ws := by simp
        _ = recurrence nk ws.length fun j => ws.getD j 0 := nextWord_eq_recurrence nk ws
        _ = recurrence nk ws.length fun j => (expandWords nk n (ws ++ [nextWord nk ws])).getD j 0 :=
          recurrence_congr hnk hws fun j hj => by
            rw [expandWords_getD_old nk n (by omega), List.getD_append _ _ _ _ hj]
    · exact ih (by omega) (by omega) (by omega)

/-! ### The forward schedule -/

theorem length_scheduleWords (key : List Byte) : (scheduleWords key).length = 4 * (keyNk key + 7) := by
  rw [scheduleWords, length_expandWords, List.length_map, List.length_range, keyNr]
  omega

/-- The first words are those of the key (R183). -/
theorem scheduleWords_getD_key (key : List Byte) {i : Nat} (hi : i < keyNk key) :
    (scheduleWords key).getD i 0 = keyWord key i := by
  rw [scheduleWords, expandWords_getD_old _ _ (by simpa using hi)]
  simp [hi]

/-- The other words satisfy the recurrence (R183). -/
theorem scheduleWords_getD_recurrence (key : List Byte) {i : Nat} (hnk : 0 < keyNk key) (hlo : keyNk key ≤ i)
    (hhi : i < 4 * (keyNk key + 7)) :
    (scheduleWords key).getD i 0 = recurrence (keyNk key) i fun j => (scheduleWords key).getD j 0 := by
  have hlen : ((List.range (keyNk key)).map (keyWord key)).length = keyNk key := by simp
  exact expandWords_getD_new hnk (by omega) (by omega) (by rw [hlen, keyNr]; omega)

/-- A round key is four words of the schedule (R183). -/
theorem forwardSchedule_getD (key : List Byte) {r : Nat} (hr : r ≤ keyNr key) :
    (forwardSchedule key).getD r 0 =
      (scheduleWords key).getD (4 * r) 0 ++ (scheduleWords key).getD (4 * r + 1) 0
        ++ (scheduleWords key).getD (4 * r + 2) 0 ++ (scheduleWords key).getD (4 * r + 3) 0 := by
  rw [List.getD_eq_getElem _ _ (by rw [length_forwardSchedule]; omega)]
  simp [forwardSchedule]

theorem KeyLenOk.keyNk_pos {key : List Byte} (h : KeyLenOk key) : 0 < keyNk key := by
  rw [keyNk]
  rcases h with h | h | h <;> rw [h] <;> decide

/-- Settles O18: the expansion keeps the key's words, and every word that it adds is the recurrence on the words before
it. -/
theorem forwardScheduleFollowsTheRecurrence : Obligations.ForwardScheduleFollowsTheRecurrence := by
  unfold Obligations.ForwardScheduleFollowsTheRecurrence
  intro key hk
  exact ⟨length_scheduleWords key, length_forwardSchedule key, fun _ hi => scheduleWords_getD_key key hi,
    fun _ hlo hhi => scheduleWords_getD_recurrence key hk.keyNk_pos hlo hhi,
    fun r hr => forwardSchedule_getD key (Nat.le_of_lt_succ hr)⟩

/-! ### The inverse schedule -/

/-- Settles O19: the two ends and the interior are the three cases of a round key of the inverse schedule. -/
theorem inverseScheduleReversesTheForwardOne : Obligations.InverseScheduleReversesTheForwardOne := by
  unfold Obligations.InverseScheduleReversesTheForwardOne
  intro key hk nr e d
  have hd {i : Nat} (hi : i ≤ nr) :
      d i = if i = 0 then e nr else if i = nr then e 0 else invMixColumns (e (nr - i)) := inverseSchedule_getD key hi
  have hpos : nr ≠ 0 := Nat.succ_ne_zero _
  refine ⟨length_inverseSchedule key, ?first, ?last, fun i hlo hhi => ?interior⟩
  case first => rw [hd (Nat.zero_le _), if_pos rfl]
  case last => rw [hd (Nat.le_refl _), if_neg hpos, if_pos rfl]
  case interior => rw [hd (Nat.le_of_lt hhi), if_neg (by omega), if_neg (by omega)]

/-! ### KEXP -/

/-- KEXP completes with a legal key length and an admitted key (R186, R354, R357). -/
theorem completes_kexp {ks : SlotIx} {we wd : Bool} {key klen : Word} {s : State} (hc : s.cfg.hasCrypto = true)
    (hl : klen = 16 ∨ klen = 24 ∨ klen = 32) (ha : admittedRead s.cfg key.toNat klen.toNat = true) :
    Completes (.kexp ks we wd key klen) s := by
  refine ⟨rfl, fun _ => hc, List.not_mem_nil, fun ⟨h16, h24, h32⟩ => ?_, ?_⟩
  · rcases hl with h | h | h
    · exact h16 h
    · exact h24 h
    · exact h32 h
  · simp [rangesAdmitted, readRanges, writeRanges, rangeOf, ha]

theorem getElem_eq_roundKey (rk : Vector Block 15) (r : Fin 15) : rk[r] = roundKey rk r := by
  simp [roundKey]

/-- The entries of the slot that KEXP builds, those past the last round key included (R45, R186). -/
theorem buildSlot_getElem {kb : List Byte} (hk : KeyLenOk kb) (we wd : Bool) (r : Fin 15) :
    (buildSlot kb we wd).erk[r] = (if we = true ∧ r.val ≤ keyNr kb then (forwardSchedule kb).getD r 0 else 0) ∧
    (buildSlot kb we wd).drk[r] = (if wd = true ∧ r.val ≤ keyNr kb then (inverseSchedule kb).getD r 0 else 0) := by
  rw [getElem_eq_roundKey, getElem_eq_roundKey, roundKey_buildSlot_erk hk, roundKey_buildSlot_drk hk]
  by_cases hr : r.val ≤ keyNr kb
  · simp only [hr, and_true, and_self]
  · have he : (forwardSchedule kb).getD r 0 = 0 :=
      List.getD_eq_default _ _ (by rw [length_forwardSchedule]; omega)
    have hd : (inverseSchedule kb).getD r 0 = 0 :=
      List.getD_eq_default _ _ (by rw [length_inverseSchedule]; omega)
    simp only [he, hd, ite_self, and_self]

/-- Settles O20: KEXP completes, and the slot it leaves is the one built from the key in memory. -/
theorem kexpReplacesTheSlot : Obligations.KexpReplacesTheSlot := by
  unfold Obligations.KexpReplacesTheSlot
  intro ks we wd key klen s hc hl ha
  have hcompletes : Completes (.kexp ks we wd key klen) s := completes_kexp hc hl ha
  have hk : KeyLenOk (s.load key klen) := keyLenOk_load hcompletes
  have hnk : keyNk (s.load key klen) = klen.toNat / 4 := by rw [keyNk, length_load]
  have hnr : keyNr (s.load key klen) = klen.toNat / 4 + 6 := by rw [keyNr, hnk]
  have hslot : (advance (effectOf (.kexp ks we wd key klen) s)).ks[ks] = buildSlot (s.load key klen) we wd :=
    (slot_setSlot s ks ks _).trans (if_pos rfl)
  refine ⟨_, exec_completes hcompletes, ?frame, fun k hne => ?others, ?empty, ?built⟩
  case frame => rw [SlotsOnly, effectOf, setSlot_eq]; rfl
  case others => exact (slot_setSlot s ks k _).trans (if_neg hne.symm)
  case empty => rintro rfl rfl; exact hslot
  case built =>
    intro hflags
    have hv : we = true ∨ wd = true := (Bool.or_eq_true _ _).mp hflags
    rw [hslot]
    exact ⟨buildSlot_ev .., buildSlot_dv .., (buildSlot_nk hk hv).trans hnk, (buildSlot_nr hk hv).trans hnr,
      hnr ▸ buildSlot_getElem hk we wd⟩

/-! ### KRK -/

/-- KRK completes when the direction is valid and the round key is one of the schedule (R187, R355, R356). -/
theorem completes_krk {vd : VReg} {ks : SlotIx} {dir : Dir} {j : Fin 16} {s : State} (hc : s.cfg.hasCrypto = true)
    (hv : dirValid (s.slot ks) dir = true) (hj : j.val ≤ (s.slot ks).nr.toNat) : Completes (.krk vd ks dir j) s := by
  have hreq : requiredKeys (.krk vd ks dir j) s = [dirValid (s.slot ks) dir] := by cases dir <;> rfl
  refine ⟨rfl, fun _ => hc, ?_, Nat.not_lt.mpr hj, rfl⟩
  rw [hreq, hv]
  decide

/-- The write of a register by its number in range, as the whole state (R43). -/
theorem setV_eq_set (s : State) (k : VReg) (x : Block) : s.setV k x = { s with v := s.v.set k x } := by
  have h : s.v.setIfInBounds k x = s.v.set k x :=
    Vector.ext fun i hi => by rw [Vector.getElem_setIfInBounds, Vector.getElem_set]
  rw [State.setV, h]

/-- Settles O22: no check of KRK fails, and its effect writes the round key that the selector names. -/
theorem krkReadsARoundKey : Obligations.KrkReadsARoundKey := by
  unfold Obligations.KrkReadsARoundKey
  intro vd ks dir j s hc hv hj
  have hcompletes : Completes (.krk vd ks dir j) s := completes_krk hc (by cases dir <;> exact hv) hj
  rw [exec_completes hcompletes, effectOf, setV_eq_set]
  cases dir <;> rfl

end Sys2Proof.Machine
end

section
/-! PROOFS. The GHASH multiply of GF(2^128) (R200 to R203, R211): the algebra of gf_mul, GRED4's sum of products and
GHASH.  `gf_mul` is linear over ⊕ in both factors, so its laws have to hold on the powers of X only. -/

namespace Sys2Proof.Machine

/-! ### Maps that are linear over ⊕ -/

/-- `f(a ⊕ b) = f(a) ⊕ f(b)` (R202, R205). -/
def XorLinear (f : Block → Block) : Prop := ∀ a b : Block, f (a ^^^ b) = f a ^^^ f b

theorem XorLinear.map_zero {f : Block → Block} (hf : XorLinear f) : f 0 = 0 := by
  have h : f 0 = f 0 ^^^ f 0 := hf 0 0
  rwa [BitVec.xor_self] at h

theorem XorLinear.comp {f g : Block → Block} (hf : XorLinear f) (hg : XorLinear g) : XorLinear fun x => f (g x) :=
  fun a b => (congrArg f (hg a b)).trans (hf (g a) (g b))

theorem XorLinear.iterate {f : Block → Block} (hf : XorLinear f) (n : Nat) : XorLinear f^[n] := by
  induction n with
  | zero => exact fun _ _ => rfl
  | succ n ih => exact ih.comp hf

/-- A fixed summand that a bit asks for: asked for twice, it cancels (R7). -/
theorem ite_xor_ite (p q : Bool) (z z' c : Block) :
    (if p then z ^^^ c else z) ^^^ (if q then z' ^^^ c else z') =
      if (p ^^ q) = true then (z ^^^ z') ^^^ c else z ^^^ z' := by
  have hcancel : (z ^^^ c) ^^^ (z' ^^^ c) = z ^^^ z' :=
    calc (z ^^^ c) ^^^ (z' ^^^ c) = (z ^^^ z') ^^^ (c ^^^ c) := by ac_rfl
      _ = z ^^^ z' := by rw [BitVec.xor_self, BitVec.xor_zero]
  cases p with
  | false => cases q with
    | false => rfl
    | true => exact (BitVec.xor_assoc ..).symm
  | true => cases q with
    | false => show z ^^^ c ^^^ z' = z ^^^ z' ^^^ c; ac_rfl
    | true => exact hcancel

/-- What holds of 0 and of each single bit, and passes through ⊕, holds of every block (R200). -/
theorem block_xor_induction {P : Block → Prop} (zero : P 0) (bit : ∀ k < 128, P (BitVec.twoPow 128 k))
    (xor : ∀ a b, P a → P b → P (a ^^^ b)) (x : Block) : P x := by
  suffices h : ∀ n ≤ 128, ∀ x : Block, (∀ j, n ≤ j → x.getLsbD j = false) → P x from
    h 128 (Nat.le_refl _) x fun j hj => BitVec.getLsbD_of_ge x j hj
  intro n
  induction n with
  | zero =>
    intro _ x hx
    have h0 : x = 0 := BitVec.eq_of_getLsbD_eq fun j _ => by rw [hx j (Nat.zero_le _)]; simp
    exact h0 ▸ zero
  | succ n ih =>
    intro hn x hx
    cases hb : x.getLsbD n with
    | false =>
      refine ih (by omega) x fun j hj => ?_
      rcases Nat.eq_or_lt_of_le hj with rfl | hlt
      · exact hb
      · exact hx j hlt
    | true =>
      have hrest : P (x ^^^ BitVec.twoPow 128 n) := by
        refine ih (by omega) _ fun j hj => ?_
        rw [BitVec.getLsbD_xor, BitVec.getLsbD_twoPow]
        rcases Nat.eq_or_lt_of_le hj with rfl | hlt
        · simp [hb, show n < 128 by omega]
        · simp [hx j hlt, Nat.ne_of_lt hlt]
      have hx' : x = x ^^^ BitVec.twoPow 128 n ^^^ BitVec.twoPow 128 n := by
        rw [BitVec.xor_assoc, BitVec.xor_self, BitVec.xor_zero]
      rw [hx']
      exact xor _ _ hrest (bit n (by omega))

/-- Linear maps that agree on each single bit are equal (R200). -/
theorem XorLinear.ext {f g : Block → Block} (hf : XorLinear f) (hg : XorLinear g)
    (h : ∀ k < 128, f (BitVec.twoPow 128 k) = g (BitVec.twoPow 128 k)) (x : Block) : f x = g x := by
  induction x using block_xor_induction with
  | zero => rw [hf.map_zero, hg.map_zero]
  | bit k hk => exact h k hk
  | xor a b ha hb => rw [hf a b, hg a b, ha, hb]

/-! ### Multiplication by X -/

/-- The field's one, `X^0` (R201). -/
def gfOne : Block := 1#128 <<< 127

/-- Multiplication by X is linear: the reduction by 0xE1 is asked for by one bit (R201, R202). -/
theorem xorLinear_mulX : XorLinear mulX := fun a b => by
  rw [mulX, mulX, mulX, ite_xor_ite, BitVec.getLsbD_xor, BitVec.ushiftRight_xor_distrib]

/-- `X · X^i = X^(i+1)` with no reduction, as long as the power stays below 128 (R201). -/
theorem mulX_twoPow {k : Nat} (hk : k < 127) : mulX (BitVec.twoPow 128 (k + 1)) = BitVec.twoPow 128 k := by
  have hbit : (BitVec.twoPow 128 (k + 1)).getLsbD 0 = false := by simp
  rw [mulX, hbit, if_neg Bool.false_ne_true]
  refine BitVec.eq_of_getLsbD_eq fun j hj => ?_
  rw [BitVec.getLsbD_ushiftRight, BitVec.getLsbD_twoPow, BitVec.getLsbD_twoPow, Bool.eq_iff_iff]
  simp only [Bool.and_eq_true, decide_eq_true_eq]
  omega

theorem twoPow_eq_iterate_mulX {i : Nat} (hi : i < 128) : BitVec.twoPow 128 (127 - i) = mulX^[i] gfOne := by
  induction i with
  | zero => rfl
  | succ i ih =>
    rw [Function.iterate_succ_apply', ← ih (by omega), show 127 - i = 127 - (i + 1) + 1 by omega,
      mulX_twoPow (by omega)]

/-- Linear maps that agree on `X^0 .. X^127` are equal (R201). -/
theorem XorLinear.ext_powers {f g : Block → Block} (hf : XorLinear f) (hg : XorLinear g)
    (h : ∀ i < 128, f (mulX^[i] gfOne) = g (mulX^[i] gfOne)) (x : Block) : f x = g x := by
  refine hf.ext hg (fun k hk => ?_) x
  have hpow := twoPow_eq_iterate_mulX (i := 127 - k) (by omega)
  rw [show 127 - (127 - k) = k by omega] at hpow
  rw [hpow]
  exact h _ (by omega)

/-! ### The algebra of gf_mul -/

theorem gfMulLoop_xor_left (x x' : Block) (n : Nat) (z z' w : Block) :
    gfMulLoop (x ^^^ x') n (z ^^^ z') w = gfMulLoop x n z w ^^^ gfMulLoop x' n z' w := by
  induction n generalizing z z' w with
  | zero => rfl
  | succ n ih =>
    rw [gfMulLoop, gfMulLoop, gfMulLoop, ← ih, ite_xor_ite, BitVec.getLsbD_xor]

theorem gfMulLoop_xor_right (x : Block) (n : Nat) (z z' w w' : Block) :
    gfMulLoop x n (z ^^^ z') (w ^^^ w') = gfMulLoop x n z w ^^^ gfMulLoop x n z' w' := by
  induction n generalizing z z' w w' with
  | zero => rfl
  | succ n ih =>
    rw [gfMulLoop, gfMulLoop, gfMulLoop, ← ih, xorLinear_mulX]
    congr 1
    split
    · ac_rfl
    · rfl

theorem mulX_gfMulLoop (x : Block) (n : Nat) (z w : Block) :
    mulX (gfMulLoop x n z w) = gfMulLoop x n (mulX z) (mulX w) := by
  induction n generalizing z w with
  | zero => rfl
  | succ n ih =>
    rw [gfMulLoop, gfMulLoop, ih]
    congr 1
    split
    · exact xorLinear_mulX z w
    · rfl

theorem xor_gfMul (x x' y : Block) : gfMul (x ^^^ x') y = gfMul x y ^^^ gfMul x' y :=
  gfMulLoop_xor_left x x' 128 0 0 y

theorem gfMul_xor (x y y' : Block) : gfMul x (y ^^^ y') = gfMul x y ^^^ gfMul x y' :=
  gfMulLoop_xor_right x 128 0 0 y y'

theorem xorLinear_gfMul_left (y : Block) : XorLinear (gfMul · y) := fun a b => xor_gfMul a b y

theorem xorLinear_gfMul_right (x : Block) : XorLinear (gfMul x) := gfMul_xor x

theorem gfMul_mulX (x y : Block) : gfMul x (mulX y) = mulX (gfMul x y) :=
  (mulX_gfMulLoop x 128 0 y).symm

/-- The iterations that look at the bits below the set one add nothing (R202). -/
theorem gfMulLoop_twoPow_of_le {n k : Nat} (h : n ≤ k) (z w : Block) :
    gfMulLoop (BitVec.twoPow 128 k) n z w = z := by
  induction n generalizing w with
  | zero => rfl
  | succ n ih =>
    have hbit : (BitVec.twoPow 128 k).getLsbD n = false := by simp; omega
    rw [gfMulLoop, hbit, if_neg Bool.false_ne_true, ih (by omega)]

/-- The iteration that looks at the set bit adds `W`, stepped once for each iteration before it (R202). -/
theorem gfMulLoop_twoPow {k : Nat} (hk : k < 128) (d : Nat) (z w : Block) :
    gfMulLoop (BitVec.twoPow 128 k) (k + 1 + d) z w = z ^^^ mulX^[d] w := by
  induction d generalizing w with
  | zero =>
    have hbit : (BitVec.twoPow 128 k).getLsbD k = true := by simp [hk]
    rw [gfMulLoop, hbit, if_pos rfl, gfMulLoop_twoPow_of_le (Nat.le_refl k)]; rfl
  | succ d ih =>
    have hbit : (BitVec.twoPow 128 k).getLsbD (k + 1 + d) = false := by simp; omega
    rw [← Nat.add_assoc, gfMulLoop, hbit, if_neg Bool.false_ne_true, ih]; rfl

/-- The product by `X^i` is `i` multiplications by X (R202). -/
theorem gfMul_power {i : Nat} (hi : i < 128) (y : Block) : gfMul (mulX^[i] gfOne) y = mulX^[i] y := by
  have h := gfMulLoop_twoPow (k := 127 - i) (by omega) i 0 y
  rw [show 127 - i + 1 + i = 128 by omega, twoPow_eq_iterate_mulX hi] at h
  exact h.trans BitVec.zero_xor

theorem gfOne_gfMul (y : Block) : gfMul gfOne y = y := gfMul_power (i := 0) (by decide) y

theorem gfMul_gfOne (x : Block) : gfMul x gfOne = x :=
  (xorLinear_gfMul_left gfOne).ext_powers (g := id) (fun _ _ => rfl) (fun _ hi => gfMul_power hi gfOne) x

theorem gfMul_zero (x : Block) : gfMul x 0 = 0 := (xorLinear_gfMul_right x).map_zero

/-- On powers of X the product adds the exponents, so it is commutative there; it is linear in both factors (R202). -/
theorem gfMul_comm (x y : Block) : gfMul x y = gfMul y x := by
  refine (xorLinear_gfMul_left y).ext_powers (xorLinear_gfMul_right y) (fun i hi => ?_) x
  refine (xorLinear_gfMul_right _).ext_powers (xorLinear_gfMul_left _) (fun j hj => ?_) y
  rw [gfMul_power hi, gfMul_power hj, ← Function.iterate_add_apply, ← Function.iterate_add_apply, Nat.add_comm]

theorem mulX_gfMul (x y : Block) : gfMul (mulX x) y = mulX (gfMul x y) := by
  rw [gfMul_comm, gfMul_mulX, gfMul_comm]

theorem gfMul_iterate_mulX (i : Nat) (x y : Block) : gfMul (mulX^[i] x) y = mulX^[i] (gfMul x y) := by
  have h : Function.Semiconj (gfMul · y) mulX mulX := fun a => mulX_gfMul a y
  exact h.iterate_right i x

theorem gfMul_assoc (x y z : Block) : gfMul (gfMul x y) z = gfMul x (gfMul y z) := by
  have hleft : XorLinear fun x => gfMul (gfMul x y) z := (xorLinear_gfMul_left z).comp (xorLinear_gfMul_left y)
  refine hleft.ext_powers (xorLinear_gfMul_left (gfMul y z)) (fun i hi => ?_) x
  rw [gfMul_power hi, gfMul_power hi, gfMul_iterate_mulX]

/-- Settles O24: `gf_mul` is linear in both factors, so each law has to hold on the powers of X only. -/
theorem gfMulIsCommutativeAssociativeAndDistributive : Obligations.GfMulIsCommutativeAssociativeAndDistributive := by
  unfold Obligations.GfMulIsCommutativeAssociativeAndDistributive
  exact fun x y z => ⟨gfMul_comm x y, gfMul_assoc x y z, gfMul_xor x y z, gfMul_gfOne x, gfMul_zero x⟩

/-! ### GRED4 and GHASH -/

/-- The sum of four products, written out (R211). -/
theorem sumOfProducts_four (h1 h2 h3 h4 x1 x2 x3 x4 : Block) :
    sumOfProducts [h1, h2, h3, h4] [x1, x2, x3, x4] =
      gfMul h1 x1 ^^^ gfMul h2 x2 ^^^ gfMul h3 x3 ^^^ gfMul h4 x4 := by
  simp [sumOfProducts]

/-- Settles O25: Horner's form multiplied out gives the sum of the products by the powers of H, the factors swapped. -/
theorem gred4IsFourGhashSteps : Obligations.Gred4IsFourGhashSteps := by
  unfold Obligations.Gred4IsFourGhashSteps
  intro h y x1 x2 x3 x4 h2 h3 h4
  refine ⟨?horner, ?factored⟩
  case horner =>
    rw [sumOfProducts_four, gfMul_comm h4, gfMul_comm h3, gfMul_comm h2, gfMul_comm h]
    simp only [h4, h3, h2, List.foldl_cons, List.foldl_nil, xor_gfMul, gfMul_assoc]
  case factored => rw [sumOfProducts_four, gfMul_xor, gfMul_xor, gfMul_xor]

/-- Whole blocks in front are pieces of their own (R203). -/
theorem chunks16_append {xs : List Byte} (h : xs.length % 16 = 0) (ys : List Byte) :
    chunks16 (xs ++ ys) = chunks16 xs ++ chunks16 ys := by
  induction hn : xs.length using Nat.strong_induction_on generalizing xs with
  | _ n ih =>
    by_cases he : xs = []
    · subst he; rfl
    · have hpos := List.length_pos_iff.mpr he
      have hlen : 16 ≤ xs.length := by omega
      rw [chunks16_eq (List.append_ne_nil_of_left_ne_nil he ys), chunks16_eq he, List.take_append_of_le_length hlen,
        List.drop_append_of_le_length hlen, List.cons_append]
      rw [ih _ (by rw [List.length_drop]; omega) (by rw [List.length_drop]; omega) rfl]

theorem chunks16_block {x : List Byte} (h : x.length = 16) : chunks16 x = [x] := by
  have hx : x ≠ [] := List.length_pos_iff.mp (by omega)
  rw [chunks16_eq hx, List.take_of_length_le (by omega), List.drop_of_length_le (by omega), chunks16_nil]

/-- Settles O29: a further block is one more piece, and so one more step of the fold. -/
theorem ghashAddsOneProductForEachBlock : Obligations.GhashAddsOneProductForEachBlock := by
  unfold Obligations.GhashAddsOneProductForEachBlock
  refine fun h xs x => ⟨rfl, fun hxs hx => ?_⟩
  rw [ghash, chunks16_append hxs, chunks16_block hx, List.foldl_append, List.foldl_cons, List.foldl_nil, ghash]

end Sys2Proof.Machine
end

section
/-! PROOFS. The two doublings (R204 to R206), and the commands that write one register (R207 to R214, R237). -/

namespace Sys2Proof.Machine

/-! ### The OCB doubling -/

theorem dblBe_eq_ite (s : Block) : dblBe s = if s.getLsbD 127 then (s <<< 1) ^^^ 0x87 else s <<< 1 := by
  rw [dblBe]
  split
  · rfl
  · exact BitVec.xor_zero

theorem xorLinear_dblBe : XorLinear dblBe := fun a b => by
  rw [dblBe_eq_ite, dblBe_eq_ite, dblBe_eq_ite, ite_xor_ite, BitVec.getLsbD_xor, BitVec.shiftLeft_xor_distrib]

/-- The bit shifted out comes back as bit 0, which 0x87 has and the shifted value has not (R204). -/
theorem getLsbD_dblBe_zero (s : Block) : (dblBe s).getLsbD 0 = s.getLsbD 127 := by
  rw [dblBe, BitVec.getLsbD_xor]
  cases s.getLsbD 127 <;> simp

/-- Only 0 doubles to 0: bit 0 of the result says that nothing was folded in (R205). -/
theorem eq_zero_of_dblBe_eq_zero {s : Block} (h : dblBe s = 0) : s = 0 := by
  have htop : s.getLsbD 127 = false := by rw [← getLsbD_dblBe_zero, h]; rfl
  rw [dblBe_eq_ite, htop, if_neg Bool.false_ne_true] at h
  refine BitVec.eq_of_getLsbD_eq fun j hj => ?_
  rcases Nat.lt_or_eq_of_le (Nat.le_of_lt_succ hj) with hlt | rfl
  · have hbit : (s <<< 1).getLsbD (j + 1) = s.getLsbD j := by simp; omega
    rw [← hbit, h, BitVec.ofNat_eq_ofNat, BitVec.getLsbD_zero, BitVec.getLsbD_zero]
  · exact htop.trans BitVec.getLsbD_zero.symm

/-- A linear map on blocks that sends only 0 to 0 is bijective: there are finitely many blocks (R205). -/
theorem XorLinear.bijective {f : Block → Block} (hf : XorLinear f) (h : ∀ a, f a = 0 → a = 0) :
    Function.Bijective f := by
  refine Finite.injective_iff_bijective.mp fun a b hab => BitVec.xor_eq_zero_iff.mp (h _ ?_)
  rw [hf a b, hab]
  exact BitVec.xor_self

theorem dblBe_bijective : Function.Bijective dblBe := xorLinear_dblBe.bijective fun _ => eq_zero_of_dblBe_eq_zero

/-! ### The XTS doubling -/

theorem xorLinear_bswap128 : XorLinear bswap128 := fun a b =>
  block_ext fun i hi => by
    rw [byteOf_xor, byteOf_bswap128 _ hi, byteOf_bswap128 _ hi, byteOf_bswap128 _ hi, byteOf_xor]

theorem xorLinear_dblLe : XorLinear dblLe := xorLinear_bswap128.comp (xorLinear_dblBe.comp xorLinear_bswap128)

theorem bswap128_bijective : Function.Bijective bswap128 := Function.Involutive.bijective bswap128_bswap128

theorem dblLe_bijective : Function.Bijective dblLe :=
  bswap128_bijective.comp (dblBe_bijective.comp bswap128_bijective)

/-! ### No doubling is a product -/

/-- A product by a fixed element commutes with multiplication by X, and its value at 1 is that element (R205). -/
theorem exists_gfMul_ne {f : Block → Block} (h : mulX (f gfOne) ≠ f (mulX gfOne)) (e : Block) :
    ∃ x, gfMul x e ≠ f x := by
  by_contra! hall
  have hone : f gfOne = e := by rw [← hall, gfOne_gfMul]
  apply h
  rw [hone, ← hall, mulX_gfMul, gfOne_gfMul]

/-- Settles O26: the values are evaluated; the doublings are no products, as they do not commute with the
multiplication by X of the GHASH convention. -/
theorem doublingsAreLinearBijectiveAndNoGhashProduct : Obligations.DoublingsAreLinearBijectiveAndNoGhashProduct := by
  unfold Obligations.DoublingsAreLinearBijectiveAndNoGhashProduct
  refine ⟨by decide +kernel, by decide +kernel, fun a b => ⟨xorLinear_dblBe a b, xorLinear_dblLe a b⟩,
    dblBe_bijective, dblLe_bijective, by decide +kernel, fun e => ⟨exists_gfMul_ne ?be e, exists_gfMul_ne ?le e⟩⟩
  case be => decide +kernel
  case le => decide +kernel

/-! ### The doublings byte by byte -/

/-- A shift by one bit, byte by byte: bit 7 of the byte below moves in (R204). -/
theorem byteOf_shiftLeft_one (s : Block) {k : Nat} (hk : k < 15) :
    byteOf (s <<< 1) k = (byteOf s k <<< 1) ||| (byteOf s (k + 1) >>> 7) := by
  refine BitVec.eq_of_getLsbD_eq fun j hj => ?_
  rw [getLsbD_byteOf _ _ _ hj, BitVec.getLsbD_or, BitVec.getLsbD_ushiftRight, BitVec.getLsbD_shiftLeft,
    BitVec.getLsbD_shiftLeft]
  cases j with
  | zero =>
    have hhi : 8 * (15 - k) < 128 := by omega
    have hlo : ¬ 8 * (15 - k) < 1 := by omega
    have hbelow : 8 * (15 - k) - 1 = 8 * (15 - (k + 1)) + 7 := by omega
    rw [Nat.add_zero, Nat.add_zero, getLsbD_byteOf _ _ 7 (by decide), hbelow]
    simp [hhi, hlo]
  | succ j =>
    have hhi : 8 * (15 - k) + j + 1 < 128 := by omega
    rw [BitVec.getLsbD_of_ge (byteOf s (k + 1)) _ (by omega), Nat.add_sub_cancel, getLsbD_byteOf _ _ _ (by omega),
      ← Nat.add_assoc, Nat.add_sub_cancel]
    simp [hhi, hj]

/-- Nothing moves into the last byte (R204). -/
theorem byteOf_shiftLeft_one_last (s : Block) : byteOf (s <<< 1) 15 = byteOf s 15 <<< 1 := by
  refine BitVec.eq_of_getLsbD_eq fun j hj => ?_
  rw [getLsbD_byteOf _ _ _ hj, BitVec.getLsbD_shiftLeft, BitVec.getLsbD_shiftLeft, getLsbD_byteOf _ _ _ (by omega)]
  have hhi : j < 128 := by omega
  simp [hhi, hj]

theorem byteOf_dblBe (s : Block) {k : Nat} (hk : k < 15) :
    byteOf (dblBe s) k = (byteOf s k <<< 1) ||| (byteOf s (k + 1) >>> 7) := by
  have hfold : ∀ k < 15, byteOf 0x87#128 k = 0 ∧ byteOf 0#128 k = 0 := by decide
  have hzero : byteOf (if s.getLsbD 127 then 0x87 else 0) k = 0 := by
    split
    · exact (hfold k hk).1
    · exact (hfold k hk).2
  rw [dblBe, byteOf_xor, hzero, byteOf_shiftLeft_one s hk]
  exact BitVec.xor_zero

theorem byteOf_dblBe_last (s : Block) :
    byteOf (dblBe s) 15 = (byteOf s 15 <<< 1) ^^^ (if (byteOf s 0).getLsbD 7 then 0x87 else 0) := by
  rw [dblBe, byteOf_xor, byteOf_shiftLeft_one_last, getLsbD_byteOf s 0 7 (by decide)]
  congr 1
  split <;> rfl

/-! ### Eight doublings in closed form -/

/-- The multiples `0x87 · X^i` for the set bits `i` of a byte, among those listed, summed onto `acc` (R206). -/
def clmul87From (a : Byte) (is : List Nat) (acc : Block) : Block :=
  is.foldl (fun acc i => if a.getLsbD i then acc ^^^ (0x87#128 <<< i) else acc) acc

/-- The carry-less product of a byte by 0x87 (R206). -/
def clmul87 (a : Byte) : Block := clmul87From a (List.range 8) 0

/-- The closed form of eight OCB doublings (R206). -/
def alpha8 (s : Block) : Block := (s <<< 8) ^^^ clmul87 (s.extractLsb' 120 8)

theorem clmul87From_xor (a b : Byte) (is : List Nat) (x y : Block) :
    clmul87From (a ^^^ b) is (x ^^^ y) = clmul87From a is x ^^^ clmul87From b is y := by
  induction is generalizing x y with
  | nil => rfl
  | cons i is ih =>
    rw [clmul87From, clmul87From, clmul87From, List.foldl_cons, List.foldl_cons, List.foldl_cons, ← clmul87From,
      ← clmul87From, ← clmul87From, ← ih, ite_xor_ite, BitVec.getLsbD_xor]

theorem clmul87_xor (a b : Byte) : clmul87 (a ^^^ b) = clmul87 a ^^^ clmul87 b :=
  clmul87From_xor a b (List.range 8) 0 0

theorem xorLinear_alpha8 : XorLinear alpha8 := fun a b => by
  rw [alpha8, alpha8, alpha8, BitVec.shiftLeft_xor_distrib, BitVec.extractLsb'_xor, clmul87_xor]
  ac_rfl

theorem shiftLeft_twoPow (k n : Nat) : BitVec.twoPow 128 k <<< n = BitVec.twoPow 128 (k + n) := by
  rw [BitVec.twoPow_eq, BitVec.twoPow_eq, BitVec.shiftLeft_add]

/-- Below the top bit a doubling is a shift (R204). -/
theorem dblBe_twoPow {k : Nat} (hk : k < 127) : dblBe (BitVec.twoPow 128 k) = BitVec.twoPow 128 (k + 1) := by
  have hbit : (BitVec.twoPow 128 k).getLsbD 127 = false := by simp; omega
  rw [dblBe_eq_ite, hbit, if_neg Bool.false_ne_true, shiftLeft_twoPow]

theorem iterate_dblBe_twoPow {k n : Nat} (h : k + n < 128) :
    dblBe^[n] (BitVec.twoPow 128 k) = BitVec.twoPow 128 (k + n) := by
  induction n with
  | zero => rfl
  | succ n ih => rw [Function.iterate_succ_apply', ih (by omega), dblBe_twoPow (by omega), Nat.add_assoc]

theorem alpha8_twoPow {k : Nat} (hk : k < 120) : alpha8 (BitVec.twoPow 128 k) = BitVec.twoPow 128 (k + 8) := by
  have hbyte : (BitVec.twoPow 128 k).extractLsb' 120 8 = 0 := by
    refine BitVec.eq_of_getLsbD_eq fun j hj => ?_
    rw [BitVec.getLsbD_extractLsb', BitVec.getLsbD_twoPow]
    simp; omega
  rw [alpha8, hbyte, shiftLeft_twoPow]
  exact BitVec.xor_zero

/-- On the bits that eight doublings shift out, both sides are evaluated (R206). -/
theorem iterate_dblBe_twoPow_top : ∀ k < 128, 120 ≤ k →
    dblBe^[8] (BitVec.twoPow 128 k) = alpha8 (BitVec.twoPow 128 k) := by decide +kernel

/-- Both sides are linear; a bit below the top eight is only shifted (R206). -/
theorem iterate_dblBe_eight (s : Block) : dblBe^[8] s = alpha8 s := by
  refine (xorLinear_dblBe.iterate 8).ext xorLinear_alpha8 (fun k hk => ?_) s
  rcases Nat.lt_or_ge k 120 with hlt | hge
  · rw [iterate_dblBe_twoPow (by omega), alpha8_twoPow hlt]
  · exact iterate_dblBe_twoPow_top k hk hge

/-- The XTS doublings are the OCB doublings of the block with its bytes reversed (R204). -/
theorem iterate_dblLe (n : Nat) (v : Block) : dblLe^[n] v = bswap128 (dblBe^[n] (bswap128 v)) := by
  have h : Function.Semiconj bswap128 dblLe dblBe := fun v => bswap128_bswap128 _
  rw [← h.iterate_right n v, bswap128_bswap128]

/-- Settles O27: the bytes of the XTS doubling are those of the OCB doubling reversed, and the jump is `alpha8`. -/
theorem doublingsByteByByteAndInClosedForm : Obligations.DoublingsByteByByteAndInClosedForm := by
  unfold Obligations.DoublingsByteByByteAndInClosedForm
  refine ⟨fun v => ⟨?first, fun k hk => ?others⟩, fun s => ⟨iterate_dblBe_eight s, ?jump⟩⟩
  case first =>
    rw [dblLe, byteOf_bswap128 _ (by decide), byteOf_dblBe_last, byteOf_bswap128 v (by decide),
      byteOf_bswap128 v (by decide)]
  case others =>
    rw [dblLe, byteOf_bswap128 _ (by omega), byteOf_dblBe _ (by omega), byteOf_bswap128 v (by omega),
      byteOf_bswap128 v (by omega), show 15 - (15 - (k + 1)) = k + 1 by omega,
      show 15 - (15 - (k + 1) + 1) = k by omega]
  case jump => rw [iterate_dblLe, iterate_dblBe_eight]; rfl

/-! ### The commands -/

theorem dblLeN_eq_iterate (n : Nat) (v : Block) : dblLeN n v = dblLe^[n] v := by
  induction n generalizing v with
  | zero => rfl
  | succ n ih => exact ih (dblLe v)

theorem vAt_eq_getElem (s : State) (k : VReg) : s.vAt k = s.v[k] := by
  simp [State.vAt]

/-- A command whose checks pass and which writes one register, as the whole state (R207). -/
theorem command_setV {cs : List (Bool × ErrCode)} (h : firstError cs = none) (vd : VReg) (f : State → Block)
    (s : State) :
    command cs (fun s => s.setV vd (f s)) s = .next { s with v := s.v.set vd (f s), cp := s.cp + 64 } := by
  rw [command_ok h, setV_eq_set]; rfl

theorem firstError_platformCheck {s : State} (hc : s.cfg.hasCrypto = true) : firstError [platformCheck s] = none := by
  simp [firstError_eq_none, hc]

theorem unaryBlock_result (f : Block → Block) (vd va : VReg) {s : State} (hc : s.cfg.hasCrypto = true) :
    unaryBlock f vd va s = .next { s with v := s.v.set vd (f s.v[va]), cp := s.cp + 64 } := by
  rw [unaryBlock, command_setV (firstError_platformCheck hc), vAt_eq_getElem]

/-- Settles O23: no check fails, so each command is one register write. -/
theorem galoisCommandsAndVinc32WriteOneRegister : Obligations.GaloisCommandsAndVinc32WriteOneRegister := by
  unfold Obligations.GaloisCommandsAndVinc32WriteOneRegister
  intro vd va vb s hc x result
  refine ⟨?gmul, fun hva hvb => ?gred4, unaryBlock_result dblBe vd va hc, unaryBlock_result dblLe vd va hc, ?dblx8,
    unaryBlock_result inc32 vd va hc⟩
  case gmul =>
    show execGmul vd va vb s = _
    rw [execGmul, command_setV (firstError_platformCheck hc), vAt_eq_getElem, vAt_eq_getElem]
  case gred4 =>
    have hchecks : firstError [groupCheck [(va, 4), (vb, 4)], platformCheck s] = none := by
      simp [firstError_eq_none, pastV15, hva, hvb, hc]
    show execGred4 vd va vb s = _
    rw [execGred4, command_setV hchecks]
    exact congrArg result (sumOfProducts_four ..)
  case dblx8 =>
    show execDblx8 vd va s = _
    rw [execDblx8, unaryBlock_result _ vd va hc, dblLeN_eq_iterate]

end Sys2Proof.Machine
end

section
/-! PROOFS. The functions of GCM (R231 to R236): the counter, the keystream in closed form, and the tag. -/

namespace Sys2Proof.Machine

/-! ### The counter -/

theorem toNat_inc32 (v : Block) :
    (inc32 v).toNat = (v.toNat / 2 ^ 32) * 2 ^ 32 + (v.toNat % 2 ^ 32 + 1) % 2 ^ 32 := by
  have hv := v.isLt
  have hlow : (v.toNat % 2 ^ 32 + 1) % 2 ^ 32 < 2 ^ 32 := Nat.mod_lt _ (by decide)
  have hhigh : v.toNat / 2 ^ 32 % 2 ^ 96 = v.toNat / 2 ^ 32 := Nat.mod_eq_of_lt (by omega)
  rw [inc32, BitVec.toNat_append, BitVec.toNat_add, BitVec.extractLsb'_toNat, BitVec.extractLsb'_toNat,
    Nat.shiftRight_zero, Nat.shiftRight_eq_div_pow, hhigh]
  exact (Nat.shiftLeft_add_eq_or_of_lt hlow _).symm.trans (by rw [Nat.shiftLeft_eq])

/-- Settles O28: the two halves do not overlap, so their concatenation is their sum. -/
theorem inc32NeverCarries : Obligations.Inc32NeverCarries := by
  unfold Obligations.Inc32NeverCarries
  exact ⟨toNat_inc32, by decide⟩

/-- The counter block `n` places after `cb` (R233, R234). -/
def counterBlock (cb : Block) (n : Nat) : Block := cb.extractLsb' 32 96 ++ (cb.extractLsb' 0 32 + BitVec.ofNat 32 n)

@[simp] theorem counterBlock_zero (cb : Block) : counterBlock cb 0 = cb := by
  rw [counterBlock, BitVec.add_zero]
  exact (BitVec.extractLsb'_append_extractLsb'_eq_extractLsb' (start₁ := 0) (len₁ := 32) rfl).trans
    BitVec.extractLsb'_eq_self

theorem counterBlock_inc32 (cb : Block) (n : Nat) : counterBlock (inc32 cb) n = counterBlock cb (n + 1) := by
  have hhigh : (inc32 cb).extractLsb' 32 96 = cb.extractLsb' 32 96 :=
    (extract_append_high _ _ 0 96).trans BitVec.extractLsb'_eq_self
  have hlow : (inc32 cb).extractLsb' 0 32 = cb.extractLsb' 0 32 + 1#32 := extract_append_low _ _
  rw [counterBlock, counterBlock, hhigh, hlow, BitVec.add_assoc, ← BitVec.ofNat_add, Nat.add_comm 1]

/-! ### The keystream -/

@[simp] theorem gctr_nil (e : Block → Block) (cb : Block) : gctr e cb [] = [] := rfl

/-- The first piece under the first counter block, and the rest under the next one (R234). -/
theorem gctr_eq (e : Block → Block) (cb : Block) {xs : List Byte} (h : xs ≠ []) :
    gctr e cb xs = xorBytes (xs.take 16) (blockBytes (e cb)) ++ gctr e (inc32 cb) (xs.drop 16) := by
  rw [gctr, chunks16_eq h, gctrFrom, gctr]

theorem xorBytes_getD {a b : List Byte} {k : Nat} (ha : k < a.length) (hb : k < b.length) :
    (xorBytes a b).getD k 0 = a.getD k 0 ^^^ b.getD k 0 := by
  rw [List.getD_eq_getElem _ _ (by rw [length_xorBytes]; omega), List.getD_eq_getElem _ _ ha,
    List.getD_eq_getElem _ _ hb]
  exact List.getElem_zipWith

theorem gctr_getD (e : Block → Block) (cb : Block) {xs : List Byte} {k : Nat} (hk : k < xs.length) :
    (gctr e cb xs).getD k 0 = xs.getD k 0 ^^^ byteOf (e (counterBlock cb (k / 16))) (k % 16) := by
  induction hn : xs.length using Nat.strong_induction_on generalizing xs cb k with
  | _ n ih =>
    have hx : xs ≠ [] := List.length_pos_iff.mp (by omega)
    have hpiece : (xorBytes (xs.take 16) (blockBytes (e cb))).length = min 16 xs.length := by simp
    rw [gctr_eq e cb hx]
    rcases Nat.lt_or_ge k 16 with hlt | hge
    · have htake : (xs.take 16).getD k 0 = xs.getD k 0 := by
        rw [List.getD_eq_getElem?_getD, List.getElem?_take_of_lt hlt, List.getD_eq_getElem?_getD]
      rw [List.getD_append _ _ _ _ (by omega), xorBytes_getD (by simp; omega) (by simpa using hlt), htake,
        blockBytes_getD _ _ hlt, Nat.div_eq_of_lt hlt, Nat.mod_eq_of_lt hlt, counterBlock_zero]
    · obtain ⟨j, rfl⟩ := Nat.exists_eq_add_of_le hge
      have hdrop : (xs.drop 16).getD j 0 = xs.getD (16 + j) 0 := by
        rw [List.getD_eq_getElem?_getD, List.getElem?_drop, List.getD_eq_getElem?_getD]
      have hj : j < (xs.drop 16).length := by rw [List.length_drop]; omega
      rw [List.getD_append_right _ _ _ _ (by omega), hpiece, Nat.min_eq_left (by omega), Nat.add_sub_cancel_left,
        ih _ (by rw [List.length_drop]; omega) (inc32 cb) hj rfl, hdrop, counterBlock_inc32, Nat.add_mod_left,
        Nat.add_div_left _ (by decide)]

/-- Settles O30: piece by piece, the counter block of a piece being the first one counted up by the pieces before it. -/
theorem gctrByteInClosedForm : Obligations.GctrByteInClosedForm := by
  unfold Obligations.GctrByteInClosedForm
  exact fun e cb xs => ⟨length_gctr e cb xs, fun k hk => gctr_getD e cb hk⟩

/-- The keystream applied twice cancels, byte by byte (R234). -/
theorem gctr_gctr (e : Block → Block) (cb : Block) (xs : List Byte) : gctr e cb (gctr e cb xs) = xs := by
  refine List.ext_getElem (by simp) fun k hk hk' => ?_
  have h := gctr_getD e cb (xs := gctr e cb xs) (k := k) (by simpa using hk)
  rw [gctr_getD e cb hk', BitVec.xor_assoc, BitVec.xor_self, BitVec.xor_zero] at h
  rwa [List.getD_eq_getElem _ _ hk, List.getD_eq_getElem _ _ hk'] at h

@[simp] theorem gcmCrypt_gcmCrypt (e : Block → Block) (nonce xs : List Byte) :
    gcmCrypt e nonce (gcmCrypt e nonce xs) = xs := gctr_gctr e _ xs

/-! ### The tag as the rules write it -/

theorem extractLsb'_ofNat {w s l : Nat} (n : Nat) (h : s + l ≤ w) :
    (BitVec.ofNat w n).extractLsb' s l = BitVec.ofNat l (n >>> s) := by
  refine BitVec.eq_of_getLsbD_eq fun j hj => ?_
  have hw : s + j < w := by omega
  simp only [BitVec.getLsbD_extractLsb', BitVec.getLsbD_ofNat, Nat.testBit_shiftRight, hj, hw, decide_true,
    Bool.true_and]

/-- `bytes_be(n, 16)` of a number (R8). -/
theorem blockBytes_ofNat (n : Nat) : blockBytes (BitVec.ofNat 128 n) = bigEndian n 16 :=
  List.map_congr_left fun _ _ => extractLsb'_ofNat n (by omega)

/-- A block of two 64-bit numbers, byte by byte (R8, R235). -/
theorem blockBytes_append (a b : Nat) :
    blockBytes (BitVec.ofNat 64 a ++ BitVec.ofNat 64 b) = bigEndian a 8 ++ bigEndian b 8 := by
  rw [blockBytes, show 16 = 8 + 8 from rfl, List.range_add, List.map_append, List.map_map]
  refine congrArg₂ _ (List.map_congr_left fun i hi => ?high) (List.map_congr_left fun i hi => ?low)
  case high =>
    have hi : i < 8 := List.mem_range.mp hi
    rw [byteOf, show 8 * (15 - i) = 64 + 8 * (8 - 1 - i) by omega, extract_append_high,
      extractLsb'_ofNat a (by omega)]
  case low =>
    have hi : i < 8 := List.mem_range.mp hi
    rw [Function.comp_apply, byteOf, show 8 * (15 - (8 + i)) = 8 * (8 - 1 - i) by omega,
      BitVec.extractLsb'_append_eq_of_add_le (by omega), extractLsb'_ofNat b (by omega)]

theorem gcmJ0_eq_specJ0 (e : Block → Block) (nonce : List Byte) : gcmJ0 (e 0) nonce = specJ0 e nonce := by
  rw [gcmJ0, blockBytes_ofNat]; rfl

/-- The tag of a ciphertext is the cut `T_full` of R236. -/
theorem gcmTag_eq_specGcmTag (e : Block → Block) (nonce aad ct : List Byte) (tlen : Nat) :
    gcmTag e nonce aad ct tlen = (specGcmTag e aad nonce ct).take tlen := by
  have hhash : gcmHash (e 0) aad ct =
      ghash (e 0) (zeroPadded aad ++ zeroPadded ct ++ bigEndian (8 * aad.length) 8 ++ bigEndian (8 * ct.length) 8) := by
    rw [gcmHash, gcmLengths, blockBytes_append, List.append_assoc _ (bigEndian _ _)]; rfl
  rw [gcmTag, gcmJ0_eq_specJ0, hhash]; rfl

theorem gcmCrypt_eq (e : Block → Block) (nonce xs : List Byte) :
    gcmCrypt e nonce xs = gctr e (inc32 (specJ0 e nonce)) xs := by rw [gcmCrypt, gcmJ0_eq_specJ0]

/-- A decryption answers authentic exactly when the received tag is the one of the ciphertext (R236, R239). -/
theorem gcmOpen_authentic_iff (e : Block → Block) (c aad nonce tag : List Byte) :
    (gcmOpen e c aad nonce tag).2 = true ↔ tag = gcmTag e nonce aad c tag.length := by
  rw [gcmOpen, ctEqual, beq_iff_eq, eq_comm]

/-- Decryption undoes encryption (R238, R239). -/
theorem gcmOpen_gcmSeal (e : Block → Block) (p aad nonce : List Byte) {tlen : Nat} (h : tlen ≤ 16) :
    gcmOpen e (gcmSeal e p aad nonce tlen).1 aad nonce (gcmSeal e p aad nonce tlen).2 = (p, true) := by
  refine Prod.ext (gcmCrypt_gcmCrypt e nonce p) ((gcmOpen_authentic_iff ..).mpr ?_)
  rw [gcmSeal, length_gcmTag _ _ _ _ h]

/-- Settles O31: the keystream applied twice cancels, and both directions compute the tag from the ciphertext. -/
theorem gcmOpenUndoesGcmSeal : Obligations.GcmOpenUndoesGcmSeal := by
  unfold Obligations.GcmOpenUndoesGcmSeal
  refine fun e p aad nonce => ⟨fun tlen ht => ?sealed, fun c tag => ⟨gcmCrypt_eq e nonce c, ?authentic⟩⟩
  case sealed =>
    exact ⟨length_gcmCrypt e nonce p, length_gcmTag e nonce aad _ ht, gcmOpen_gcmSeal e p aad nonce ht,
      gcmCrypt_eq e nonce p, gcmTag_eq_specGcmTag e nonce aad _ tlen⟩
  case authentic => rw [gcmOpen_authentic_iff, gcmTag_eq_specGcmTag]

end Sys2Proof.Machine
end

section
/-! PROOFS. GCM_ENC and GCM_DEC (R238, R239): what they write, and the round trip on the machine. -/

namespace Sys2Proof.Machine

/-! ### Memory after stores -/

/-- Memory after a store, as the function of its addresses (R72). -/
theorem read_writeBytes_eq {m : Memory} {lo : Nat} (h : m.risesFrom lo = true) (a : Nat) (bs : List Byte) :
    (m.writeBytes a bs).read = storedAt a bs m.read := funext (read_writeBytes h a bs)

/-- What was stored is read back (R72). -/
theorem readBytes_writeBytes_same {m : Memory} {lo : Nat} (h : m.risesFrom lo = true) (a : Nat) (bs : List Byte) :
    (m.writeBytes a bs).readBytes a bs.length = bs := by
  refine List.ext_getElem (length_readBytes _ _ _) fun i h1 h2 => ?_
  have hi := readBytes_getD (m.writeBytes a bs) a bs.length i h2
  rw [read_writeBytes h, if_pos ⟨by omega, by omega⟩, Nat.add_sub_cancel_left] at hi
  rwa [List.getD_eq_getElem _ _ h1, List.getD_eq_getElem _ _ h2] at hi

/-- A store leaves the bytes of a range apart from it (R72). -/
theorem readBytes_writeBytes_apart {m : Memory} {lo : Nat} (h : m.risesFrom lo = true) {a n a' : Nat} {bs : List Byte}
    (hap : RangesApart (a', n) (a, bs.length)) : (m.writeBytes a bs).readBytes a' n = m.readBytes a' n := by
  have hagree : AgreeOn [(a', n)] m (m.writeBytes a bs) := by
    rintro x ⟨r, hr, hlo, hhi⟩
    obtain rfl := List.mem_singleton.mp hr
    rw [read_writeBytes h, if_neg (hap x hlo hhi)]
  exact hagree.readBytes (List.mem_singleton.mpr rfl) (Nat.le_refl _) (Nat.le_refl _)

/-! ### The outputs of a GCM or OCB command -/

/-- The result word byte by byte (R239, R73). -/
theorem wordBytes_result (ok : Bool) : wordBytes (if ok then 1 else 0) = [if ok then 1 else 0, 0, 0, 0] := by
  cases ok <;> rfl

section Outputs
variable {s : State} (b : AeadBufs)

theorem memoryOnly_writeSealed (ct tag : List Byte) : MemoryOnly s (advance (writeSealed b ct tag s)) := rfl

theorem memoryAndAuthOnly_writeOpened (res : Word) (p : List Byte) (ok : Bool) :
    MemoryAndAuthOnly s (advance (writeOpened b res p ok s)) := rfl

/-- Memory after the outputs of an encryption (R238). -/
theorem read_writeSealed (hm : s.mem.wf = true) (ct tag : List Byte) :
    (writeSealed b ct tag s).mem.read = storedAt b.tag.toNat tag (storedAt b.dst.toNat ct s.mem.read) := by
  have hrise := risesFrom_of_wf hm
  rw [writeSealed, store_mem, store_mem, read_writeBytes_eq (risesFrom_writeBytes hrise _ _),
    read_writeBytes_eq hrise]

/-- Memory after the outputs of a decryption (R239). -/
theorem read_writeOpened (hm : s.mem.wf = true) (res : Word) (p : List Byte) (ok : Bool) :
    (writeOpened b res p ok s).mem.read =
      storedAt res.toNat [if ok then 1 else 0, 0, 0, 0]
        (storedAt b.dst.toNat (if ok || !s.zof then p else List.replicate b.len.toNat 0) s.mem.read) := by
  have hrise := risesFrom_of_wf hm
  rw [writeOpened, store_mem, store_mem, read_writeBytes_eq (risesFrom_writeBytes hrise _ _),
    read_writeBytes_eq hrise, wordBytes_result, releasedText]

/-- Both outputs of an encryption are read back, when they do not overlap (R238). -/
theorem writeSealed_readBytes (hm : s.mem.wf = true) {ct tag : List Byte}
    (hap : RangesApart (b.dst.toNat, ct.length) (b.tag.toNat, tag.length)) :
    (writeSealed b ct tag s).mem.readBytes b.dst.toNat ct.length = ct ∧
    (writeSealed b ct tag s).mem.readBytes b.tag.toNat tag.length = tag := by
  have hrise := risesFrom_of_wf hm
  have hrise' := risesFrom_writeBytes hrise b.dst.toNat ct
  rw [writeSealed, store_mem, store_mem]
  exact ⟨(readBytes_writeBytes_apart hrise' hap).trans (readBytes_writeBytes_same hrise _ _),
    readBytes_writeBytes_same hrise' _ _⟩

/-- Both outputs of an authentic decryption are read back, when they do not overlap (R239). -/
theorem writeOpened_readBytes (hm : s.mem.wf = true) {res : Word} {p : List Byte}
    (hap : RangesApart (b.dst.toNat, p.length) (res.toNat, 4)) :
    (writeOpened b res p true s).mem.readBytes b.dst.toNat p.length = p ∧
    (writeOpened b res p true s).mem.readBytes res.toNat 4 = [1, 0, 0, 0] := by
  have hrise := risesFrom_of_wf hm
  have hrise' := risesFrom_writeBytes hrise b.dst.toNat p
  exact ⟨(readBytes_writeBytes_apart hrise' hap).trans (readBytes_writeBytes_same hrise _ _),
    readBytes_writeBytes_same hrise' res.toNat (wordBytes 1)⟩

end Outputs

theorem not_tagLenBad {tlen : BitVec 5} (h1 : 1 ≤ tlen.toNat) (h16 : tlen.toNat ≤ 16) : ¬ TagLenBad tlen := by
  rw [TagLenBad]; omega

theorem false_not_mem_valid {valid : Bool} (h : valid = true) : false ∉ [valid] := by simp [h]

/-- Settles O32: no condition of R361 holds, and the two outputs are stored one after the other. -/
theorem gcmEncWritesCiphertextThenTag : Obligations.GcmEncWritesCiphertextThenTag := by
  unfold Obligations.GcmEncWritesCiphertextThenTag
  intro ks tlen b s hm hc hev h1 h16 hr
  have hcomp : Completes (.gcmEnc ks tlen b) s :=
    ⟨rfl, fun _ => hc, false_not_mem_valid hev, not_tagLenBad h1 h16, hr⟩
  exact ⟨_, exec_completes hcomp, memoryOnly_writeSealed b _ _,
    (length_gcmCrypt _ _ _).trans (length_readBytes _ _ _), length_gcmTag _ _ _ _ h16,
    congrFun (read_writeSealed b hm _ _)⟩

/-- Settles O33: as GCM_ENC, with the result word as the second output. -/
theorem gcmDecWritesPlaintextResultAndAuth : Obligations.GcmDecWritesPlaintextResultAndAuth := by
  unfold Obligations.GcmDecWritesPlaintextResultAndAuth
  intro ks tlen b res s hm hc hev h1 h16 hr
  have hcomp : Completes (.gcmDec ks tlen b res) s :=
    ⟨rfl, fun _ => hc, false_not_mem_valid hev, not_tagLenBad h1 h16, hr⟩
  exact ⟨_, exec_completes hcomp, memoryAndAuthOnly_writeOpened b res _ _,
    (length_gcmCrypt _ _ _).trans (length_readBytes _ _ _), rfl,
    congrFun (read_writeOpened b hm res _ _)⟩

/-! ### The round trip -/

/-- A range apart from both outputs of a GCM_ENC keeps its bytes (R76, R238). -/
theorem load_after_gcmEnc {ks : SlotIx} {tlen : BitVec 5} {b : AeadBufs} {s : State} (hm : s.mem.wf = true)
    (hcomp : Completes (.gcmEnc ks tlen b) s) {a n : Word} (hdst : RangesApart (rangeOf a n) (rangeOf b.dst b.len))
    (htag : RangesApart (rangeOf a n) (b.tag.toNat, tlen.toNat)) :
    (effectOf (.gcmEnc ks tlen b) s).load a n = s.load a n := by
  have hagree : AgreeOn [rangeOf a n] s.mem (effectOf (.gcmEnc ks tlen b) s).mem := by
    rintro x ⟨r, hr, hlo, hhi⟩
    obtain rfl := List.mem_singleton.mp hr
    refine (effectOf_mem_outside hcomp hm ?_).symm
    rintro ⟨q, hq, hqx⟩
    rcases List.mem_pair.mp hq with rfl | rfl
    · exact hdst x hlo hhi hqx
    · exact htag x hlo hhi hqx
  exact hagree.readBytes (List.mem_singleton.mpr rfl) (Nat.le_refl _) (Nat.le_refl _)

/-- The effect of GCM_DEC by what it opens (R239). -/
theorem effectOf_gcmDec {ks : SlotIx} {tlen : BitVec 5} {b : AeadBufs} {res : Word} {s : State} {p : List Byte}
    {ok : Bool} (h : openedOf (.gcmDec ks tlen b res) s = (p, ok)) :
    effectOf (.gcmDec ks tlen b res) s = writeOpened b res p ok s := by rw [effectOf, h]

/-- A GCM_DEC after a GCM_ENC, with its source where that wrote, recovers the plaintext and finds it authentic, when the
outputs of the GCM_ENC overlap neither each other nor what is read again (R238, R239). -/
theorem openedOf_after_gcmEnc {ks : SlotIx} {tlen : BitVec 5} {b : AeadBufs} {s : State} (dst2 res : Word)
    (hm : s.mem.wf = true) (hcomp : Completes (.gcmEnc ks tlen b) s)
    (haad : RangesApart (rangeOf b.aad b.alen) (rangeOf b.dst b.len))
    (haad' : RangesApart (rangeOf b.aad b.alen) (b.tag.toNat, tlen.toNat))
    (hnonce : RangesApart (rangeOf b.nonce b.nlen) (rangeOf b.dst b.len))
    (hnonce' : RangesApart (rangeOf b.nonce b.nlen) (b.tag.toNat, tlen.toNat))
    (hout : RangesApart (rangeOf b.dst b.len) (b.tag.toNat, tlen.toNat)) :
    openedOf (.gcmDec ks tlen { b with src := b.dst, dst := dst2 } res) (advance (effectOf (.gcmEnc ks tlen b) s)) =
      (s.load b.src b.len, true) := by
  have h16 : tlen.toNat ≤ 16 := by
    obtain ⟨-, -, -, hargs, -⟩ := hcomp
    exact tagLen_le hargs
  let e := (s.slot ks).enc
  let r := gcmSeal e (s.load b.src b.len) (s.load b.aad b.alen) (s.load b.nonce b.nlen) tlen.toNat
  have hc : r.1.length = b.len.toNat := (length_gcmCrypt _ _ _).trans (length_load _ _ _)
  have ht : r.2.length = tlen.toNat := length_gcmTag _ _ _ _ h16
  obtain ⟨hsrc, htag⟩ := writeSealed_readBytes b hm (ct := r.1) (tag := r.2) (by rw [hc, ht]; exact hout)
  rw [hc] at hsrc
  rw [ht] at htag
  calc openedOf (.gcmDec ks tlen { b with src := b.dst, dst := dst2 } res) (advance (effectOf (.gcmEnc ks tlen b) s))
      = gcmOpen e ((writeSealed b r.1 r.2 s).mem.readBytes b.dst.toNat b.len.toNat)
          ((effectOf (.gcmEnc ks tlen b) s).load b.aad b.alen) ((effectOf (.gcmEnc ks tlen b) s).load b.nonce b.nlen)
          ((writeSealed b r.1 r.2 s).mem.readBytes b.tag.toNat tlen.toNat) := rfl
    _ = gcmOpen e r.1 (s.load b.aad b.alen) (s.load b.nonce b.nlen) r.2 := by
        rw [hsrc, htag, load_after_gcmEnc hm hcomp haad haad', load_after_gcmEnc hm hcomp hnonce hnonce']
    _ = (s.load b.src b.len, true) := gcmOpen_gcmSeal e _ _ _ h16

/-- Settles O34: GCM_ENC leaves every condition of GCM_DEC and its other inputs as they were, so that the decryption
opens what was sealed. -/
theorem gcmDecAfterGcmEncRestoresThePlaintext : Obligations.GcmDecAfterGcmEncRestoresThePlaintext := by
  unfold Obligations.GcmDecAfterGcmEncRestoresThePlaintext
  intro ks tlen b dst2 res s t hm b2 hs hd ht haad haad' hnonce hnonce' hout hres
  obtain rfl : advance (effectOf (.gcmEnc ks tlen b) s) = t :=
    Host.Outcome.next.inj ((exec_completes hs).symm.trans ht)
  have hd' : Completes (.gcmDec ks tlen b2 res) (advance (effectOf (.gcmEnc ks tlen b) s)) := hd
  have hm' : (advance (effectOf (.gcmEnc ks tlen b) s)).mem.wf = true := effectOf_wf hs hm
  have hlen : (s.load b.src b.len).length = b.len.toNat := length_load _ _ _
  have hread := writeOpened_readBytes b2 hm' (res := res) (p := s.load b.src b.len) (by rw [hlen]; exact hres)
  rw [hlen] at hread
  refine ⟨_, exec_completes hd', ?_⟩
  rw [effectOf_gcmDec (openedOf_after_gcmEnc dst2 res hm hs haad haad' hnonce hnonce' hout)]
  exact ⟨rfl, hread⟩

end Sys2Proof.Machine
end

section
/-! PROOFS. The offsets of OCB (R261, R262): the Gray code, and the loops of R264 to R266 over full blocks. -/

namespace Sys2Proof.Machine

/-! ### The Gray code -/

/-- Bit `b` of the Gray code of `n` (R261). -/
def grayBit (n b : Nat) : Bool := (n ^^^ (n >>> 1)).testBit b

theorem grayBit_eq (n b : Nat) : grayBit n b = (n.testBit b ^^ n.testBit (b + 1)) := by
  rw [grayBit, Nat.testBit_xor, Nat.testBit_shiftRight, Nat.add_comm 1]

/-- Past bit 0 the Gray code is the one of the half. -/
theorem grayBit_succ_right (n b : Nat) : grayBit n (b + 1) = grayBit (n / 2) b := by
  rw [grayBit_eq, grayBit_eq, Nat.testBit_succ, Nat.testBit_succ]

theorem grayBit_zero_right (n : Nat) : grayBit n 0 = (decide (n % 2 = 1) ^^ decide (n / 2 % 2 = 1)) := by
  rw [grayBit_eq, Nat.testBit_succ, Nat.testBit_zero, Nat.testBit_zero]

/-- Counting up flips one bit of the Gray code: bit 0 of an even number, and of an odd one the bit that counting up
its half flips (R261). -/
theorem grayBit_succ_ntzUpTo {fuel n : Nat} (h : n < fuel) (b : Nat) :
    grayBit (n + 1) b = (grayBit n b ^^ decide (b = ntzUpTo fuel (n + 1))) := by
  induction fuel generalizing n b with
  | zero => omega
  | succ fuel ih =>
    rw [ntzUpTo]
    rcases Nat.mod_two_eq_zero_or_one n with heven | hodd
    · rw [if_pos (by omega)]
      have hhalf : (n + 1) / 2 = n / 2 := by omega
      have hbit : (n + 1) % 2 = 1 := by omega
      cases b with
      | zero => simp [grayBit_zero_right, hhalf, hbit, heven]
      | succ b => simp [grayBit_succ_right, hhalf]
    · have hhalf : (n + 1) / 2 = n / 2 + 1 := by omega
      have hbit : (n + 1) % 2 = 0 := by omega
      rw [if_neg (by omega), hhalf]
      cases b with
      | zero =>
        have hne : 0 ≠ 1 + ntzUpTo fuel (n / 2 + 1) := by omega
        have hpar : decide ((n / 2 + 1) % 2 = 1) = !decide (n / 2 % 2 = 1) := by
          rw [← decide_not, decide_eq_decide]; omega
        simp [grayBit_zero_right, hhalf, hbit, hodd, hpar, hne]
      | succ b =>
        rw [grayBit_succ_right, grayBit_succ_right, hhalf, ih (by omega), Nat.add_comm 1]
        simp only [Nat.add_right_cancel_iff]

theorem grayBit_succ (n b : Nat) : grayBit (n + 1) b = (grayBit n b ^^ decide (b = ntz (n + 1))) :=
  grayBit_succ_ntzUpTo (Nat.lt_succ_self n) b

theorem grayBit_of_lt {n m b : Nat} (h : n < 2 ^ m) (hb : m ≤ b) : grayBit n b = false := by
  have hle : ∀ c, m ≤ c → n.testBit c = false := fun c hc =>
    Nat.testBit_lt_two_pow (Nat.lt_of_lt_of_le h (Nat.pow_le_pow_right (by decide) hc))
  rw [grayBit_eq, hle b hb, hle (b + 1) (by omega)]; rfl

/-- The bit that changes is one of the bits that a number has (R261). -/
theorem ntz_succ_lt {n m : Nat} (h : n + 1 < 2 ^ m) : ntz (n + 1) < m := by
  by_contra hge
  have hflip := grayBit_succ n (ntz (n + 1))
  rw [grayBit_of_lt h (by omega), grayBit_of_lt (n := n) (m := m) (by omega) (by omega)] at hflip
  simp at hflip

/-! ### Offsets -/

theorem lTable_eq_iterate (e : Block → Block) (i : Nat) : lTable e i = dblBe^[i + 2] (e 0) := by
  induction i with
  | zero => rfl
  | succ i ih => rw [lTable, ih, ← Function.iterate_succ_apply' dblBe]

/-- One more full block changes the offset by `L_{ntz(i)}` (R264 to R266). -/
theorem specOffset_succ (e : Block → Block) (base : Block) (k : Nat) :
    specOffset e base (k + 1) = specOffset e base k ^^^ lTable e (ntz (k + 1)) := by
  rw [specOffset, List.range_succ, List.foldl_append, lTable_eq_iterate]; rfl

/-- `base` changed by those `c b`, `b < m`, that `p` asks for (R261). -/
def xorSelected (c : Nat → Block) (p : Nat → Bool) (m : Nat) (base : Block) : Block :=
  (List.range m).foldl (fun o b => if p b then o ^^^ c b else o) base

theorem xorSelected_succ (c : Nat → Block) (p : Nat → Bool) (m : Nat) (base : Block) :
    xorSelected c p (m + 1) base =
      if p m then xorSelected c p m base ^^^ c m else xorSelected c p m base := by
  rw [xorSelected, List.range_succ, List.foldl_append]; rfl

theorem xorSelected_congr (c : Nat → Block) {p q : Nat → Bool} {m : Nat} (h : ∀ b < m, q b = p b) (base : Block) :
    xorSelected c q m base = xorSelected c p m base :=
  List.foldl_ext _ _ _ fun o b hb => by rw [h b (List.mem_range.mp hb)]

theorem xorSelected_none (c : Nat → Block) {p : Nat → Bool} {m : Nat} (h : ∀ b < m, p b = false) (base : Block) :
    xorSelected c p m base = base := by
  rw [xorSelected_congr c (p := fun _ => false) h]
  exact List.foldl_fixed _

/-- Selections that differ in one bit `j` differ by `c j`. -/
theorem xorSelected_flip (c : Nat → Block) {p q : Nat → Bool} {j m : Nat}
    (h : ∀ b, q b = (p b ^^ decide (b = j))) (hj : j < m) (base : Block) :
    xorSelected c q m base = xorSelected c p m base ^^^ c j := by
  induction m with
  | zero => omega
  | succ m ih =>
    rw [xorSelected_succ, xorSelected_succ, h m]
    rcases Nat.lt_or_eq_of_le (Nat.le_of_lt_succ hj) with hlt | rfl
    · rw [ih hlt, decide_eq_false (by omega), Bool.xor_false]
      split
      · ac_rfl
      · rfl
    · rw [xorSelected_congr c (p := p) fun b hb => by rw [h b, decide_eq_false (by omega), Bool.xor_false]]
      cases p j <;> simp

/-- After `n` full blocks the offset has changed by the L_b of the Gray code's bits (R261). -/
theorem specOffset_eq_xorSelected (e : Block → Block) (base : Block) {n m : Nat} (h : n < 2 ^ m) :
    specOffset e base n = xorSelected (lTable e) (grayBit n) m base := by
  induction n with
  | zero => exact (xorSelected_none _ (fun _ _ => by simp [grayBit]) base).symm
  | succ n ih =>
    rw [specOffset_succ, ih (by omega), xorSelected_flip (lTable e) (grayBit_succ n) (ntz_succ_lt h)]

/-! ### The loops over full blocks -/

/-- `acc ⊕ g(0) ⊕ … ⊕ g(n − 1)`: a checksum of R265 or the sum of R264. -/
def xorSum (g : Nat → Block) (n : Nat) (acc : Block) : Block := (List.range n).foldl (fun s k => s ^^^ g k) acc

theorem xorSum_succ (g : Nat → Block) (n : Nat) (acc : Block) : xorSum g (n + 1) acc = xorSum g n acc ^^^ g n := by
  rw [xorSum, List.range_succ, List.foldl_append]; rfl

theorem xorSum_congr {g g' : Nat → Block} {n : Nat} (h : ∀ k < n, g k = g' k) (acc : Block) :
    xorSum g n acc = xorSum g' n acc :=
  List.foldl_ext _ _ _ fun s k hk => by rw [h k (List.mem_range.mp hk)]

/-- Block `k` of the output, `f` applied to block `k` of the input between two XORs with its offset (R265, R266). -/
def ocbBlock (e f : Block → Block) (base : Block) (x : Nat → Block) (k : Nat) : Block :=
  specOffset e base (k + 1) ^^^ f (x k ^^^ specOffset e base (k + 1))

/-- The output for `n` full blocks (R265, R266). -/
def ocbBlocks (e f : Block → Block) (base : Block) (x : Nat → Block) (n : Nat) : List Byte :=
  (List.range n).flatMap fun k => blockBytes (ocbBlock e f base x k)

theorem ocbBlocks_succ (e f : Block → Block) (base : Block) (x : Nat → Block) (n : Nat) :
    ocbBlocks e f base x (n + 1) = ocbBlocks e f base x n ++ blockBytes (ocbBlock e f base x n) := by
  rw [ocbBlocks, List.range_succ, List.flatMap_append, List.flatMap_singleton]; rfl

/-- Of the input and the output of a loop, the one that the checksum covers, the plaintext: the input of R265, and the
output of R266. -/
def covered {α : Type} (dec : Bool) (input output : α) : α := if dec then output else input

theorem map_covered {α β : Type} (g : α → β) (dec : Bool) (x y : α) :
    g (covered dec x y) = covered dec (g x) (g y) := apply_ite g _ _ _

/-- A loop over the pieces of a text, from the index of the next full block, the offset and the checksum so far to the
output, the last offset and the checksum (R265, R266). -/
abbrev OcbLoop := Nat → Block → Block → List (List Byte) → List Byte × Block × Block

/-- What the loops of R265 and R266 have in common, `f` being the cipher that the full blocks go through. -/
structure IsOcbLoop (e f : Block → Block) (dec : Bool) (loop : OcbLoop) : Prop where
  empty : ∀ (i : Nat) (off chk : Block), loop i off chk [] = ([], off, chk)
  fullBlock : ∀ (i : Nat) (off chk : Block) (x : List Byte) (xs : List (List Byte)), x.length = 16 →
    let off' := off ^^^ lTable e (ntz i)
    let y := off' ^^^ f (beBlock x ^^^ off')
    let r := loop (i + 1) off' (chk ^^^ covered dec (beBlock x) y) xs
    loop i off chk (x :: xs) = (blockBytes y ++ r.1, r.2)
  partialBlock : ∀ (i : Nat) (off chk : Block) (x : List Byte), x.length ≠ 16 →
    let off' := off ^^^ lStar e
    let y := xorBytes x (blockBytes (e off'))
    loop i off chk [x] = (y, off', chk ^^^ beBlock (pad80 (covered dec x y)))

theorem ocbEncFrom_isOcbLoop (e : Block → Block) : IsOcbLoop e e false (ocbEncFrom e) where
  empty _ _ _ := rfl
  fullBlock _ _ _ _ _ hx := by rw [ocbEncFrom, if_pos hx]; rfl
  partialBlock _ _ _ _ hx := by rw [ocbEncFrom, if_neg hx]; rfl

theorem ocbDecFrom_isOcbLoop (e d : Block → Block) : IsOcbLoop e d true (ocbDecFrom e d) where
  empty _ _ _ := rfl
  fullBlock _ _ _ _ _ hx := by rw [ocbDecFrom, if_pos hx]; rfl
  partialBlock _ _ _ _ hx := by rw [ocbDecFrom, if_neg hx]; rfl

/-- `n` full blocks in front of `ys`, the last of them taken as the first piece of the rest. -/
theorem map_range_succ_append {α : Type} (b : Nat → α) (n : Nat) (ys : List α) :
    (List.range (n + 1)).map b ++ ys = (List.range n).map b ++ b n :: ys := by
  rw [List.range_succ, List.map_append, List.append_assoc]; rfl

/-- A data path past its first `n` full blocks (R265, R266). -/
theorem IsOcbLoop.append {e f : Block → Block} {dec : Bool} {loop : OcbLoop}
    (hloop : IsOcbLoop e f dec loop) (base chk : Block) {b : Nat → List Byte} {n : Nat}
    (hb : ∀ k < n, (b k).length = 16) (ys : List (List Byte)) :
    let x := fun k => beBlock (b k)
    let r := loop (n + 1) (specOffset e base n) (xorSum (fun k => covered dec (x k) (ocbBlock e f base x k)) n chk) ys
    loop 1 base chk ((List.range n).map b ++ ys) = (ocbBlocks e f base x n ++ r.1, r.2) := by
  induction n generalizing ys with
  | zero => rfl
  | succ n ih =>
    intro x r
    rw [map_range_succ_append, ih (fun k hk => hb k (by omega)), hloop.fullBlock _ _ _ _ _ (hb n (by omega)),
      ocbBlocks_succ, List.append_assoc]
    simp only [r, specOffset_succ, xorSum_succ, x, ocbBlock]

/-- The loop of HASH past its first `n` full blocks (R264). -/
theorem ocbHashFrom_append (e : Block → Block) (off sum : Block) {b : Nat → List Byte} {n : Nat}
    (hb : ∀ k < n, (b k).length = 16) (ys : List (List Byte)) :
    ocbHashFrom e 1 off sum ((List.range n).map b ++ ys) =
      ocbHashFrom e (n + 1) (specOffset e off n)
        (xorSum (fun k => e (beBlock (b k) ^^^ specOffset e off (k + 1))) n sum) ys := by
  induction n generalizing ys with
  | zero => rfl
  | succ n ih =>
    rw [map_range_succ_append, ih (fun k hk => hb k (by omega)), ocbHashFrom, if_pos (hb n (by omega)), xorSum_succ,
      specOffset_succ]

theorem map_getD_range {α : Type} (xs : List α) (a : α) : (List.range xs.length).map (xs.getD · a) = xs :=
  List.ext_getElem (by simp) fun k _ hk => by simp [hk]

theorem length_getD_of_fullBlocks {xs : List (List Byte)} (h : ∀ x ∈ xs, x.length = 16) {k : Nat} (hk : k < xs.length) :
    (xs.getD k []).length = 16 := by
  rw [List.getD_eq_getElem _ _ hk]; exact h _ (List.getElem_mem hk)

/-- A data path over full blocks only: its output and its last offset (R265, R266). -/
theorem IsOcbLoop.fullBlocks {e f : Block → Block} {dec : Bool} {loop : OcbLoop}
    (hloop : IsOcbLoop e f dec loop) (base chk : Block) {xs : List (List Byte)} (h : ∀ x ∈ xs, x.length = 16) :
    (loop 1 base chk xs).1 = ocbBlocks e f base (fun k => beBlock (xs.getD k [])) xs.length ∧
    (loop 1 base chk xs).2.1 = specOffset e base xs.length := by
  have happ := hloop.append base chk (fun k hk => length_getD_of_fullBlocks h hk) []
  simp only [map_getD_range, List.append_nil, hloop.empty] at happ
  rw [happ]
  exact ⟨rfl, rfl⟩

/-- HASH over full blocks only (R264). -/
theorem ocbHashFrom_fullBlocks (e : Block → Block) (off sum : Block) {xs : List (List Byte)}
    (h : ∀ x ∈ xs, x.length = 16) :
    ocbHashFrom e 1 off sum xs =
      xorSum (fun k => e (beBlock (xs.getD k []) ^^^ specOffset e off (k + 1))) xs.length sum := by
  have happ := ocbHashFrom_append e off sum (fun k hk => length_getD_of_fullBlocks h hk) []
  rwa [map_getD_range, List.append_nil] at happ

/-- Settles O35: block by block the offset is the one of R265, and counting the blocks up flips the bit of the Gray code
that names the L_b. -/
theorem ocbOffsetsFollowTheGrayCode : Obligations.OcbOffsetsFollowTheGrayCode := by
  unfold Obligations.OcbOffsetsFollowTheGrayCode
  intro e d off chk xs hxs hn gray block
  have hgray : ∀ n ≤ xs.length, specOffset e off n = gray n := fun n hle =>
    specOffset_eq_xorSelected e off (Nat.lt_of_le_of_lt hle hn)
  have hout : ∀ f : Block → Block, ocbBlocks e f off block xs.length = (List.range xs.length).flatMap
      fun k => blockBytes (gray (k + 1) ^^^ f (block k ^^^ gray (k + 1))) := fun f =>
    List.flatMap_congr fun k hk => by rw [ocbBlock, hgray _ (List.mem_range.mp hk)]
  obtain ⟨hencText, hencOffset⟩ := (ocbEncFrom_isOcbLoop e).fullBlocks off chk hxs
  obtain ⟨hdecText, hdecOffset⟩ := (ocbDecFrom_isOcbLoop e d).fullBlocks off chk hxs
  have hlast : specOffset e off xs.length = gray xs.length := hgray _ (Nat.le_refl _)
  refine ⟨hencOffset.trans hlast, hdecOffset.trans hlast, hencText.trans (hout e), hdecText.trans (hout d), ?hash⟩
  case hash =>
    rw [ocbHashFrom_fullBlocks e off chk hxs]
    exact xorSum_congr (fun k hk => by rw [hgray _ hk]) chk

end Sys2Proof.Machine
end

section
/-! PROOFS. OCB as a whole (R264 to R266): the data paths in closed form, the tag, and the round trip. -/

namespace Sys2Proof.Machine

/-! ### Byte strings cut into blocks -/

theorem specLast_eq (x : List Byte) : specLast x = beBlock (pad80 (x.drop (16 * (x.length / 16)))) := by
  rw [specLast, pad80, List.length_drop, show x.length - 16 * (x.length / 16) = x.length % 16 by omega]

/-- The pieces of a byte string: its full blocks, and what is left of it (R264, R265). -/
theorem chunks16_eq_map_range (x : List Byte) :
    chunks16 x = (List.range (x.length / 16)).map (fun k => (x.drop (16 * k)).take 16) ++
      if x.length % 16 = 0 then [] else [x.drop (16 * (x.length / 16))] := by
  induction hn : x.length / 16 generalizing x with
  | zero =>
    by_cases hx : x = []
    · subst hx; rfl
    · have hpos := List.length_pos_iff.mpr hx
      rw [chunks16_eq hx, List.take_of_length_le (by omega), List.drop_of_length_le (by omega), if_neg (by omega)]
      rfl
  | succ n ih =>
    have hx : x ≠ [] := List.length_pos_iff.mp (by omega)
    have hmod : (x.length - 16) % 16 = x.length % 16 := by omega
    rw [chunks16_eq hx, ih _ (by rw [List.length_drop]; omega), List.range_succ_eq_map, List.map_cons, List.map_map,
      List.length_drop, hmod, List.drop_drop, Nat.add_comm 16]
    simp only [Function.comp_def, List.drop_drop, Nat.mul_succ, Nat.add_comm 16]
    rfl

theorem length_fullPiece {x : List Byte} {k : Nat} (hk : k < x.length / 16) :
    ((x.drop (16 * k)).take 16).length = 16 := by
  rw [List.length_take, List.length_drop]; omega

/-- The full blocks joined again. -/
theorem flatMap_specBlock (x : List Byte) {n : Nat} (hn : n ≤ x.length / 16) :
    (List.range n).flatMap (fun k => blockBytes (specBlock x k)) = x.take (16 * n) := by
  induction n with
  | zero => rfl
  | succ n ih =>
    rw [List.range_succ, List.flatMap_append, List.flatMap_singleton, ih (by omega), specBlock,
      blockBytes_beBlock (length_fullPiece (by omega)), Nat.mul_succ, List.take_add]

/-- A byte string is its full blocks and what is left of it (R265). -/
theorem eq_of_specBlock_eq {x y : List Byte} (hlen : x.length = y.length)
    (hblock : ∀ k < x.length / 16, specBlock x k = specBlock y k)
    (hrest : x.drop (16 * (x.length / 16)) = y.drop (16 * (x.length / 16))) : x = y := by
  rw [← List.take_append_drop (16 * (x.length / 16)) x, ← List.take_append_drop (16 * (x.length / 16)) y, hrest,
    ← flatMap_specBlock x (Nat.le_refl _), ← flatMap_specBlock y (by rw [hlen])]
  exact congrArg (· ++ _) (List.flatMap_congr fun k hk => by rw [hblock k (List.mem_range.mp hk)])

/-! ### The data paths -/

/-- The offset at the end of the loop from `base` over a string of the length of `x` (R265). -/
def lastOffset (e : Block → Block) (base : Block) (x : List Byte) : Block :=
  if x.length % 16 = 0 then specOffset e base (x.length / 16) else specOffset e base (x.length / 16) ^^^ e 0

theorem specLastOffset_eq (e : Block → Block) (nonce : List Byte) (tlen : Nat) (x : List Byte) :
    specLastOffset e nonce tlen x = lastOffset e (specOffset0 e nonce tlen) x := rfl

theorem lastOffset_congr (e : Block → Block) (base : Block) {x y : List Byte} (h : x.length = y.length) :
    lastOffset e base x = lastOffset e base y := by rw [lastOffset, lastOffset, h]

/-- The output of a data path, `f` being the cipher that the full blocks go through (R265, R266). -/
def ocbText (e f : Block → Block) (base : Block) (x : List Byte) : List Byte :=
  ocbBlocks e f base (specBlock x) (x.length / 16) ++
    xorBytes (x.drop (16 * (x.length / 16))) (blockBytes (e (lastOffset e base x)))

theorem length_ocbBlocks (e f : Block → Block) (base : Block) (x : Nat → Block) (n : Nat) :
    (ocbBlocks e f base x n).length = 16 * n := by
  simp [ocbBlocks, List.length_flatMap, Nat.mul_comm]

theorem ocbBlocks_drop_take (e f : Block → Block) (base : Block) (x : Nat → Block) {n k : Nat} (hk : k < n)
    (ys : List Byte) :
    ((ocbBlocks e f base x n ++ ys).drop (16 * k)).take 16 = blockBytes (ocbBlock e f base x k) := by
  induction n generalizing ys with
  | zero => omega
  | succ n ih =>
    rw [ocbBlocks_succ, List.append_assoc]
    rcases Nat.lt_or_eq_of_le (Nat.le_of_lt_succ hk) with hlt | rfl
    · exact ih hlt _
    · rw [List.drop_left' (length_ocbBlocks ..), List.take_left' (length_blockBytes _)]

section Text
variable (e f : Block → Block) (base : Block) (x : List Byte)

@[simp] theorem length_ocbText : (ocbText e f base x).length = x.length := by
  rw [ocbText, List.length_append, length_ocbBlocks, length_xorBytes, length_blockBytes, List.length_drop]
  omega

theorem specBlock_ocbText {k : Nat} (hk : k < x.length / 16) :
    specBlock (ocbText e f base x) k = ocbBlock e f base (specBlock x) k := by
  rw [specBlock, ocbText, ocbBlocks_drop_take _ _ _ _ hk, beBlock_blockBytes]

theorem drop_ocbText : (ocbText e f base x).drop (16 * (x.length / 16)) =
    xorBytes (x.drop (16 * (x.length / 16))) (blockBytes (e (lastOffset e base x))) :=
  List.drop_left' (length_ocbBlocks ..)

end Text

/-- The checksum of a plaintext (R265). -/
def ocbChecksum (p : List Byte) : Block :=
  if p.length % 16 = 0 then xorSum (specBlock p) (p.length / 16) 0
  else xorSum (specBlock p) (p.length / 16) 0 ^^^ specLast p

/-- The checksum of the plaintext by what the loop sees of it: its full blocks, and what is left (R265, R266). -/
theorem ocbChecksum_covered (e f : Block → Block) (dec : Bool) (base : Block) (x : List Byte) :
    let sum := xorSum (fun k => covered dec (specBlock x k) (ocbBlock e f base (specBlock x) k)) (x.length / 16) 0
    let rest := x.drop (16 * (x.length / 16))
    ocbChecksum (covered dec x (ocbText e f base x)) =
      if x.length % 16 = 0 then sum
      else sum ^^^ beBlock (pad80 (covered dec rest (xorBytes rest (blockBytes (e (lastOffset e base x)))))) := by
  intro sum rest
  have hlen : (covered dec x (ocbText e f base x)).length = x.length := by
    rw [map_covered List.length, length_ocbText, covered, ite_self]
  have hsum : xorSum (specBlock (covered dec x (ocbText e f base x))) (x.length / 16) 0 = sum :=
    xorSum_congr (fun k hk => by rw [map_covered (specBlock · k), specBlock_ocbText e f base x hk]) 0
  rw [ocbChecksum, specLast_eq, hlen, hsum, map_covered (List.drop _), drop_ocbText]

/-- What a data path does after the full blocks (R265, R266). -/
theorem IsOcbLoop.afterFullBlocks {e f : Block → Block} {dec : Bool} {loop : OcbLoop}
    (hloop : IsOcbLoop e f dec loop) (i : Nat) (base chk : Block) (x : List Byte) :
    let rest := x.drop (16 * (x.length / 16))
    let y := xorBytes rest (blockBytes (e (lastOffset e base x)))
    loop i (specOffset e base (x.length / 16)) chk (if x.length % 16 = 0 then [] else [rest]) =
      (y, lastOffset e base x, if x.length % 16 = 0 then chk else chk ^^^ beBlock (pad80 (covered dec rest y))) := by
  intro rest y
  by_cases hmod : x.length % 16 = 0
  · have hy : y = [] := List.length_eq_zero_iff.mp (by rw [length_xorBytes, List.length_drop]; omega)
    rw [if_pos hmod, if_pos hmod, hloop.empty, hy, lastOffset, if_pos hmod]
  · have hpart : rest.length ≠ 16 := by rw [List.length_drop]; omega
    have hoff : specOffset e base (x.length / 16) ^^^ lStar e = lastOffset e base x := by
      rw [lastOffset, if_neg hmod, lStar]
    rw [if_neg hmod, if_neg hmod, hloop.partialBlock _ _ _ _ hpart, hoff]

/-- A data path in closed form: its output, its last offset and the checksum of the plaintext (R265, R266). -/
theorem IsOcbLoop.run {e f : Block → Block} {dec : Bool} {loop : OcbLoop}
    (hloop : IsOcbLoop e f dec loop) (base : Block) (x : List Byte) :
    loop 1 base 0 (chunks16 x) =
      (ocbText e f base x, lastOffset e base x, ocbChecksum (covered dec x (ocbText e f base x))) := by
  rw [chunks16_eq_map_range, hloop.append base 0 fun k hk => length_fullPiece hk, hloop.afterFullBlocks,
    ocbChecksum_covered]
  rfl

/-- Decryption undoes encryption: the XORs with an offset and with the pad cancel (R265, R266). -/
theorem ocbText_ocbText {e d : Block → Block} (hd : ∀ x, d (e x) = x) (base : Block) (p : List Byte) :
    ocbText e d base (ocbText e e base p) = p := by
  have hlen := length_ocbText e e base p
  refine eq_of_specBlock_eq (by simp) (fun k hk => ?block) ?rest
  case block =>
    have hk : k < p.length / 16 := by simpa using hk
    have hcancel : ∀ o y : Block, o ^^^ y ^^^ o = y := fun o y => by
      rw [BitVec.xor_comm o, BitVec.xor_assoc, BitVec.xor_self, BitVec.xor_zero]
    rw [specBlock_ocbText _ _ _ _ (by rwa [hlen]), ocbBlock, specBlock_ocbText _ _ _ _ hk, ocbBlock, hcancel, hd,
      ← BitVec.xor_assoc, hcancel]
  case rest =>
    have hshort : (p.drop (16 * (p.length / 16))).length ≤ 16 := by rw [List.length_drop]; omega
    have hdrop := drop_ocbText e d base (ocbText e e base p)
    rw [hlen, drop_ocbText, lastOffset_congr e base hlen, xorBytes_xorBytes _ _ (by simpa using hshort)] at hdrop
    rw [length_ocbText, hlen, hdrop]

/-! ### The tag -/

/-- HASH of the rules (R264). -/
theorem ocbHash_eq_specOcbHash (e : Block → Block) (aad : List Byte) : ocbHash e aad = specOcbHash e aad := by
  rw [ocbHash, chunks16_eq_map_range, ocbHashFrom_append e 0 0 fun k hk => length_fullPiece hk, specOcbHash]
  by_cases hmod : aad.length % 16 = 0
  · rw [if_pos hmod, if_pos hmod]; rfl
  · have hpart : (aad.drop (16 * (aad.length / 16))).length ≠ 16 := by rw [List.length_drop]; omega
    rw [if_neg hmod, if_neg hmod, ocbHashFrom, if_neg hpart, specLast_eq]; rfl

/-- The tag of a plaintext is the cut `T_full` of R265. -/
theorem ocbTag_eq_specOcbTag (e : Block → Block) (aad nonce p : List Byte) (tlen n : Nat) :
    ocbTag e (lastOffset e (specOffset0 e nonce tlen) p) (ocbChecksum p) aad n =
      (specOcbTag e aad nonce p tlen).take n := by
  rw [ocbTag, ocbHash_eq_specOcbHash, specOcbTag, specLastOffset_eq]; rfl

/-- OCB encryption (R265). -/
theorem ocbSeal_eq (e : Block → Block) (p aad nonce : List Byte) (tlen : Nat) :
    ocbSeal e p aad nonce tlen =
      (ocbText e e (specOffset0 e nonce tlen) p, (specOcbTag e aad nonce p tlen).take tlen) := by
  rw [ocbSeal, (ocbEncFrom_isOcbLoop e).run, ← ocbTag_eq_specOcbTag]; rfl

/-- OCB decryption (R266). -/
theorem ocbOpen_eq (e d : Block → Block) (c aad nonce tag : List Byte) :
    ocbOpen e d c aad nonce tag =
      let p := ocbText e d (specOffset0 e nonce tag.length) c
      (p, ctEqual ((specOcbTag e aad nonce p tag.length).take tag.length) tag) := by
  rw [ocbOpen, (ocbDecFrom_isOcbLoop e d).run]
  simp only [← ocbTag_eq_specOcbTag, lastOffset_congr e _ (length_ocbText ..)]
  rfl

theorem length_specOcbTag_take (e : Block → Block) (aad nonce p : List Byte) {tlen : Nat} (h : tlen ≤ 16) :
    ((specOcbTag e aad nonce p tlen).take tlen).length = tlen := by
  rw [← ocbTag_eq_specOcbTag, length_ocbTag _ _ _ _ h]

/-- A decryption of what was sealed recovers the plaintext and finds it authentic (R265, R266). -/
theorem ocbOpen_ocbSeal {e d : Block → Block} (hd : ∀ x, d (e x) = x) (p aad nonce : List Byte) {tlen : Nat}
    (h : tlen ≤ 16) :
    ocbOpen e d (ocbSeal e p aad nonce tlen).1 aad nonce (ocbSeal e p aad nonce tlen).2 = (p, true) := by
  rw [ocbSeal_eq, ocbOpen_eq, length_specOcbTag_take _ _ _ _ h]
  simp only [ocbText_ocbText hd, ctEqual, beq_self_eq_true]

/-- Settles O36: both data paths in closed form, and the tag is the one of the plaintext in both directions. -/
theorem ocbOpenUndoesOcbSeal : Obligations.OcbOpenUndoesOcbSeal := by
  unfold Obligations.OcbOpenUndoesOcbSeal
  intro e d p aad nonce path
  have hpath : ∀ (f : Block → Block) (tlen : Nat) (x : List Byte),
      path f tlen x (ocbText e f (specOffset0 e nonce tlen) x) := fun f tlen x =>
    ⟨length_ocbText .., fun k hk => specBlock_ocbText e f _ x hk, drop_ocbText ..⟩
  refine ⟨fun tlen ht => ?sealed, fun c tag => ?opened⟩
  case sealed =>
    refine ⟨?_, fun hd => ocbOpen_ocbSeal hd p aad nonce ht, ?_⟩
    · rw [ocbSeal_eq]; exact length_specOcbTag_take _ _ _ _ ht
    · rw [ocbSeal_eq]; exact ⟨hpath e tlen p, rfl⟩
  case opened =>
    rw [ocbOpen_eq]
    exact ⟨hpath d tag.length c, beq_iff_eq.trans eq_comm⟩

end Sys2Proof.Machine
end

section
/-! PROOFS. OCB_ENC and OCB_DEC (R270, R271): what they write. -/

namespace Sys2Proof.Machine

theorem not_ocbArgBad {tlen : BitVec 5} {nlen : Word} (h1 : 1 ≤ tlen.toNat) (h16 : tlen.toNat ≤ 16)
    (hn : nlen.toNat ≤ 15) : ¬ (TagLenBad tlen ∨ 15 < nlen.toNat) :=
  not_or.mpr ⟨not_tagLenBad h1 h16, Nat.not_lt.mpr hn⟩

/-- Settles O37: no condition of R361 holds, and the two outputs are stored one after the other. -/
theorem ocbEncWritesCiphertextThenTag : Obligations.OcbEncWritesCiphertextThenTag := by
  unfold Obligations.OcbEncWritesCiphertextThenTag
  intro ks tlen b s hm hc hev h1 h16 hn hr
  have hcomp : Completes (.ocbEnc ks tlen b) s :=
    ⟨rfl, fun _ => hc, false_not_mem_valid hev, not_ocbArgBad h1 h16 hn, hr⟩
  exact ⟨_, exec_completes hcomp, memoryOnly_writeSealed b _ _,
    (length_ocbEncFrom ..).trans (length_readBytes _ _ _), length_ocbTag _ _ _ _ h16,
    congrFun (read_writeSealed b hm _ _)⟩

/-- Settles O38: as OCB_ENC, with the result word as the second output. -/
theorem ocbDecWritesPlaintextResultAndAuth : Obligations.OcbDecWritesPlaintextResultAndAuth := by
  unfold Obligations.OcbDecWritesPlaintextResultAndAuth
  intro ks tlen b res s hm hc hev hdv h1 h16 hn hr
  have hvalid : false ∉ [s.ks[ks].ev, s.ks[ks].dv] := by rw [hev, hdv]; decide
  have hcomp : Completes (.ocbDec ks tlen b res) s :=
    ⟨rfl, fun _ => hc, hvalid, not_ocbArgBad h1 h16 hn, hr⟩
  exact ⟨_, exec_completes hcomp, memoryAndAuthOnly_writeOpened b res _ _,
    (length_ocbDecFrom ..).trans (length_readBytes _ _ _), rfl,
    congrFun (read_writeOpened b hm res _ _)⟩

end Sys2Proof.Machine
end

section
/-! PROOFS. XTS data units (R291 to R296): stealing undone, the units of a buffer, the tweaks and the IVs. -/

namespace Sys2Proof.Machine

/-! ### Pieces of one length -/

/-- Pieces of one length, joined: the piece `k` is at its own offset. -/
theorem flatMap_range_drop_take {piece : Nat → List Byte} {len n k : Nat} (hlen : ∀ j < n, (piece j).length = len)
    (hk : k < n) (ys : List Byte) :
    (((List.range n).flatMap piece ++ ys).drop (k * len)).take len = piece k := by
  induction n generalizing ys with
  | zero => omega
  | succ n ih =>
    have hbefore : ∀ j < n, (piece j).length = len := fun j hj => hlen j (by omega)
    rw [List.range_succ, List.flatMap_append, List.flatMap_singleton, List.append_assoc]
    rcases Nat.lt_or_eq_of_le (Nat.le_of_lt_succ hk) with hlt | rfl
    · exact ih hbefore hlt _
    · have hpieces : ((List.range k).flatMap piece).length = k * len := by
        rw [List.length_flatMap, List.map_congr_left fun j hj => hbefore j (List.mem_range.mp hj)]
        simp
      rw [List.drop_left' hpieces, List.take_left' (hlen k hk)]

/-! ### XEX -/

theorem length_unitBlock {x : List Byte} {j : Nat} (h : 16 * (j + 1) ≤ x.length) : (unitBlock x j).length = 16 := by
  rw [unitBlock, List.length_take, List.length_drop]; omega

/-- The blocks of a data unit joined again (R294). -/
theorem flatMap_unitBlock (x : List Byte) (n : Nat) : (List.range n).flatMap (unitBlock x) = x.take (16 * n) := by
  induction n with
  | zero => rfl
  | succ n ih =>
    rw [List.range_succ, List.flatMap_append, List.flatMap_singleton, ih, unitBlock, Nat.mul_succ, List.take_add]

/-- Block `j` of an output that begins with XEX blocks (R294). -/
theorem unitBlock_xexBlocks_append (f : Block → Block) (ts : List Block) (x : List Byte) {n j : Nat} (hj : j < n)
    (ys : List Byte) : unitBlock (xexBlocks f ts x n ++ ys) j = xex f (ts.getD j 0) (unitBlock x j) := by
  rw [unitBlock, Nat.mul_comm]
  exact flatMap_range_drop_take (piece := fun j => xex f (ts.getD j 0) (unitBlock x j)) (fun _ _ => length_xex ..) hj ys

section Inverse
variable {e d : Block → Block} (hd : ∀ x, d (e x) = x)
include hd

/-- XD undoes XE under the same tweak: the XORs with the tweak cancel (R293). -/
theorem xex_xex (t : Block) {x : List Byte} (hx : x.length = 16) : xex d t (xex e t x) = x := by
  have hcancel : ∀ y : Block, y ^^^ t ^^^ t = y := fun y => by
    rw [BitVec.xor_assoc, BitVec.xor_self, BitVec.xor_zero]
  rw [xex, xex, beBlock_blockBytes, hcancel, hd, hcancel, blockBytes_beBlock hx]

/-- The full blocks of a data unit are recovered, whatever follows them (R294, R295). -/
theorem xexBlocks_xexBlocks_append (ts : List Block) {p : List Byte} {n : Nat} (hn : 16 * n ≤ p.length)
    (ys : List Byte) : xexBlocks d ts (xexBlocks e ts p n ++ ys) n = p.take (16 * n) := by
  rw [← flatMap_unitBlock, xexBlocks]
  refine List.flatMap_congr fun j hj => ?_
  have hj := List.mem_range.mp hj
  rw [unitBlock_xexBlocks_append e ts p hj, xex_xex hd _ (length_unitBlock (by omega))]

end Inverse

/-! ### Ciphertext stealing -/

/-- A data unit with a partial last block, the last full block under the tweak `t1` and the stolen one under `t2`: what
R294 and R295 have in common. -/
def stealUnit (f : Block → Block) (ts : List Block) (t1 t2 : Block) (x : List Byte) : List Byte :=
  let m := x.length / 16
  let b := x.length % 16
  let y := xex f t1 (unitBlock x (m - 1))
  xexBlocks f ts x (m - 1) ++ xex f t2 (x.drop (16 * m) ++ y.drop b) ++ y.take b

section Unit
variable (f : Block → Block) (ts : List Block) {x : List Byte}

theorem xtsEncUnit_whole (h : x.length % 16 = 0) : xtsEncUnit f ts x = xexBlocks f ts x (x.length / 16) := if_pos h

theorem xtsDecUnit_whole (h : x.length % 16 = 0) : xtsDecUnit f ts x = xexBlocks f ts x (x.length / 16) := if_pos h

theorem xtsEncUnit_steal (h : x.length % 16 ≠ 0) :
    xtsEncUnit f ts x = stealUnit f ts (ts.getD (x.length / 16 - 1) 0) (ts.getD (x.length / 16) 0) x := if_neg h

/-- Decryption takes the tweaks of the last two blocks the other way round (R295). -/
theorem xtsDecUnit_steal (h : x.length % 16 ≠ 0) :
    xtsDecUnit f ts x = stealUnit f ts (ts.getD (x.length / 16) 0) (ts.getD (x.length / 16 - 1) 0) x := if_neg h

end Unit

section Steal
variable (f : Block → Block) (ts : List Block) (t1 t2 : Block) {x : List Byte} {n : Nat}

/-- The parts of a data unit with stealing: the blocks before the last full one, the stolen block, and the short one. -/
theorem stealUnit_eq (hn : x.length / 16 = n + 1) :
    stealUnit f ts t1 t2 x =
      xexBlocks f ts x n ++ (xex f t2 (x.drop (16 * (n + 1)) ++ (xex f t1 (unitBlock x n)).drop (x.length % 16)) ++
        (xex f t1 (unitBlock x n)).take (x.length % 16)) := by
  rw [stealUnit, hn, Nat.add_sub_cancel, List.append_assoc]

theorem length_stealUnit (hn : x.length / 16 = n + 1) : (stealUnit f ts t1 t2 x).length = x.length := by
  rw [stealUnit_eq f ts t1 t2 hn]
  simp only [List.length_append, length_xexBlocks, length_xex, List.length_take]
  omega

theorem unitBlock_stealUnit (hn : x.length / 16 = n + 1) :
    unitBlock (stealUnit f ts t1 t2 x) n =
      xex f t2 (x.drop (16 * (n + 1)) ++ (xex f t1 (unitBlock x n)).drop (x.length % 16)) := by
  rw [stealUnit_eq f ts t1 t2 hn, unitBlock, List.drop_left' (length_xexBlocks ..), List.take_left' (length_xex ..)]

theorem drop_stealUnit (hn : x.length / 16 = n + 1) :
    (stealUnit f ts t1 t2 x).drop (16 * (n + 1)) = (xex f t1 (unitBlock x n)).take (x.length % 16) := by
  rw [stealUnit_eq f ts t1 t2 hn, ← List.append_assoc]
  exact List.drop_left' (by rw [List.length_append, length_xexBlocks, length_xex, Nat.mul_succ])

end Steal

/-- Stealing is undone by stealing with the two tweaks swapped: the first XEX gives back the tail and the stolen bytes,
which complete the block that the second one decrypts (R295). -/
theorem stealUnit_stealUnit {e d : Block → Block} (hd : ∀ x, d (e x) = x) (ts : List Block) (t1 t2 : Block)
    {p : List Byte} (hp : 16 ≤ p.length) : stealUnit d ts t2 t1 (stealUnit e ts t1 t2 p) = p := by
  obtain ⟨n, hn⟩ : ∃ n, p.length / 16 = n + 1 := Nat.exists_eq_succ_of_ne_zero (by omega)
  have hlen : (stealUnit e ts t1 t2 p).length = p.length := length_stealUnit e ts t1 t2 hn
  let b := p.length % 16
  let tail := p.drop (16 * (n + 1))
  let cc := xex e t1 (unitBlock p n)
  have htail : tail.length = b := by rw [List.length_drop]; omega
  have hstolen : xex d t2 (unitBlock (stealUnit e ts t1 t2 p) n) = tail ++ cc.drop b := by
    rw [unitBlock_stealUnit e ts t1 t2 hn]
    refine xex_xex hd t2 ?_
    rw [List.length_append, htail, List.length_drop, length_xex]; omega
  have hblocks : xexBlocks d ts (stealUnit e ts t1 t2 p) n = p.take (16 * n) := by
    rw [stealUnit_eq e ts t1 t2 hn, xexBlocks_xexBlocks_append hd ts (by omega)]
  calc stealUnit d ts t2 t1 (stealUnit e ts t1 t2 p)
      = p.take (16 * n) ++ (xex d t1 (cc.take b ++ (tail ++ cc.drop b).drop b) ++ (tail ++ cc.drop b).take b) := by
        rw [stealUnit_eq d ts t2 t1 (by rw [hlen, hn]), hlen, hblocks, hstolen, drop_stealUnit e ts t1 t2 hn]
    _ = p.take (16 * n) ++ (xex d t1 cc ++ tail) := by
        rw [List.drop_left' htail, List.take_left' htail, List.take_append_drop]
    _ = p.take (16 * n) ++ (unitBlock p n ++ tail) := by rw [xex_xex hd t1 (length_unitBlock (by omega))]
    _ = p := by
        rw [← List.append_assoc, unitBlock, ← List.take_add, ← Nat.mul_succ, List.take_append_drop]

/-- Settles O39: block by block when the unit is whole, and otherwise the stealing undone. -/
theorem xtsDecUnitUndoesXtsEncUnit : Obligations.XtsDecUnitUndoesXtsEncUnit := by
  unfold Obligations.XtsDecUnitUndoesXtsEncUnit
  intro e d ts p hd hp
  have hlen := length_xtsEncUnit e ts p hp
  refine ⟨hlen, ?_⟩
  by_cases hb : p.length % 16 = 0
  · have hwhole : 16 * (p.length / 16) = p.length := by omega
    have hblocks := xexBlocks_xexBlocks_append hd ts (Nat.le_of_eq hwhole) []
    rw [List.append_nil, hwhole, List.take_length] at hblocks
    rw [xtsDecUnit_whole d ts (by rwa [hlen]), hlen, xtsEncUnit_whole e ts hb, hblocks]
  · rw [xtsDecUnit_steal d ts (by rwa [hlen]), hlen, xtsEncUnit_steal e ts hb, stealUnit_stealUnit hd ts _ _ hp]

/-! ### IVs, tweaks and the units of a buffer -/

theorem byteOf_xtsIv_array (m : Memory) (iv : Word) (u : Nat) {k : Nat} (hk : k < 16) :
    byteOf (xtsIv m (.array iv) u) k = m.read (iv.toNat + 16 * u + k) := by
  rw [xtsIv, byteOf_beBlock (length_readBytes _ _ _) hk, readBytes_getD _ _ _ _ hk]

@[simp] theorem length_le64Bytes (n : BitVec 64) : (le64Bytes n).length = 8 := by simp [le64Bytes]

theorem le64Bytes_getD (n : BitVec 64) {k : Nat} (hk : k < 8) :
    (le64Bytes n).getD k 0 = BitVec.ofNat 8 (n.toNat >>> (8 * k)) := by
  simp [le64Bytes, List.getD_eq_getElem?_getD, hk, BitVec.extractLsb']

/-- The IV of SEQ = 1 byte by byte: a little-endian number and eight zero bytes (R291). -/
theorem byteOf_xtsIv_seq (m : Memory) (seq : BitVec 64) (u : Nat) {k : Nat} (hk : k < 16) :
    byteOf (xtsIv m (.seq seq) u) k =
      if k < 8 then BitVec.ofNat 8 (((seq.toNat + u) % 2 ^ 64) >>> (8 * k)) else 0 := by
  rw [xtsIv, byteOf_beBlock (by simp) hk]
  split
  case isTrue hlow =>
    rw [List.getD_append _ _ _ _ (by simpa using hlow), le64Bytes_getD _ hlow, BitVec.toNat_add, BitVec.toNat_ofNat,
      Nat.add_mod_mod]
  case isFalse hhigh =>
    rw [List.getD_append_right _ _ _ _ (by simpa using hhigh), List.getD_replicate _ (by simp; omega)]

/-- The tweaks are the iterated doublings of the first one (R292). -/
theorem tweaks_eq_map_range (n : Nat) (t : Block) : tweaks n t = (List.range (n + 1)).map fun j => dblLe^[j] t := by
  induction n generalizing t with
  | zero => rfl
  | succ n ih =>
    rw [tweaks, ih, List.range_succ_eq_map (n := n + 1), List.map_cons, List.map_map]
    rfl

/-- Both unit functions keep the length of a data unit (R294, R295). -/
theorem length_xtsUnit {f : Block → Block} {unit : List Block → List Byte → List Byte}
    (hunit : unit = xtsEncUnit f ∨ unit = xtsDecUnit f) {dul : Nat} (hdul : 16 ≤ dul) (ts : List Block)
    {x : List Byte} (hx : x.length = dul) : (unit ts x).length = dul := by
  subst hx
  rcases hunit with rfl | rfl
  · exact length_xtsEncUnit f ts x hdul
  · exact length_xtsDecUnit f ts x hdul

/-- Unit `u` of a byte string of whole units (R296). -/
theorem length_dataUnit {x : List Byte} {dul n u : Nat} (hx : x.length = n * dul) (hu : u < n) :
    ((x.drop (u * dul)).take dul).length = dul := by
  have hend : (u + 1) * dul ≤ n * dul := Nat.mul_le_mul_right _ hu
  rw [Nat.succ_mul] at hend
  rw [List.length_take, List.length_drop]; omega

/-- Unit `u` of the output of a unit function that keeps the length of a unit (R296). -/
theorem xtsBuffer_drop_take {unit : List Block → List Byte → List Byte} (tweak0 : Nat → Block) {dul n u : Nat}
    {x : List Byte} (hunit : ∀ ts y, y.length = dul → (unit ts y).length = dul) (hx : x.length = n * dul)
    (hu : u < n) :
    ((xtsBuffer unit tweak0 dul n x).drop (u * dul)).take dul =
      unit (tweaks (dul / 16) (tweak0 u)) ((x.drop (u * dul)).take dul) := by
  rw [← List.append_nil (xtsBuffer ..)]
  exact flatMap_range_drop_take
    (piece := fun u => unit (tweaks (dul / 16) (tweak0 u)) ((x.drop (u * dul)).take dul))
    (fun j hj => hunit _ _ (length_dataUnit hx hj)) hu []

/-- Settles O40: the outputs of the units are pieces of one length, joined in order. -/
theorem xtsUnitsAreIndependent : Obligations.XtsUnitsAreIndependent := by
  unfold Obligations.XtsUnitsAreIndependent
  refine ⟨fun m iv seq u k hk => ⟨byteOf_xtsIv_array m iv u hk, byteOf_xtsIv_seq m seq u hk⟩, fun m => ?wraps, ?units⟩
  case wraps =>
    refine block_ext fun k hk => (byteOf_xtsIv_seq m _ 1 hk).trans ?_
    simp [byteOf]
  case units =>
    intro f unit tweak0 dul n u x hunit hdul hx hu
    have hlen : ∀ ts y, y.length = dul → (unit ts y).length = dul := fun ts _ hy => length_xtsUnit hunit hdul ts hy
    refine ⟨length_xtsBuffer unit tweak0 hlen hx, ?_⟩
    rw [xtsBuffer_drop_take tweak0 hlen hx hu, tweaks_eq_map_range]

end Sys2Proof.Machine
end

section
/-! PROOFS. XTS_ENC and XTS_DEC (R298, R299): what they write. -/

namespace Sys2Proof.Machine

theorem false_not_mem_validPair {valid1 valid2 : Bool} (h1 : valid1 = true) (h2 : valid2 = true) :
    false ∉ [valid1, valid2] := by simp [h1, h2]

section Apply
variable {s : State} (unit : List Block → List Byte → List Byte) (kt : KeySlot) (b : XtsBufs)

theorem memoryOnly_xtsApply : MemoryOnly s (advance (xtsApply unit kt b s)) := rfl

/-- Memory after an XTS command: one store at DST (R298). -/
theorem read_xtsApply (hm : s.mem.wf = true) :
    (xtsApply unit kt b s).mem.read =
      storedAt b.dst.toNat (xtsBuffer unit (fun u => kt.enc (xtsIv s.mem b.iv u)) b.dul.toNat (xtsUnits b)
        (s.load b.src b.len)) s.mem.read := by
  rw [xtsApply, store_mem, read_writeBytes_eq (risesFrom_of_wf hm)]

end Apply

/-- A command that completes and writes one range fills that range (R76). -/
theorem length_of_single_output {i : Instr} {s : State} {a n : Nat} {out : List Byte} (h : Completes i s)
    (hout : outputsOf i s = [(a, out)]) (hrange : writeRanges i = [(a, n)]) : out.length = n := by
  have hmap := outputsOf_ranges h
  rw [hout, hrange] at hmap
  exact congrArg Prod.snd (List.cons.inj hmap).1

/-- Settles O41: no condition of R361 holds, and the encrypted units are stored at DST. -/
theorem xtsEncWritesTheEncryptedUnits : Obligations.XtsEncWritesTheEncryptedUnits := by
  unfold Obligations.XtsEncWritesTheEncryptedUnits
  intro ks kt b s hm hc hdata htweak harg hr
  have hcomp : Completes (.xtsEnc ks kt b) s :=
    ⟨rfl, fun _ => hc, false_not_mem_validPair hdata htweak, harg, hr⟩
  exact ⟨_, exec_completes hcomp, memoryOnly_xtsApply _ _ b, length_of_single_output hcomp rfl rfl,
    congrFun (read_xtsApply _ _ b hm)⟩

/-- Settles O42: as XTS_ENC, with the inverse cipher of the data key. -/
theorem xtsDecWritesTheDecryptedUnits : Obligations.XtsDecWritesTheDecryptedUnits := by
  unfold Obligations.XtsDecWritesTheDecryptedUnits
  intro ks kt b s hm hc hdata htweak harg hr
  have hcomp : Completes (.xtsDec ks kt b) s :=
    ⟨rfl, fun _ => hc, false_not_mem_validPair hdata htweak, harg, hr⟩
  exact ⟨_, exec_completes hcomp, memoryOnly_xtsApply _ _ b, length_of_single_output hcomp rfl rfl,
    congrFun (read_xtsApply _ _ b hm)⟩

end Sys2Proof.Machine
end

section
/-! PROOFS. The step of the running Engine (R331 to R333), and data movement and list control (R320 to R325). -/

namespace Sys2Proof.Machine

/-! ### The fetch -/

/-- An admitted descriptor that decodes is fetched (R332). -/
theorem fetch_ok {s : State} {i : Instr} (ha : admittedRead s.cfg s.cp.toNat 64 = true)
    (hd : decode (s.mem.readBytes s.cp.toNat 64) = .ok i) : fetch s = .ok i := by
  simp only [fetch, ha, hd, if_true]

/-- An admitted descriptor that does not decode is E_ILLEGAL (R353). -/
theorem fetch_illegal {s : State} {e : DecodeError} (ha : admittedRead s.cfg s.cp.toNat 64 = true)
    (hd : decode (s.mem.readBytes s.cp.toNat 64) = .error e) : fetch s = .error .illegal := by
  simp only [fetch, ha, hd, if_true]

/-- The descriptor at CP decodes as its sixteen words (R100). -/
theorem decode_readBytes (m : Memory) (a : Nat) :
    decode (m.readBytes a 64) = decodeWords (wordAt (m.readBytes a 64)) := by
  rw [decode, length_readBytes, if_neg (Nat.lt_irrefl 64)]

/-- A header whose OPC is that of a command without fields decodes to that command when every other bit is 0, and not
at all otherwise (R105). -/
theorem decodeWords_of_noFields {o : Opcode} (ho : o.usedBits = 0) {w : Nat → Word}
    (hopc : (w 0).extractLsb' 0 8 = o.code) :
    (w 0 = o.code.setWidth 32 → decodeWords w = buildInstr o w) ∧
    (w 0 ≠ o.code.setWidth 32 → ∃ e, decodeWords w = .error e) := by
  have hadmits : o.Admits (w 0) ↔ w 0 = o.code.setWidth 32 := by
    rw [Opcode.Admits, ho, BitVec.ofNat_eq_ofNat, BitVec.not_zero, BitVec.and_allOnes]
  refine ⟨fun h => decodeWords_of_admits (hadmits.mpr h), fun h => ?_⟩
  cases hd : decodeWords w with
  | error e => exact ⟨e, rfl⟩
  | ok i =>
    obtain ⟨o', hadm, -⟩ := admits_of_decodeWords hd
    have hsame : some o = some o' := by
      rw [← (opcodeOf_eq_some_iff _ o).mpr hopc, (opcodeOf_eq_some_iff _ o').mpr hadm.opc]
    cases hsame
    exact absurd (hadmits.mp hadm) h

/-! ### The step -/

/-- With no input pending a step is the Engine's (R333). -/
theorem step_engine {s : State} (ht : s.turns = []) : step s = engineStep s := by rw [step, ht]

/-- The notes of a step whose descriptor was fetched, in one record (R76). -/
theorem notes_of_admitted {s : State} (ha : admittedRead s.cfg s.cp.toNat 64 = true) (i : Instr) (t : State) :
    noteFetch s (noteCommand i t) = { t with
      runReads := (s.cp.toNat, 64) :: (if t.phase = .running then readRanges i else []) ++ t.runReads
      runWrites := (if t.phase = .running then writeRanges i else []) ++ t.runWrites } := by
  rw [noteFetch, fetchRanges, if_pos ha, noteCommand]
  split
  case h_1 hp => simp [hp]
  case h_2 hp => simp [hp]

/-- An Engine step on an admitted descriptor that decodes is its command, with the notes of the run (R332). -/
theorem engineStep_runs {s : State} {i : Instr} (hp : s.phase = .running)
    (ha : admittedRead s.cfg s.cp.toNat 64 = true) (hd : decode (s.mem.readBytes s.cp.toNat 64) = .ok i) :
    ∃ t, exec i s = .next t ∧ engineStep s = .next (noteFetch s (noteCommand i t)) := by
  have hf := fetch_ok ha hd
  rcases exec_cases i s with ⟨_, hx⟩ | ⟨_, _, hx⟩
  · exact ⟨_, hx, engineStep_ok hp hf hx⟩
  · exact ⟨_, hx, engineStep_ok hp hf hx⟩

/-- An Engine step on an admitted descriptor that does not decode is the error stop with E_ILLEGAL (R353, R360). -/
theorem engineStep_illegal {s : State} {e : DecodeError} (hp : s.phase = .running)
    (ha : admittedRead s.cfg s.cp.toNat 64 = true) (hd : decode (s.mem.readBytes s.cp.toNat 64) = .error e) :
    ∃ t, engineStep s = .next t ∧ StopsWith .illegal s t :=
  ⟨_, engineStep_error hp (fetch_illegal ha hd), rfl⟩

/-! ### What a turn leaves pending -/

@[simp] theorem effectOf_turns (i : Instr) (s : State) : (effectOf i s).turns = s.turns := by rw [effectOf_eq]

theorem engineStep_turns {s t : State} (h : engineStep s = .next t) : t.turns = s.turns := by
  rcases engineStep_outcome h with ⟨-, rfl⟩ | ⟨-, _, _, _, rfl, ⟨i, -, rfl⟩ | ⟨e, rfl⟩⟩
  · rfl
  · exact effectOf_turns i s
  · rfl

theorem writeCtrl_turns (x : Word) (s : State) : (writeCtrl x s).turns = s.turns := by
  rcases writeCtrl_cases x s with ⟨-, -, hw⟩ | ⟨-, -, -, -, hw⟩ | ⟨-, hw⟩ <;> rw [hw] <;> rfl

theorem hostRegWrite_turns (off : BitVec 8) (width : AccessWidth) (x : Word) (s : State) :
    (hostRegWrite off width x s).turns = s.turns := by
  obtain ⟨u, r, hw, hu⟩ := hostRegWrite_cases off width x s
  rw [hw]
  rcases hu with rfl | ⟨-, -, rfl⟩ | ⟨-, -, rfl⟩ | rfl
  · rfl
  · exact writeCtrl_turns x s
  · rw [writeStatus_eq]
  · rw [writeCmdPtr_eq]

/-- No turn adds or removes a pending one (R333). -/
theorem takeTurn_turns {u : Turn} {s t : State} (h : takeTurn u s = .next t) : t.turns = s.turns := by
  rcases takeTurn_next h with ⟨-, he⟩ | ⟨_, _, -, rfl⟩ | ⟨off, width, x, -, rfl⟩ | ⟨a, -, rfl⟩ | ⟨a, b, -, -, rfl⟩ |
    ⟨-, rfl⟩
  · exact engineStep_turns he
  · rfl
  · exact hostRegWrite_turns off width x s
  · rw [hostMemRead_eq]
  · rw [hostMemWrite_eq]
  · rfl

/-- Settles O6: the step is by definition the turn at the head of the list, or the Engine's; no turn touches the list,
and the Engine's turn is the fetched command with its notes. -/
theorem stepRunsTheDecodedCommand : Obligations.StepRunsTheDecodedCommand := by
  unfold Obligations.StepRunsTheDecodedCommand
  refine ⟨fun _ => rfl, fun _ _ _ => ⟨rfl, fun _ => takeTurn_turns⟩, fun _ _ _ _ => ⟨rfl, rfl⟩, ?_⟩
  intro s i hp ha hd noted
  have hruns : ∀ ts, ∃ t, exec i { s with turns := ts } = .next t ∧
      engineStep { s with turns := ts } = .next (noted t) := fun ts => by
    obtain ⟨t, hx, hs⟩ := engineStep_runs (s := { s with turns := ts }) hp ha hd
    exact ⟨t, hx, hs.trans (congrArg _ (notes_of_admitted (s := { s with turns := ts }) ha i t))⟩
  exact ⟨hruns [], hruns⟩

/-! ### CP -/

/-- Settles O43: the advance moves CP and the error stop does not; a step that sets ERR is an error stop. -/
theorem cpAdvancesExactlyWhenACommandCompletes : Obligations.CpAdvancesExactlyWhenACommandCompletes := by
  unfold Obligations.CpAdvancesExactlyWhenACommandCompletes
  refine ⟨fun i s hc => ?completes, fun i s e hr => ⟨_, exec_raises hr, rfl, rfl⟩,
    fun s t ht hp herr hs hterr => ?stops, by decide⟩
  case completes =>
    refine ⟨_, exec_completes hc, ?_, effectOf_err i s, effectOf_errPtr i s⟩
    rw [advance_cp, effectOf_cp]
  case stops =>
    rw [step_engine ht] at hs
    rcases engineStep_outcome hs with ⟨hi, -⟩ | ⟨-, _, _, _, rfl, ⟨i, -, rfl⟩ | ⟨e, rfl⟩⟩
    · rw [hp] at hi; cases hi
    · have hkeeps : (effectOf i s).err = true := hterr
      rw [effectOf_err, herr] at hkeeps; cases hkeeps
    · exact ⟨rfl, rfl⟩

/-! ### NOP and HALT -/

/-- A step on the opcode of a command without fields that writes no memory: the command when every other header bit is
0, E_ILLEGAL otherwise (R105). -/
theorem step_noFields {o : Opcode} {i : Instr} {s u : State} (ho : o.usedBits = 0)
    (hbuild : ∀ w, buildInstr o w = .ok i) (hwrites : writeRanges i = []) (hx : exec i s = .next u)
    (ht : s.turns = []) (hp : s.phase = .running) (ha : admittedRead s.cfg s.cp.toNat 64 = true)
    (hopc : (wordAt (s.mem.readBytes s.cp.toNat 64) 0).extractLsb' 0 8 = o.code) :
    ∃ t, step s = .next t ∧
      (wordAt (s.mem.readBytes s.cp.toNat 64) 0 = o.code.setWidth 32 → t = { u with runReads := t.runReads }) ∧
      (wordAt (s.mem.readBytes s.cp.toNat 64) 0 ≠ o.code.setWidth 32 → StopsWith .illegal s t) := by
  obtain ⟨hruns, hrefuses⟩ := decodeWords_of_noFields ho hopc
  rw [step_engine ht]
  by_cases hh : wordAt (s.mem.readBytes s.cp.toNat 64) 0 = o.code.setWidth 32
  · have hd : decode (s.mem.readBytes s.cp.toNat 64) = .ok i := by rw [decode_readBytes, hruns hh, hbuild]
    refine ⟨_, engineStep_ok hp (fetch_ok ha hd) hx, fun _ => ?_, fun hne => absurd hh hne⟩
    rw [notes_of_admitted ha, hwrites, ite_self, List.nil_append]
  · obtain ⟨e, he⟩ := hrefuses hh
    obtain ⟨t, hs, hstop⟩ := engineStep_illegal hp ha ((decode_readBytes _ _).trans he)
    exact ⟨t, hs, fun h => absurd h hh, fun _ => hstop⟩

/-- Settles O9: NOP has no check and no effect but the advance, and its opcode no header field. -/
theorem nopOnlyAdvancesCp : Obligations.NopOnlyAdvancesCp := by
  unfold Obligations.NopOnlyAdvancesCp
  have hexec : ∀ s : State, exec .nop s = .next { s with cp := s.cp + 64 } := fun _ => rfl
  exact ⟨hexec, fun s ht hp ha hopc => step_noFields (o := .nop) rfl (fun _ => rfl) rfl (hexec s) ht hp ha hopc⟩

/-- Settles O10: HALT has no check, its effect is the end of the run, and its opcode has no header field. -/
theorem haltEndsTheRun : Obligations.HaltEndsTheRun := by
  unfold Obligations.HaltEndsTheRun
  have hexec : ∀ s : State, exec .halt s = .next { s with cp := s.cp + 64, done := true, phase := .idle } :=
    fun _ => rfl
  refine ⟨fun s => ⟨_, hexec s, rfl, ?_, ?_, ?_⟩, fun s ht hp ha hopc =>
    step_noFields (o := .halt) rfl (fun _ => rfl) rfl (hexec s) ht hp ha hopc⟩
  · rw [statusWord_done]
  · rw [statusWord_busy]; rfl
  · rw [irq, Bool.true_and]

/-! ### VLD, VST and VXOR -/

/-- The commands that need no crypto unit have no condition but the admission of their ranges (R351, R357). -/
theorem completes_of_not_crypto {i : Instr} {s : State} (hc : isCrypto i = false)
    (hr : rangesAdmitted s.cfg i = true) : Completes i s := by
  have hplatform : isCrypto i = true → s.cfg.hasCrypto = true := fun h => by rw [hc] at h; cases h
  cases i with
  | nop | halt | vld | vst | vxor => exact ⟨rfl, hplatform, List.not_mem_nil, id, hr⟩
  | _ => cases hc

/-- Settles O11: the range is the command's only condition, and its effect is one register write. -/
theorem vldLoadsTheBlock : Obligations.VldLoadsTheBlock := by
  unfold Obligations.VldLoadsTheBlock
  intro vd addr s ha
  have hcomp : Completes (.vld vd addr) s :=
    completes_of_not_crypto rfl (by simp [rangesAdmitted, readRanges, writeRanges, ha])
  refine ⟨_, exec_completes hcomp, rfl, fun i hi => ?_, fun r hr => ?_⟩
  · rw [← vAt_eq_getElem, advance_vAt, effectOf, vAt_setV_self, byteOf_beBlock (length_load _ _ _) hi]
    exact readBytes_getD _ _ _ _ hi
  · rw [← vAt_eq_getElem, ← vAt_eq_getElem, advance_vAt, effectOf, vAt_setV_ne _ (Fin.val_ne_of_ne hr.symm)]

theorem memoryOnly_store {s : State} (a : Word) (bs : List Byte) : MemoryOnly s (advance (s.store a bs)) := rfl

/-- Settles O12: the range is the command's only condition, and its effect is one store. -/
theorem vstStoresTheBlock : Obligations.VstStoresTheBlock := by
  unfold Obligations.VstStoresTheBlock
  intro va addr s hm ha
  have hcomp : Completes (.vst va addr) s :=
    completes_of_not_crypto rfl (by simp [rangesAdmitted, readRanges, writeRanges, ha])
  refine ⟨_, exec_completes hcomp, memoryOnly_store addr _, fun a => ?_⟩
  rw [advance_mem, effectOf, store_mem, read_writeBytes (risesFrom_of_wf hm), length_blockBytes]
  split
  case isTrue hin => rw [blockBytes_getD _ _ (by omega), vAt_eq_getElem]
  case isFalse => rfl

/-- Settles O13: VXOR has no check, and its effect is one register write. -/
theorem vxorXorsTwoRegisters : Obligations.VxorXorsTwoRegisters := by
  unfold Obligations.VxorXorsTwoRegisters
  intro vd va vb s
  show execVxor vd va vb s = _
  rw [execVxor, command_setV firstError_nil, vAt_eq_getElem, vAt_eq_getElem]

end Sys2Proof.Machine
end

section
/-! PROOFS. Errors, the error stop and the Host's recovery (R350 to R363). -/

namespace Sys2Proof.Machine

/-! ### What a step raises -/

/-- A descriptor whose range is not admitted is E_BUS (R357). -/
theorem fetch_bus {s : State} (ha : admittedRead s.cfg s.cp.toNat 64 = false) : fetch s = .error .bus := by
  simp only [fetch, ha, Bool.false_eq_true, if_false]

/-- The running Engine raises `e` at `s`: its fetch does, or the command that it fetches (R361). -/
def EngineRaises (s : State) (e : ErrCode) : Prop := fetch s = .error e ∨ ∃ i, fetch s = .ok i ∧ Raises i s e

/-- A step that raises is the error stop, with its fetch noted (R360). -/
theorem engineStep_of_engineRaises {s : State} {e : ErrCode} (hp : s.phase = .running) (h : EngineRaises s e) :
    engineStep s = .next (noteFetch s (errorStop e s)) := by
  rcases h with hf | ⟨i, hf, hr⟩
  · exact engineStep_error hp hf
  · exact engineStep_ok hp hf (exec_raises hr)

theorem stopsWith_noteFetch (e : ErrCode) (s : State) : StopsWith e s (noteFetch s (errorStop e s)) := rfl

/-- A step that sets ERR raised an error. -/
theorem engineRaises_of_err {s t : State} (herr : s.err = false) (h : engineStep s = .next t) (hterr : t.err = true) :
    ∃ e, EngineRaises s e ∧ t = noteFetch s (errorStop e s) := by
  rcases engineStep_next h with ⟨-, rfl⟩ | ⟨-, i, u, hf, hx, rfl⟩ | ⟨-, e, hf, rfl⟩
  · rw [herr] at hterr; cases hterr
  · rcases exec_next hx with ⟨-, rfl⟩ | ⟨e, hr, rfl⟩
    · rw [noteFetch_err, noteCommand_err, advance_err, effectOf_err, herr] at hterr; cases hterr
    · exact ⟨e, .inr ⟨i, hf, hr⟩, rfl⟩
  · exact ⟨e, .inl hf, rfl⟩

/-- Settles O7: each of the three cases is an error that the fetch or the fetched command raises. -/
theorem stepRaisesTheFirstErrorOfTheCheckOrder : Obligations.StepRaisesTheFirstErrorOfTheCheckOrder := by
  unfold Obligations.StepRaisesTheFirstErrorOfTheCheckOrder
  refine ⟨⟨rfl, rfl, rfl, rfl, rfl, rfl⟩, fun s ht hp => ?_⟩
  have hstops : ∀ e, EngineRaises s e → ∃ t, step s = .next t ∧ StopsWith e s t := fun e h =>
    ⟨_, (step_engine ht).trans (engineStep_of_engineRaises hp h), stopsWith_noteFetch e s⟩
  refine ⟨fun ha => hstops _ (.inl (fetch_bus ha)), fun ha => ⟨fun hnot => ?_, fun i hd e hr => ?_⟩⟩
  · cases hd : decode (s.mem.readBytes s.cp.toNat 64) with
    | ok i => exact absurd hd (hnot i)
    | error e => exact hstops _ (.inl (fetch_illegal ha hd))
  · exact hstops e (.inr ⟨i, fetch_ok ha hd, hr⟩)

/-! ### Without the crypto unit -/

section Platform
variable {i : Instr} (hc : isCrypto i = false) (s : State)
include hc

/-- The checks of a command that needs no crypto unit do not ask for it (R352). -/
theorem checksOf_withCrypto (b : Bool) :
    checksOf i { s with cfg := { s.cfg with hasCrypto := b } } = checksOf i s := by
  cases i with
  | nop | halt | vld | vst | vxor => rfl
  | _ => cases hc

/-- The effect of a command that needs no crypto unit is the same in every configuration. -/
theorem effectOf_withConfig (c : Config) :
    { effectOf i { s with cfg := c } with cfg := s.cfg } = effectOf i s := by
  cases i with
  | nop | halt | vld | vst | vxor => rfl
  | _ => cases hc

/-- A command that needs no crypto unit does the same with it and without it (R352). -/
theorem exec_of_exec_withCrypto {b : Bool} {t : State}
    (h : exec i { s with cfg := { s.cfg with hasCrypto := b } } = .next t) :
    exec i s = .next { t with cfg := s.cfg } := by
  have hchecks := checksOf_withCrypto hc s b
  rcases exec_next_cases i s with ⟨hn, hx⟩ | ⟨e, he, hx⟩
  · rw [exec_eq_command, command_ok (hchecks ▸ hn)] at h
    cases h
    rw [hx, ← effectOf_withConfig hc s]; rfl
  · rw [exec_eq_command, command_error (hchecks ▸ he)] at h
    cases h
    exact hx

end Platform

/-- Settles O44: E_PLATFORM comes first after E_ILLEGAL, and the five other commands neither check for the crypto unit
nor use it. -/
theorem platformErrorStopsExactlyTheCryptoCommands : Obligations.PlatformErrorStopsExactlyTheCryptoCommands := by
  unfold Obligations.PlatformErrorStopsExactlyTheCryptoCommands
  intro i s hno
  obtain ⟨hcap0, hcap1⟩ := capWord_hasCrypto s.cfg
  refine ⟨fun hc hw => ?_, fun hc t => exec_of_exec_withCrypto hc s, hcap0.trans hno, hcap1.trans hno⟩
  have hraises : Raises i s .platform := ⟨hw, hc, hno⟩
  exact exec_raises hraises

/-! ### Recovery -/

/-- The state in which the run that stopped by an error at `s` starts again (R363). -/
def restarted (s : State) : State :=
  { s with err := false, errCode := 0, errPtr := s.cp, phase := .running, runReads := [], runWrites := [] }

/-- The Host's clear of ERR and START after an error stop (R37, R330, R363). -/
theorem startRun_writeStatus_errorStop {s : State} (hd : s.done = false) (e : ErrCode) :
    startRun (writeStatus 4 (noteFetch s (errorStop e s))) = restarted s := by
  rw [writeStatus_eq, startRun_starts rfl rfl, restarted, ← hd]; rfl

/-- No check of a command looks at what the error stop and the recovery from it change (R361). -/
theorem checksOf_restarted (i : Instr) (s : State) : checksOf i (restarted s) = checksOf i s := by
  cases i <;> rfl

/-- The same descriptor is fetched again, and its command raises the same error. -/
theorem engineRaises_restarted {s : State} {e : ErrCode} (h : EngineRaises s e) : EngineRaises (restarted s) e := by
  rcases h with hf | ⟨i, hf, hr⟩
  · exact .inl hf
  · refine .inr ⟨i, hf, ?_⟩
    rwa [← firstError_some_iff, checksOf_restarted, firstError_some_iff]

/-- Settles O48: the restarted Engine raises at the same command, and the second error stop writes what the first
wrote. -/
theorem retryRaisesTheSameError : Obligations.RetryRaisesTheSameError := by
  unfold Obligations.RetryRaisesTheSameError
  intro s t hturns _ hdone herr hs hterr
  rw [step_engine hturns] at hs
  obtain ⟨e, hraises, rfl⟩ := engineRaises_of_err herr hs hterr
  rw [startRun_writeStatus_errorStop hdone, step_engine (s := restarted s) hturns]
  exact ⟨_, engineStep_of_engineRaises rfl (engineRaises_restarted hraises), rfl⟩

end Sys2Proof.Machine
end

section
/-! PROOFS. The reset input during a run (R402): what it leaves of the command that it interrupts. -/

namespace Sys2Proof.Machine

/-- An Engine step changes no byte outside the write ranges of the command that it fetches, and none at all when
the fetch fails (R76, R360). -/
theorem engineStep_mem_outside {s t : State} (hm : s.mem.wf = true) (h : engineStep s = .next t) {a : Nat}
    (ha : ∀ i, fetch s = .ok i → ¬ InRanges (writeRanges i) a) : t.mem.read a = s.mem.read a := by
  rcases engineStep_next h with ⟨-, rfl⟩ | ⟨-, i, u, hf, hx, rfl⟩ | ⟨-, e, -, rfl⟩
  · rfl
  · rw [noteFetch_mem, noteCommand_mem]
    by_contra hne
    exact ha i hf (memoryChangesOnlyInTheWriteRanges.1 i s u hm hx a hne).1
  · rfl

theorem memoryAtPowerOn_running {s t : State} (hp : s.phase = .running) (h : engineStep s = .next t) :
    memoryAtPowerOn s = tornMemory (Config.freeNew s.draws) s.mem t.mem := by
  simp only [memoryAtPowerOn, hp, h]

/-- After the reset input during a run, each byte is the one that the free choice picks (R402, S4). -/
theorem read_powerOnReset_running {s t : State} (hm : s.mem.wf = true) (hp : s.phase = .running)
    (h : engineStep s = .next t) (a : Nat) :
    (powerOnReset s).mem.read a = if Config.freeNew s.draws a then t.mem.read a else s.mem.read a := by
  rw [powerOnReset, memoryAtPowerOn_running hp h]
  exact (tornMemory_spec _ hm (engineStep_wf h hm)).2 a

/-- Settles O58: the torn memory picks the old or the new byte, and outside the write ranges these are the same. -/
theorem powerOnDuringARunTearsOnlyTheInterruptedCommand :
    Obligations.PowerOnDuringARunTearsOnlyTheInterruptedCommand := by
  unfold Obligations.PowerOnDuringARunTearsOnlyTheInterruptedCommand
  intro s t hm hp h
  refine ⟨powerOnReset s, rfl, rfl, fun a => ?_⟩
  rw [read_powerOnReset_running hm hp h]
  split
  · exact ⟨.inr rfl, engineStep_mem_outside hm h⟩
  · exact ⟨.inl rfl, fun _ => rfl⟩

end Sys2Proof.Machine
end
